-- ==== Sys2Proof/Word.lean ====
section
/-! DEFINITION. The word types of the block (spec/10_state.md R21, R31, R35; spec/20_memory.md R50). -/

namespace Sys2Proof

/-- A host register: 64 bits (spec/10_state.md R21). -/
abbrev Word := BitVec 64

/-- A byte of BUF (spec/20_memory.md R50). -/
abbrev Byte := BitVec 8

/-- A command word, CMD[31:0] (spec/30_encoding.md R70). -/
abbrev CmdWord := BitVec 32

/-- V, R and the cumulative entries of a CDF table are 16 bits wide (spec/10_state.md R31, R35). -/
abbrev Half := BitVec 16

end Sys2Proof
end

