-- ==== Sys2Proof/Syntax.lean ====
section
/-! DEFINITION. The twenty commands of spec/opcode_table.json, with their operand fields (spec/30_encoding.md R71 to R78). -/

namespace Sys2Proof

/-- Field O (spec/30_encoding.md R74): the bit order of a Bit Cursor read. -/
inductive Order where
  | msb
  | lsb
  deriving DecidableEq, Repr

/-- Field K of AD.INIT (spec/30_encoding.md R76): reload the CDF RAM, or carry it over. -/
inductive CarryOver where
  | reload
  | keep
  deriving DecidableEq, Repr

/-- The commands (spec/30_encoding.md R78). `n` is field N, `bsl` field BSL, `hr` field HR (has_rows) and
`hc` field HC (has_cols). -/
inductive Instr where
  | bcInit
  | bcRdbit (o : Order)
  | bcRdbits (o : Order) (n : Nat)
  | bcRdbits64 (o : Order) (n : Nat)
  | bcRdbyte (o : Order)
  | bcSkip
  | bcAlign
  | bcPeek (o : Order) (n : Nat)
  | bcPos
  | bcRem
  | viDec
  | adInit (k : CarryOver)
  | adPos
  | srCtxrst
  | srPart (bsl : Nat) (hr hc : Bool)
  | srSkip
  | srIntra
  | srInter
  | srMv
  | srDq
  deriving DecidableEq, Repr

end Sys2Proof
end

