-- ==== Sys2Proof/WellFormed.lean ====
section
/-! DEFINITION. Which terms of Instr are commands: every field fits the bits its format gives it. -/

namespace Sys2Proof

/-- Field N has 7 bits and field BSL has 3 (spec/30_encoding.md R75, R77). A count above a command's limit
and a BSL below 3 are legal encodings (R81), so they are well-formed here. -/
def Instr.wf : Instr → Bool
  | .bcInit => true
  | .bcRdbit _ => true
  | .bcRdbits _ n => decide (n < 128)
  | .bcRdbits64 _ n => decide (n < 128)
  | .bcRdbyte _ => true
  | .bcSkip => true
  | .bcAlign => true
  | .bcPeek _ n => decide (n < 128)
  | .bcPos => true
  | .bcRem => true
  | .viDec => true
  | .adInit _ => true
  | .adPos => true
  | .srCtxrst => true
  | .srPart bsl _ _ => decide (bsl < 8)
  | .srSkip => true
  | .srIntra => true
  | .srInter => true
  | .srMv => true
  | .srDq => true

end Sys2Proof
end

