-- ==== Sys2Proof/Decode.lean ====
section
/-! DEFINITION. The decoder of spec/30_encoding.md R80, total on every 64-bit CMD value, and the encoder. -/

namespace Sys2Proof

/-- Why a CMD value spells no command. Each of them makes the CMD write fail with ILLEGAL_COMMAND
(spec/30_encoding.md R72, R79). -/
inductive Illegal where
  /-- CMD[63:32] is not zero (R72). -/
  | upperBitsSet
  /-- OPC is none of R78's values (R79). -/
  | reservedOpcode
  /-- OPC is listed and a reserved bit of its format is set (R79). -/
  | reservedBitSet
  deriving DecidableEq, Repr

/-- What the decoder answers. -/
inductive Decoded where
  | instr (i : Instr)
  | illegal (r : Illegal)
  deriving DecidableEq, Repr

/-- Field O or K: bit 16 (spec/30_encoding.md R71). -/
def fieldBit16 (c : CmdWord) : Bool := c.getLsbD 16

/-- Field O (R74). -/
def fieldO (c : CmdWord) : Order := if fieldBit16 c then .lsb else .msb

/-- Field K (R76). -/
def fieldK (c : CmdWord) : CarryOver := if fieldBit16 c then .keep else .reload

/-- Field N: bits 6:0, zero-extended (R75, R82). -/
def fieldN (c : CmdWord) : Nat := (c.extractLsb' 0 7).toNat

/-- Field BSL: bits 2:0 (R77, R82). -/
def fieldBsl (c : CmdWord) : Nat := (c.extractLsb' 0 3).toNat

/-- Field HR: bit 8 (R77). -/
def fieldHr (c : CmdWord) : Bool := c.getLsbD 8

/-- Field HC: bit 9 (R77). -/
def fieldHc (c : CmdWord) : Bool := c.getLsbD 9

/-- Field OPC: bits 31:24 (R71). -/
def fieldOpc (c : CmdWord) : Byte := c.extractLsb' 24 8

/-- One row of spec/opcode_table.json: its match value, its mask, and the command with its fields read. -/
structure OpcodeRow where
  pattern : CmdWord
  mask    : CmdWord
  build   : CmdWord → Instr

/-- Masks of the formats (spec/30_encoding.md R73); formats O and K have one mask. -/
def maskZ : CmdWord := 0xFFFFFFFF#32
/-- Format O and format K. -/
def maskO : CmdWord := 0xFFFEFFFF#32
/-- Format ON. -/
def maskON : CmdWord := 0xFFFEFF80#32
/-- Format P. -/
def maskP : CmdWord := 0xFFFFFCF8#32

/-- The opcode map (spec/30_encoding.md R78), Bit Cursor and Varint rows. -/
def opcodeRowsCursor : List OpcodeRow :=
  [ ⟨0x10000000#32, maskZ, fun _ => .bcInit⟩,
    ⟨0x11000000#32, maskO, fun c => .bcRdbit (fieldO c)⟩,
    ⟨0x12000000#32, maskON, fun c => .bcRdbits (fieldO c) (fieldN c)⟩,
    ⟨0x13000000#32, maskON, fun c => .bcRdbits64 (fieldO c) (fieldN c)⟩,
    ⟨0x14000000#32, maskO, fun c => .bcRdbyte (fieldO c)⟩,
    ⟨0x15000000#32, maskZ, fun _ => .bcSkip⟩,
    ⟨0x16000000#32, maskZ, fun _ => .bcAlign⟩,
    ⟨0x17000000#32, maskON, fun c => .bcPeek (fieldO c) (fieldN c)⟩,
    ⟨0x18000000#32, maskZ, fun _ => .bcPos⟩,
    ⟨0x19000000#32, maskZ, fun _ => .bcRem⟩,
    ⟨0x20000000#32, maskZ, fun _ => .viDec⟩ ]

/-- The opcode map (spec/30_encoding.md R78), Arithmetic Decoder and Symbol Router rows. -/
def opcodeRowsDecoder : List OpcodeRow :=
  [ ⟨0x30000000#32, maskO, fun c => .adInit (fieldK c)⟩,
    ⟨0x31000000#32, maskZ, fun _ => .adPos⟩,
    ⟨0x40000000#32, maskZ, fun _ => .srCtxrst⟩,
    ⟨0x41000000#32, maskP, fun c => .srPart (fieldBsl c) (fieldHr c) (fieldHc c)⟩,
    ⟨0x42000000#32, maskZ, fun _ => .srSkip⟩,
    ⟨0x43000000#32, maskZ, fun _ => .srIntra⟩,
    ⟨0x44000000#32, maskZ, fun _ => .srInter⟩,
    ⟨0x45000000#32, maskZ, fun _ => .srMv⟩,
    ⟨0x46000000#32, maskZ, fun _ => .srDq⟩ ]

/-- All rows, in the order of the table. -/
def opcodeRows : List OpcodeRow := opcodeRowsCursor ++ opcodeRowsDecoder

/-- A word spells a row's command exactly when its fixed bits are the row's (spec/30_encoding.md R73). -/
def OpcodeRow.spells (r : OpcodeRow) (c : CmdWord) : Bool := (c &&& r.mask) == r.pattern

/-- The 32-bit part of the decode procedure (spec/30_encoding.md R80): the first row the word spells, read
under that row; failing that, which kind of illegal word it is (R79). -/
def decodeWord (c : CmdWord) : Decoded :=
  match opcodeRows.find? (fun r => r.spells c) with
  | some r => .instr (r.build c)
  | none =>
    if opcodeRows.any (fun r => fieldOpc r.pattern == fieldOpc c) then .illegal .reservedBitSet
    else .illegal .reservedOpcode

/-- The decode procedure on a whole CMD value (spec/30_encoding.md R72, R80). -/
def decode (w : Word) : Decoded :=
  if w.extractLsb' 32 32 = 0#32 then decodeWord (w.extractLsb' 0 32) else .illegal .upperBitsSet

/-- The instruction a decoder's answer holds, if it holds one. -/
def Decoded.instr? : Decoded → Option Instr
  | .instr i => some i
  | .illegal _ => none

/-- The instruction read from a word of spec/opcode_table.json. A command is one 32-bit word delivered whole
in CMD[31:0] (spec/30_encoding.md R70), so it has no layout in bytes. -/
def decodeTableWord (nbits w : Nat) : Option Instr :=
  (decode (BitVec.ofNat 64 (w % 2 ^ nbits))).instr?

/-- Bit 16 of a word, from field O. -/
def Order.bits : Order → CmdWord
  | .msb => 0#32
  | .lsb => 0x00010000#32

/-- Bit 16 of a word, from field K. -/
def CarryOver.bits : CarryOver → CmdWord
  | .reload => 0#32
  | .keep => 0x00010000#32

/-- A word of format ON: `OPC | O<<16 | N`. -/
def encodeON (pattern : CmdWord) (o : Order) (n : Nat) : CmdWord :=
  pattern ||| o.bits ||| (BitVec.ofNat 7 n).zeroExtend 32

/-- A word of format P: `0x41000000 | HC<<9 | HR<<8 | BSL` (spec/43_symbol_router.md R210). -/
def encodeP (pattern : CmdWord) (bsl : Nat) (hr hc : Bool) : CmdWord :=
  pattern ||| (if hc then 0x200#32 else 0#32) ||| (if hr then 0x100#32 else 0#32) ||| (BitVec.ofNat 3 bsl).zeroExtend 32

/-- The word of a command (spec/30_encoding.md R71 to R78). -/
def encode : Instr → CmdWord
  | .bcInit => 0x10000000#32
  | .bcRdbit o => 0x11000000#32 ||| o.bits
  | .bcRdbits o n => encodeON 0x12000000#32 o n
  | .bcRdbits64 o n => encodeON 0x13000000#32 o n
  | .bcRdbyte o => 0x14000000#32 ||| o.bits
  | .bcSkip => 0x15000000#32
  | .bcAlign => 0x16000000#32
  | .bcPeek o n => encodeON 0x17000000#32 o n
  | .bcPos => 0x18000000#32
  | .bcRem => 0x19000000#32
  | .viDec => 0x20000000#32
  | .adInit k => 0x30000000#32 ||| k.bits
  | .adPos => 0x31000000#32
  | .srCtxrst => 0x40000000#32
  | .srPart bsl hr hc => encodeP 0x41000000#32 bsl hr hc
  | .srSkip => 0x42000000#32
  | .srIntra => 0x43000000#32
  | .srInter => 0x44000000#32
  | .srMv => 0x45000000#32
  | .srDq => 0x46000000#32

/-- The CMD value that executes a command: its word in bits 31:0, zero above (spec/10_state.md R22). -/
def encodeCmd (i : Instr) : Word := (encode i).zeroExtend 64

end Sys2Proof
end

