-- ==== Sys2Proof/Machine/CdfData.lean ====
section
/-! DEFINITION. The fourteen CDF tables as plain data (spec/10_state.md R35, R37; spec/43_symbol_router.md R200). -/

namespace Sys2Proof.Machine

/-- The fourteen tables of spec/43_symbol_router.md R200, in the order of their ids. -/
inductive TableId where
  | part8 | part16 | part32 | part64 | part128
  | skip | intra | inter
  | mvClass | mvBits | mvSign
  | dqBase | dqDiff | dqSign
  deriving DecidableEq, Repr

/-- One table: its cumulative entries `cdf_t[0..N_t-1]` on the scale 32768, and the adaptation counter
`cnt_t` (spec/10_state.md R35). -/
structure Table where
  cdf : List Half
  cnt : BitVec 6
  deriving DecidableEq, Repr, Inhabited

/-- The CDF RAM, and in the same shape the CDF ROM (spec/10_state.md R35, R37). -/
structure CdfRam where
  part8   : Table
  part16  : Table
  part32  : Table
  part64  : Table
  part128 : Table
  skip    : Table
  intra   : Table
  inter   : Table
  mvClass : Table
  mvBits  : Table
  mvSign  : Table
  dqBase  : Table
  dqDiff  : Table
  dqSign  : Table
  deriving DecidableEq, Repr, Inhabited

/-- Every table id, in the order of spec/43_symbol_router.md R200. -/
def TableId.all : List TableId :=
  [.part8, .part16, .part32, .part64, .part128, .skip, .intra, .inter,
   .mvClass, .mvBits, .mvSign, .dqBase, .dqDiff, .dqSign]

/-- The table with a given id. -/
def CdfRam.get (c : CdfRam) : TableId → Table
  | .part8 => c.part8
  | .part16 => c.part16
  | .part32 => c.part32
  | .part64 => c.part64
  | .part128 => c.part128
  | .skip => c.skip
  | .intra => c.intra
  | .inter => c.inter
  | .mvClass => c.mvClass
  | .mvBits => c.mvBits
  | .mvSign => c.mvSign
  | .dqBase => c.dqBase
  | .dqDiff => c.dqDiff
  | .dqSign => c.dqSign

/-- The tables with one of them replaced. -/
def CdfRam.set (c : CdfRam) (t : TableId) (x : Table) : CdfRam :=
  match t with
  | .part8 => { c with part8 := x }
  | .part16 => { c with part16 := x }
  | .part32 => { c with part32 := x }
  | .part64 => { c with part64 := x }
  | .part128 => { c with part128 := x }
  | .skip => { c with skip := x }
  | .intra => { c with intra := x }
  | .inter => { c with inter := x }
  | .mvClass => { c with mvClass := x }
  | .mvBits => { c with mvBits := x }
  | .mvSign => { c with mvSign := x }
  | .dqBase => { c with dqBase := x }
  | .dqDiff => { c with dqDiff := x }
  | .dqSign => { c with dqSign := x }

/-- The tables that `f` gives, id by id. -/
def CdfRam.tabulate (f : TableId → Table) : CdfRam where
  part8 := f .part8
  part16 := f .part16
  part32 := f .part32
  part64 := f .part64
  part128 := f .part128
  skip := f .skip
  intra := f .intra
  inter := f .inter
  mvClass := f .mvClass
  mvBits := f .mvBits
  mvSign := f .mvSign
  dqBase := f .dqBase
  dqDiff := f .dqDiff
  dqSign := f .dqSign

end Sys2Proof.Machine
end

