-- ==== Sys2Proof/Config.lean ====
section
/-! DEFINITION. The implementation parameters of spec/00_scope.md §3: the decided values, and DEFAULT_CDF as a free value. -/

namespace Sys2Proof

open Sys2Proof.Machine

/-- BUF_LEN is below this bound, so that every bit position fits in 64 bits (spec/00_scope.md R7). -/
def Config.bufLenLimit : Nat := 2 ^ 61

/-- LEB128_MAX_BYTES (spec/00_scope.md R8). -/
def Config.leb128MaxBytes : Nat := 8

/-- EC_PROB_SHIFT (spec/42_arith_decoder.md R161). -/
def Config.ecProbShift : Nat := 6

/-- EC_MIN_PROB (spec/42_arith_decoder.md R161). -/
def Config.ecMinProb : Nat := 4

/-- DQ_BASE_N, at its decided value (spec/00_scope.md R12, spec/90_conflicts.md C1; log 15). -/
def Config.dqBaseN : Nat := 4

/-- DQ_DIFF_N, at its decided value (spec/00_scope.md R12; log 15). -/
def Config.dqDiffN : Nat := 16

/-- The two edges that EDGE_CDF may depend on (spec/43_symbol_router.md R211). -/
inductive EdgeCase where
  /-- has_cols only: SPLIT or HORZ. -/
  | horz
  /-- has_rows only: SPLIT or VERT. -/
  | vert
  deriving DecidableEq, Repr

/-- The constant table of the fixed bool: probability one half (spec/42_arith_decoder.md R170). -/
def Config.fixedBool : List Half := [16384#16, 32768#16]

/-- EDGE_CDF, at its decided value for every partition table and edge (spec/00_scope.md R11; log 15). -/
def Config.edgeCdf (_ : TableId) (_ : EdgeCase) : List Half := Config.fixedBool

/-- FREE VALUE (log 7, DESIGN CHOICE): some contents for the CDF ROM, of which nothing is known. -/
opaque Config.someCdf : CdfRam

end Sys2Proof
end

