-- ==== Sys2Proof/Machine/Tables.lean ====
section
/-! DEFINITION. Sizes, checks and contents of the CDF tables (spec/43_symbol_router.md R200 to R203; spec/10_state.md R36). -/

namespace Sys2Proof.Machine

/-- `N_t`, the number of symbols of a table (spec/43_symbol_router.md R200). -/
def TableId.symbols : TableId → Nat
  | .part8 => 4
  | .part16 => 10
  | .part32 => 10
  | .part64 => 10
  | .part128 => 8
  | .skip => 2
  | .intra => 13
  | .inter => 4
  | .mvClass => 12
  | .mvBits => 2
  | .mvSign => 2
  | .dqBase => Config.dqBaseN
  | .dqDiff => Config.dqDiffN
  | .dqSign => 2

/-- CdfReload's result (spec/43_symbol_router.md R203): the ROM's entries, every counter 0. -/
def CdfRam.reload (rom : CdfRam) : CdfRam :=
  .tabulate fun t => { cdf := (rom.get t).cdf, cnt := 0#6 }

/-- Entries that are at least `lo`, never fall, stay below 32768 up to the last, which is 32768
(spec/10_state.md R36 with `lo = 1`). -/
def risesFrom (lo : Nat) : List Half → Bool
  | [] => false
  | [c] => c.toNat == 32768
  | c :: d :: cs => decide (lo ≤ c.toNat) && decide (c.toNat < 32768) && risesFrom c.toNat (d :: cs)

/-- Entries that are above `lo`, rise strictly, stay below 32768 up to the last, which is 32768
(spec/43_symbol_router.md R202 with `lo = 0`). -/
def risesStrictlyFrom (lo : Nat) : List Half → Bool
  | [] => false
  | [c] => c.toNat == 32768
  | c :: d :: cs =>
    decide (lo < c.toNat) && decide (c.toNat < 32768) && risesStrictlyFrom c.toNat (d :: cs)

/-- The CDF RAM invariant of one table of `n` symbols (spec/10_state.md R36). -/
def Table.wf (n : Nat) (t : Table) : Bool :=
  t.cdf.length == n && risesFrom 1 t.cdf && decide (t.cnt.toNat ≤ 32)

/-- The DEFAULT_CDF check of one table of `n` symbols (spec/43_symbol_router.md R202). -/
def Table.wfDefault (n : Nat) (t : Table) : Bool :=
  t.cdf.length == n && risesStrictlyFrom 0 t.cdf && t.cnt == 0#6

/-- A table of `n` equally likely symbols: entry i is floor((i + 1) * 32768 / n)
(the fixture TEST_ROM_U of spec/95_test_vectors.md, which is no table of the block's). -/
def Table.uniform (n : Nat) : Table :=
  { cdf := (List.range n).map fun i => BitVec.ofNat 16 ((i + 1) * 32768 / n), cnt := 0#6 }

/-- Every table meets spec/10_state.md R36. -/
def CdfRam.wf (c : CdfRam) : Bool := TableId.all.all fun t => (c.get t).wf t.symbols

/-- Every table meets the DEFAULT_CDF check of spec/43_symbol_router.md R202. -/
def CdfRam.wfDefault (c : CdfRam) : Bool := TableId.all.all fun t => (c.get t).wfDefault t.symbols

/-- Every table uniform: TEST_ROM_U of spec/95_test_vectors.md, a fixture. -/
def CdfRam.uniform : CdfRam := .tabulate fun t => .uniform t.symbols

/-- DEFAULT_CDF, an OPEN parameter (spec/00_scope.md R10): contents that pass the check of
spec/43_symbol_router.md R202 and of which nothing else is known. They are the free contents
`Config.someCdf` when those pass; the uniform tables stand in for free contents that do not, so that
every choice passes (log 7, DESIGN CHOICE). -/
def defaultCdf : CdfRam := if Config.someCdf.wfDefault then Config.someCdf else CdfRam.uniform

end Sys2Proof.Machine
end

