-- ==== Sys2Proof/Machine/State.lean ====
section
/-! DEFINITION. The state of one ADB instance and of the host interactions that wait for it, the reasons a step can stop, and reset. -/

namespace Sys2Proof.Machine

/-- The values of STATUS.ERR (spec/10_state.md R25, spec/60_exceptions.md R251). -/
inductive Err where
  | ok
  | unexpectedEof
  | parse
  | invalidData
  | decode
  | illegalCommand
  | notInitialised
  deriving DecidableEq, Repr

/-- The unit of ERROFF, STATUS.ERRUNIT (spec/10_state.md R25). -/
inductive OffUnit where
  | bit
  | byte
  deriving DecidableEq, Repr

/-- The fields of STATUS (spec/10_state.md R25). The register's 64-bit value is `Status.word`
(Machine/Flags.lean); its reserved bits are never written and hold nothing (log 11). The fields BC_VALID of
the Bit Cursor (R29) and AD_VALID of the decoder (R31) are mirrors of the two here, so they stand once. -/
structure Status where
  err     : Err
  sticky  : Bool
  errUnit : OffUnit
  bcValid : Bool
  adValid : Bool
  deriving DecidableEq, Repr

/-- The Bit Cursor: BC_BASE, BC_LEN and BC_POS (spec/10_state.md R29). -/
structure BitCursor where
  base : Word
  len  : Word
  pos  : Word
  deriving DecidableEq, Repr

/-- The Arithmetic Decoder: AD_BASE, AD_SIZE, AD_BITPOS, V and R (spec/10_state.md R31). AD_BITPOS is an
unbounded natural number, as R33 lets it be (log 9). -/
structure ArithDecoder where
  base   : Word
  size   : Word
  bitpos : Nat
  value  : Half
  range  : Half
  deriving DecidableEq, Repr

/-- BUF's contents: the bytes that are not zero, by address, in strictly rising order. An unlisted address
below BUF_LEN holds 0x00 (log 4). -/
abbrev Memory := List Host.Cell

/-- One interaction of the outside with the instance (spec/70_reset_and_hazards.md R286). `host` says which
host makes a register access, `bytes` how wide it is, `off` its offset in the register window. -/
inductive HostEvent where
  /-- A register write. -/
  | writeReg (host bytes off : Nat) (value : Word)
  /-- A register read. -/
  | readReg (host bytes off : Nat)
  /-- BUF is made to hold these bytes, and BUF_LEN is their number (R285 step 1). -/
  | loadBuf (content : List Byte)
  /-- One byte of BUF is written. -/
  | writeBuf (addr : Nat) (value : Byte)
  /-- The platform's hardware reset of the instance (R280). -/
  | reset
  /-- The platform's memory fails a BUF read (spec/60_exceptions.md R261). -/
  | bufReadFails
  deriving DecidableEq, Repr

/-- Why the machine stops. Neither stop is reached from reset (log 10): safe. -/
inductive Fault where
  /-- Raised by the Bit Cursor reads and VI.DEC when the BC window does not lie inside BUF: MemRead is defined
  only below BUF_LEN (spec/20_memory.md R51). Safe: the machine stops where the spec gives no byte. -/
  | bcWindowOutsideBuf
  /-- Raised by the typed reads when the tile window does not lie inside BUF (spec/20_memory.md R51). Safe. -/
  | tileWindowOutsideBuf
  deriving DecidableEq, Repr

/-- Why a run has no meaning. The spec says itself that a model refuses such a run, but for the three at the loading and
writing of BUF that name a log entry: there the spec gives no effect, and the refusal is the model's choice. -/
inductive Refusal where
  /-- Raised by exec for an instruction that has no meaning yet; no arm raises it now. Safe. -/
  | notModelled (mnemonic : String)
  /-- Raised by a register access at a mapped width and alignment but at offset 0x38 or above
  (spec/10_state.md R27). Safe. -/
  | unmappedOffset (off : Nat)
  /-- Raised by a register access that is not an aligned 64-bit access (spec/20_memory.md R58). Safe. -/
  | badAccessForm (bytes off : Nat)
  /-- Raised by a register access of a second host (spec/60_exceptions.md R269). Safe. -/
  | twoHosts
  /-- Raised by a write of a BUF byte inside a valid window (spec/20_memory.md R63). Safe. -/
  | bufWindowWritten (addr : Nat)
  /-- Raised by a write at or above BUF_LEN, where BUF has no byte (spec/20_memory.md R50). The spec gives such a write
  neither an effect nor a refusal: the model's choice (log 21, DESIGN CHOICE). Safe. -/
  | bufAddressOutside (addr : Nat)
  /-- Raised by loading BUF while a window is valid (spec/20_memory.md R63): the model's choice (log 5, DESIGN CHOICE).
  Safe. -/
  | bufLoadedUnderWindow
  /-- Raised by loading BUF with 2^61 bytes or more, which no BUF_LEN of spec/00_scope.md R7 allows: the model's choice
  (log 5, DESIGN CHOICE). Safe. -/
  | bufTooLong
  /-- Raised when the platform's memory fails a BUF read (spec/60_exceptions.md R261). Safe. -/
  | platformReadFault
  /-- Raised by building the block with a DEFAULT_CDF that fails the check (spec/43_symbol_router.md R202). Safe. -/
  | defaultCdfIllFormed
  deriving DecidableEq, Repr

/-- One instance (spec/10_state.md R20 to R37), its BUF, and the host side. -/
structure State where
  /-- ARG0 (R23). -/
  arg0   : Word
  /-- ARG1 (R23). -/
  arg1   : Word
  /-- RES0 (R24). -/
  res0   : Word
  /-- RES1 (R24). -/
  res1   : Word
  /-- STATUS (R25). -/
  status : Status
  /-- ERROFF (R26). -/
  erroff : Word
  /-- The Bit Cursor (R29). -/
  bc     : BitCursor
  /-- The Arithmetic Decoder (R31). -/
  ad     : ArithDecoder
  /-- The CDF RAM (R35). -/
  ram    : CdfRam
  /-- The CDF ROM, holding DEFAULT_CDF (R37). -/
  rom    : CdfRam
  /-- BUF (spec/20_memory.md R50). -/
  buf    : Memory
  /-- BUF_LEN (spec/00_scope.md R7). -/
  bufLen : Nat
  /-- The model's own: the host interactions not yet performed, the next one first (log 2). -/
  host   : List HostEvent
  /-- The model's own: the host that has accessed the registers since reset (log 13). -/
  driver : Option Nat
  /-- The model's own: what the last register read gave the host (log 12). -/
  readData : Word
  deriving DecidableEq, Repr

/-- The state after reset of an instance with the given ROM and BUF (spec/70_reset_and_hazards.md R280): reset
touches neither. The Bit Cursor's and the decoder's fields, which R280 leaves unspecified, are 0 (R281; log 8). -/
def State.resetOf (rom : CdfRam) (buf : Memory) (bufLen : Nat) : State where
  arg0 := 0#64
  arg1 := 0#64
  res0 := 0#64
  res1 := 0#64
  status := { err := .ok, sticky := false, errUnit := .bit, bcValid := false, adValid := false }
  erroff := 0#64
  bc := { base := 0#64, len := 0#64, pos := 0#64 }
  ad := { base := 0#64, size := 0#64, bitpos := 0, value := 0#16, range := 0#16 }
  ram := rom.reload
  rom := rom
  buf := buf
  bufLen := bufLen
  host := []
  driver := none
  readData := 0#64

/-- The machine right after reset, with nothing placed in BUF yet (log 3, log 4) and the free DEFAULT_CDF
(log 7). -/
def State.reset : State := State.resetOf defaultCdf [] 0

/-- The block built with a given DEFAULT_CDF and reset: contents that fail the check of
spec/43_symbol_router.md R202 are refused. -/
def State.build (rom : CdfRam) : Host.Outcome State Fault Refusal :=
  if rom.wfDefault then .next (State.resetOf rom [] 0) else .refused .defaultCdfIllFormed

end Sys2Proof.Machine
end

