-- ==== Sys2Proof/Machine/Flags.lean ====
section
/-! DEFINITION. STATUS as the host reads it (spec/10_state.md R25), and the one operation each that ends a command. -/

namespace Sys2Proof.Machine

/-- The 4-bit code of STATUS.ERR (spec/60_exceptions.md R251). -/
def Err.code : Err → BitVec 4
  | .ok => 0#4
  | .unexpectedEof => 1#4
  | .parse => 2#4
  | .invalidData => 3#4
  | .decode => 4#4
  | .illegalCommand => 5#4
  | .notInitialised => 6#4

/-- The bit of STATUS.ERRUNIT: 0 bits, 1 bytes (spec/10_state.md R25). -/
def OffUnit.code : OffUnit → BitVec 1
  | .bit => 0#1
  | .byte => 1#1

/-- STATUS as one 64-bit register: ERR in 3:0, STICKY 4, ERRUNIT 5, 7:6 zero, BC_VALID 8, AD_VALID 9, the rest
zero (spec/10_state.md R25). -/
def Status.word (s : Status) : Word :=
  0#54 ++ BitVec.ofBool s.adValid ++ BitVec.ofBool s.bcValid ++ 0#2
    ++ s.errUnit.code ++ BitVec.ofBool s.sticky ++ s.err.code

/-- `raise E(off, unit)`: a failing command's whole effect (spec/60_exceptions.md R252). This is the block's only
exception; it transfers no control and there is no return from it (R255). -/
def raise (e : Err) (off : Word) (unit : OffUnit) (s : State) : State :=
  { s with
    status := { s.status with err := e, sticky := true, errUnit := unit }
    erroff := off }

/-- The end of a successful command: ERR <- 0; STICKY, ERRUNIT and ERROFF stay (spec/10_state.md R25, R26). -/
def succeed (s : State) : State := { s with status := { s.status with err := .ok } }

/-- The end of a successful command with a result in RES0 (spec/10_state.md R24). -/
def succeedWith (v : Word) (s : State) : State := succeed { s with res0 := v }

end Sys2Proof.Machine
end

