-- ==== Sys2Proof/Machine/Ops.lean ====
section
/-! DEFINITION. Operations over BUF and the host register file. -/

namespace Sys2Proof.Machine

/-! ### BUF as data -/

/-- The byte at an address: an unlisted one reads as 0x00 (log 4). -/
def Memory.read : Memory → Nat → Byte
  | [], _ => 0#8
  | (k, b) :: m, a => if k = a then b else Memory.read m a

/-- The memory with one byte changed, in the canonical form: a zero byte is not listed. -/
def Memory.write : Memory → Nat → Byte → Memory
  | [], a, x => if x = 0#8 then [] else [(a, x)]
  | (k, b) :: m, a, x =>
    if a < k then (if x = 0#8 then (k, b) :: m else (a, x) :: (k, b) :: m)
    else if a = k then (if x = 0#8 then m else (a, x) :: m)
    else (k, b) :: Memory.write m a x

/-- The memory that holds the given bytes at consecutive addresses from `a`. -/
def Memory.ofBytesFrom : Nat → List Byte → Memory
  | _, [] => []
  | a, x :: xs =>
    if x = 0#8 then Memory.ofBytesFrom (a + 1) xs else (a, x) :: Memory.ofBytesFrom (a + 1) xs

/-- Addresses at least `lo`, strictly rising, below `hi`, and no zero byte listed. -/
def Memory.wfFrom (hi : Nat) : Nat → Memory → Bool
  | _, [] => true
  | lo, (k, b) :: m => decide (lo ≤ k) && decide (k < hi) && b != 0#8 && Memory.wfFrom hi (k + 1) m

/-- The canonical form of a BUF of `len` bytes. -/
def Memory.wf (len : Nat) (m : Memory) : Bool := Memory.wfFrom len 0 m

/-! ### The block's reads of BUF -/

/-- `MemRead(a, 1)` (spec/20_memory.md R51). -/
def memRead (s : State) (a : Nat) : Byte := s.buf.read a

/-- BC_W: the number of bits in the BC window (spec/10_state.md R30). -/
def bcBits (s : State) : Nat := 8 * s.bc.len.toNat

/-- The BC window lies inside BUF (spec/10_state.md R29), so that every MemRead of it is defined
(spec/20_memory.md R51). -/
def bcWindowInBuf (s : State) : Bool := decide (s.bc.base.toNat + s.bc.len.toNat ≤ s.bufLen)

/-- The tile window lies inside BUF (spec/20_memory.md R51, R52). -/
def tileInBuf (s : State) : Bool := decide (s.ad.base.toNat + s.ad.size.toNat ≤ s.bufLen)

/-- Address `a` lies in the BC window while that is valid (spec/20_memory.md R63). -/
def inValidBcWindow (s : State) (a : Nat) : Bool :=
  s.status.bcValid && decide (s.bc.base.toNat ≤ a) && decide (a < s.bc.base.toNat + s.bc.len.toNat)

/-- Address `a` lies in the tile window while that is valid (spec/20_memory.md R63). -/
def inValidTile (s : State) (a : Nat) : Bool :=
  s.status.adValid && decide (s.ad.base.toNat ≤ a) && decide (a < s.ad.base.toNat + s.ad.size.toNat)

/-! ### Cursor updates -/

/-- BC_POS <- BC_POS + n. -/
def advanceCursor (n : Nat) (s : State) : State :=
  { s with bc := { s.bc with pos := BitVec.ofNat 64 (s.bc.pos.toNat + n) } }

/-- AD_BITPOS <- AD_BITPOS + n. -/
def advanceTile (n : Nat) (s : State) : State :=
  { s with ad := { s.ad with bitpos := s.ad.bitpos + n } }

/-- CdfReload() (spec/43_symbol_router.md R203). -/
def cdfReload (s : State) : State := { s with ram := s.rom.reload }

/-! ### The host register file -/

/-- The registers by offset (spec/10_state.md R21). -/
inductive Reg where
  | cmd
  | arg0
  | arg1
  | res0
  | res1
  | status
  | erroff
  deriving DecidableEq, Repr

/-- The register at an offset; none at the unmapped ones (spec/10_state.md R21, R27). -/
def Reg.at? (off : Nat) : Option Reg :=
  if off = 0x00 then some .cmd
  else if off = 0x08 then some .arg0
  else if off = 0x10 then some .arg1
  else if off = 0x18 then some .res0
  else if off = 0x20 then some .res1
  else if off = 0x28 then some .status
  else if off = 0x30 then some .erroff
  else none

/-- What a host read gives: CMD reads 0, every other register its value (spec/10_state.md R21, R22). -/
def readReg (s : State) : Reg → Word
  | .cmd => 0#64
  | .arg0 => s.arg0
  | .arg1 => s.arg1
  | .res0 => s.res0
  | .res1 => s.res1
  | .status => s.status.word
  | .erroff => s.erroff

end Sys2Proof.Machine
end

