-- ==== Sys2Proof/Machine/Operands.lean ====
section
/-! DEFINITION. Operands: window checks, bit fields of both windows, and the extension of results to 64 bits. -/

namespace Sys2Proof.Machine

/-! ### ARG operands -/

/-- The offset a failing WindowCheck records: `min(base + len, 2^64 - 1)` (spec/20_memory.md R53). -/
def windowEnd (base len : Word) : Word :=
  BitVec.ofNat 64 (min (base.toNat + len.toNat) (2 ^ 64 - 1))

/-- WindowCheck(base, len) passes: the unbounded sum is at most BUF_LEN (spec/20_memory.md R53). -/
def windowFits (s : State) (base len : Word) : Bool :=
  decide (base.toNat + len.toNat ≤ s.bufLen)

/-! ### Assembling bits -/

/-- `n` bits from position `p`, the first one the most significant: the sum over i of bit (p + i) << (n - 1 - i)
(spec/40_bit_cursor.md R102). -/
def assembleMsb (bit : Nat → Bool) (p : Nat) : Nat → Nat
  | 0 => 0
  | n + 1 => 2 * assembleMsb bit p n + (bit (p + n)).toNat

/-- `n` bits from position `p`, the first one the least significant: the sum over i of bit (p + i) << i
(spec/40_bit_cursor.md R103). -/
def assembleLsb (bit : Nat → Bool) (p : Nat) : Nat → Nat
  | 0 => 0
  | n + 1 => assembleLsb bit p n + (bit (p + n)).toNat * 2 ^ n

/-- The bit that position `p` names in its byte, under an order (spec/20_memory.md R55). -/
def bitOfByte (b : Byte) (p : Nat) : Order → Bool
  | .msb => b.getLsbD (7 - p % 8)
  | .lsb => b.getLsbD (p % 8)

/-- `BitAt(p, o)`: one bit of the BC window (spec/40_bit_cursor.md R101). -/
def bitAt (s : State) (o : Order) (p : Nat) : Bool :=
  bitOfByte (memRead s (s.bc.base.toNat + p / 8)) p o

/-- `Gather(p, n, o)` (spec/40_bit_cursor.md R102, R103). -/
def gather (s : State) (p n : Nat) : Order → Nat
  | .msb => assembleMsb (bitAt s .msb) p n
  | .lsb => assembleLsb (bitAt s .lsb) p n

/-- `TileBit(q)`: MSB-first inside the tile, 0 at and past its end (spec/42_arith_decoder.md R166). -/
def tileBit (s : State) (q : Nat) : Bool :=
  if q < 8 * s.ad.size.toNat then bitOfByte (memRead s (s.ad.base.toNat + q / 8)) q .msb else false

/-- The value `Fetch(n)` returns: the next `n` tile bits, the first most significant. Fetch also adds `n` to
AD_BITPOS, which `advanceTile n` does (spec/42_arith_decoder.md R166). -/
def fetchValue (s : State) (n : Nat) : Nat := assembleMsb (tileBit s) s.ad.bitpos n

/-! ### Results -/

/-- An unsigned result, zero-extended into RES0 (spec/00_scope.md R17). -/
def zext64 (v : Nat) : Word := BitVec.ofNat 64 v

/-- A signed result, sign-extended into RES0 (spec/00_scope.md R17). -/
def sext64 (v : Int) : Word := BitVec.ofInt 64 v

/-- The signed value of a magnitude and a sign symbol: 1 means negative (spec/43_symbol_router.md R216, R218). -/
def signed (neg : Nat) (magnitude : Nat) : Int := if neg = 1 then -(magnitude : Int) else (magnitude : Int)

end Sys2Proof.Machine
end

