-- ==== Sys2Proof/Machine/Coder.lean ====
section
/-! DEFINITION. The internal procedures of the Arithmetic Decoder: DecodeSymbol, Renormalise, DecodeFixedBool, Adapt (spec/42_arith_decoder.md §3 to §5). -/

namespace Sys2Proof.Machine

/-- `cur` for symbol `s` of an `n`-symbol table, from R and the entry `cdf[s]` (spec/42_arith_decoder.md R167). -/
def bucketBound (r n s : Nat) (entry : Half) : Nat :=
  (((r >>> 8) * ((2 ^ 15 - entry.toNat) >>> Config.ecProbShift)) >>> (7 - Config.ecProbShift))
    + Config.ecMinProb * (n - s - 1)

/-- What the selection loop of DecodeSymbol ends with: the symbol and the two bounds of its bucket. -/
structure Bucket where
  sym  : Nat
  prev : Nat
  cur  : Nat
  deriving DecidableEq, Repr

/-- The loop of DecodeSymbol: from symbol `s` with the bound `prev` before it, over the entries `cdf[s..]`, to the
first bound that V reaches (spec/42_arith_decoder.md R167). The last bound of a table is 0, so the loop ends
inside the table (R171); a list with no entry left ends it too (log 18). -/
def findBucket (r v n : Nat) : Nat → Nat → List Half → Bucket
  | s, prev, [] => ⟨s, prev, 0⟩
  | s, prev, e :: es =>
    if bucketBound r n s e ≤ v then ⟨s, prev, bucketBound r n s e⟩
    else findBucket r v n (s + 1) (bucketBound r n s e) es

/-- The bucket of the symbol that V selects from a table's entries. -/
def selectBucket (s : State) (cdf : List Half) : Bucket :=
  findBucket s.ad.range.toNat s.ad.value.toNat cdf.length 0 s.ad.range.toNat cdf

/-- The shift count of Renormalise: `15 - FloorLog2(R)` (spec/42_arith_decoder.md R168). -/
def renormShift (r : Nat) : Nat := 15 - Nat.log2 r

/-- Renormalise(), from the narrowed R and V (spec/42_arith_decoder.md R168). -/
def renormalise (r v : Nat) (s : State) : State :=
  advanceTile (renormShift r)
    { s with
      ad := { s.ad with
        range := BitVec.ofNat 16 (r <<< renormShift r)
        value := BitVec.ofNat 16 ((((v + 1) <<< renormShift r) - 1) ^^^ fetchValue s (renormShift r)) } }

/-- The result of a decoding step: a symbol, and the state after it. -/
structure Decoding where
  sym   : Nat
  state : State
  deriving DecidableEq, Repr

/-- DecodeSymbol on a table's entries (spec/42_arith_decoder.md R167). -/
def decodeSymbol (cdf : List Half) (s : State) : Decoding :=
  let b := selectBucket s cdf
  ⟨b.sym, renormalise (b.prev - b.cur) (s.ad.value.toNat - b.cur) s⟩

/-- DecodeFixedBool(): a decode from the constant table, not adapted (spec/42_arith_decoder.md R170). -/
def decodeFixedBool (s : State) : Decoding := decodeSymbol Config.fixedBool s

/-- The rate of Adapt for an `n`-symbol table with counter `cnt` (spec/42_arith_decoder.md R172). -/
def adaptRate (n cnt : Nat) : Nat :=
  3 + (if cnt > 15 then 1 else 0) + (if cnt > 31 then 1 else 0) + min (Nat.log2 n) 2

/-- One entry moved by Adapt: down below the decoded symbol, up from it on (spec/42_arith_decoder.md R172). -/
def adaptEntry (rate sym i : Nat) (e : Half) : Half :=
  if i < sym then BitVec.ofNat 16 (e.toNat - (e.toNat >>> rate))
  else BitVec.ofNat 16 (e.toNat + ((2 ^ 15 - e.toNat) >>> rate))

/-- All entries from index `i` on moved by Adapt; the last one of the table stays (spec/42_arith_decoder.md R172). -/
def adaptEntries (rate sym : Nat) : Nat → List Half → List Half
  | _, [] => []
  | _, [e] => [e]
  | i, e :: f :: es => adaptEntry rate sym i e :: adaptEntries rate sym (i + 1) (f :: es)

/-- Adapt(t, s) on one table (spec/42_arith_decoder.md R172). -/
def Table.adapt (t : Table) (sym : Nat) : Table where
  cdf := adaptEntries (adaptRate t.cdf.length t.cnt.toNat) sym 0 t.cdf
  cnt := if t.cnt.toNat < 32 then t.cnt + 1#6 else t.cnt

/-- Adapt(t, s) on the CDF RAM. -/
def adaptTable (t : TableId) (sym : Nat) (s : State) : State :=
  { s with ram := s.ram.set t ((s.ram.get t).adapt sym) }

/-- DecodeAdaptive(t) (spec/43_symbol_router.md R206). -/
def decodeAdaptive (t : TableId) (s : State) : Decoding :=
  let d := decodeSymbol (s.ram.get t).cdf s
  ⟨d.sym, adaptTable t d.sym d.state⟩

end Sys2Proof.Machine
end

