-- ==== Sys2Proof/Machine/ArithDecoder.lean ====
section
/-! DEFINITION. The meanings of AD.INIT and AD.POS (spec/42_arith_decoder.md §2). -/

namespace Sys2Proof.Machine

/-- The decoder placed at the start of a tile, before its first bits are fetched. -/
def placeTile (base size : Word) (s : State) : State :=
  { s with ad := { s.ad with base := base, size := size, bitpos := 0 } }

/-- The first fetch: `V <- (2^15 - 1) ^ Fetch(15)`, `R <- 2^15`, AD_VALID <- 1 (spec/42_arith_decoder.md R162). -/
def startDecoder (s : State) : State :=
  advanceTile 15
    { s with
      ad := { s.ad with
        value := BitVec.ofNat 16 ((2 ^ 15 - 1) ^^^ fetchValue s 15)
        range := BitVec.ofNat 16 (2 ^ 15) }
      status := { s.status with adValid := true } }

/-- The CDF RAM at AD.INIT: reloaded with K = 0, kept with K = 1 (spec/30_encoding.md R76). -/
def carryOver : CarryOver → State → State
  | .reload, s => cdfReload s
  | .keep, s => s

/-- AD.INIT (spec/42_arith_decoder.md R162). -/
def execAdInit (k : CarryOver) (s : State) : Host.Outcome State Fault Refusal :=
  if windowFits s s.arg0 s.arg1 then
    .next (succeed (carryOver k (startDecoder (placeTile s.arg0 s.arg1 s))))
  else .next (raise .unexpectedEof (windowEnd s.arg0 s.arg1) .byte s)

/-- AD.POS (spec/42_arith_decoder.md R163). -/
def execAdPos (s : State) : Host.Outcome State Fault Refusal :=
  if s.status.adValid = false then .next (raise .notInitialised 0#64 .bit s)
  else .next (succeedWith (zext64 s.ad.bitpos) s)

end Sys2Proof.Machine
end

