-- ==== Sys2Proof/Machine/BitCursor.lean ====
section
/-! DEFINITION. The meanings of the Bit Cursor commands (spec/40_bit_cursor.md). -/

namespace Sys2Proof.Machine

/-- BcReadCheck(n, L): the state the command fails with, if it fails (spec/40_bit_cursor.md R104). The third
comparison is `n > BC_W - BC_POS` over the integers. -/
def bcReadCheck (n limit : Nat) (s : State) : Option State :=
  if s.status.bcValid = false then some (raise .notInitialised 0#64 .bit s)
  else if n > limit then some (raise .parse s.bc.pos .bit s)
  else if s.bc.pos.toNat + n > bcBits s then some (raise .unexpectedEof s.bc.pos .bit s)
  else none

/-- A read of `n` bits, of which `consumed` leave the window: check, Gather, move, RES0
(spec/40_bit_cursor.md R104 to R108, R111). -/
def bcRead (o : Order) (n limit consumed : Nat) (s : State) : Host.Outcome State Fault Refusal :=
  match bcReadCheck n limit s with
  | some failed => .next failed
  | none =>
    if bcWindowInBuf s then
      .next (succeedWith (zext64 (gather s s.bc.pos.toNat n o)) (advanceCursor consumed s))
    else .fault .bcWindowOutsideBuf

/-- BC.INIT (spec/40_bit_cursor.md R100). -/
def execBcInit (s : State) : Host.Outcome State Fault Refusal :=
  if windowFits s s.arg0 s.arg1 then
    .next (succeed { s with
      bc := { base := s.arg0, len := s.arg1, pos := 0#64 }
      status := { s.status with bcValid := true } })
  else .next (raise .unexpectedEof (windowEnd s.arg0 s.arg1) .byte s)

/-- BC.RDBIT (spec/40_bit_cursor.md R105). -/
def execBcRdbit (o : Order) (s : State) : Host.Outcome State Fault Refusal := bcRead o 1 1 1 s

/-- BC.RDBITS (spec/40_bit_cursor.md R106). -/
def execBcRdbits (o : Order) (n : Nat) (s : State) : Host.Outcome State Fault Refusal := bcRead o n 32 n s

/-- BC.RDBITS64 (spec/40_bit_cursor.md R107). -/
def execBcRdbits64 (o : Order) (n : Nat) (s : State) : Host.Outcome State Fault Refusal := bcRead o n 64 n s

/-- BC.RDBYTE (spec/40_bit_cursor.md R108). -/
def execBcRdbyte (o : Order) (s : State) : Host.Outcome State Fault Refusal := bcRead o 8 8 8 s

/-- BC.PEEK: as BC.RDBITS, with nothing consumed (spec/40_bit_cursor.md R111). -/
def execBcPeek (o : Order) (n : Nat) (s : State) : Host.Outcome State Fault Refusal := bcRead o n 32 0 s

/-- BC.SKIP (spec/40_bit_cursor.md R109). -/
def execBcSkip (s : State) : Host.Outcome State Fault Refusal :=
  if s.status.bcValid = false then .next (raise .notInitialised 0#64 .bit s)
  else if s.bc.pos.toNat + s.arg0.toNat > bcBits s then .next (raise .unexpectedEof s.bc.pos .bit s)
  else .next (succeed (advanceCursor s.arg0.toNat s))

/-- BC.ALIGN: BC_POS up to the next multiple of 8 (spec/40_bit_cursor.md R110). -/
def execBcAlign (s : State) : Host.Outcome State Fault Refusal :=
  if s.status.bcValid = false then .next (raise .notInitialised 0#64 .bit s)
  else .next (succeed { s with bc := { s.bc with pos := (s.bc.pos + 7#64) &&& ~~~7#64 } })

/-- BC.POS (spec/40_bit_cursor.md R112). -/
def execBcPos (s : State) : Host.Outcome State Fault Refusal :=
  if s.status.bcValid = false then .next (raise .notInitialised 0#64 .bit s)
  else .next (succeedWith s.bc.pos s)

/-- BC.REM: RES0 <- BC_W - BC_POS (spec/40_bit_cursor.md R113). -/
def execBcRem (s : State) : Host.Outcome State Fault Refusal :=
  if s.status.bcValid = false then .next (raise .notInitialised 0#64 .bit s)
  else .next (succeedWith (sext64 ((bcBits s : Int) - s.bc.pos.toNat)) s)

end Sys2Proof.Machine
end

