-- ==== Sys2Proof/Machine/SymbolRouter.lean ====
section
/-! DEFINITION. The meanings of the Symbol Router commands (spec/43_symbol_router.md). -/

namespace Sys2Proof.Machine

/-- The result of a typed read: the value for RES0, and the state after its decoding steps. -/
structure Reading where
  value : Word
  state : State
  deriving DecidableEq, Repr

/-- The decoding part of a typed read, its result in RES0 (spec/43_symbol_router.md R205). Its tile bits are defined
while the tile window lies inside BUF (spec/20_memory.md R51; log 10). -/
def decodeInto (read : State → Reading) (s : State) : Host.Outcome State Fault Refusal :=
  if tileInBuf s then .next (succeedWith (read s).value (read s).state)
  else .fault .tileWindowOutsideBuf

/-- A typed read without operand fields: the AD_VALID check, then the decoding (spec/43_symbol_router.md R205). -/
def typedRead (read : State → Reading) (s : State) : Host.Outcome State Fault Refusal :=
  if s.status.adValid = false then .next (raise .notInitialised 0#64 .bit s) else decodeInto read s

/-- One adaptive symbol as an unsigned result (spec/43_symbol_router.md R206, spec/00_scope.md R17). -/
def readSymbol (t : TableId) (s : State) : Reading :=
  let d := decodeAdaptive t s
  ⟨zext64 d.sym, d.state⟩

/-- SR.CTXRST (spec/43_symbol_router.md R203). -/
def execSrCtxrst (s : State) : Host.Outcome State Fault Refusal := .next (succeed (cdfReload s))

/-- The partition table of a legal BSL, 3 to 7 (spec/43_symbol_router.md R208). -/
def partTable (bsl : Nat) : TableId :=
  if bsl = 3 then .part8
  else if bsl = 4 then .part16
  else if bsl = 5 then .part32
  else if bsl = 6 then .part64
  else .part128

/-- DecodeEdge for one edge: SPLIT (3) on 1, else the edge's own partition, HORZ (1) or VERT (2)
(spec/43_symbol_router.md R211). -/
def readEdge (t : TableId) (c : Sys2Proof.EdgeCase) (s : State) : Reading :=
  let d := decodeSymbol (Config.edgeCdf t c) s
  ⟨zext64 (if d.sym = 1 then 3 else match c with | .horz => 1 | .vert => 2), d.state⟩

/-- SR.PART (spec/43_symbol_router.md R209, R210, R211). -/
def execSrPart (bsl : Nat) (hr hc : Bool) (s : State) : Host.Outcome State Fault Refusal :=
  if s.status.adValid = false then .next (raise .notInitialised 0#64 .bit s)
  else if bsl < 3 then .next (raise .parse (zext64 s.ad.bitpos) .bit s)
  else match hr, hc with
    | true, true => decodeInto (readSymbol (partTable bsl)) s
    | false, true => decodeInto (readEdge (partTable bsl) .horz) s
    | true, false => decodeInto (readEdge (partTable bsl) .vert) s
    | false, false => .next (succeedWith (zext64 3) s)

/-- SR.SKIP (spec/43_symbol_router.md R212). -/
def execSrSkip (s : State) : Host.Outcome State Fault Refusal := typedRead (readSymbol .skip) s

/-- SR.INTRA (spec/43_symbol_router.md R213). -/
def execSrIntra (s : State) : Host.Outcome State Fault Refusal := typedRead (readSymbol .intra) s

/-- SR.INTER (spec/43_symbol_router.md R214). -/
def execSrInter (s : State) : Host.Outcome State Fault Refusal := typedRead (readSymbol .inter) s

/-- `k` magnitude bits, the first most significant, after `extra` (spec/43_symbol_router.md R216). -/
def readMvBits : Nat → Nat → State → Decoding
  | 0, extra, s => ⟨extra, s⟩
  | k + 1, extra, s =>
    let d := decodeAdaptive .mvBits s
    readMvBits k (2 * extra + d.sym) d.state

/-- The magnitude: 0 for class 0, else `2^(c-1) + extra` with `c - 1` extra bits
(spec/43_symbol_router.md R215, R216). -/
def readMvMagnitude (s : State) : Decoding :=
  let c := decodeAdaptive .mvClass s
  if c.sym = 0 then ⟨0, c.state⟩
  else
    let x := readMvBits (c.sym - 1) 0 c.state
    ⟨2 ^ (c.sym - 1) + x.sym, x.state⟩

/-- The sign symbol of a magnitude, read from `t` only when the magnitude is above 0; 0 otherwise
(spec/43_symbol_router.md R216, R218). -/
def readSign (t : TableId) (mag : Nat) (s : State) : Decoding :=
  if mag = 0 then ⟨0, s⟩ else decodeAdaptive t s

/-- The steps of SR.MV: magnitude, sign, half-pel, quarter-pel (spec/43_symbol_router.md R216). -/
def readMv (s : State) : Reading :=
  let mag := readMvMagnitude s
  let neg := readSign .mvSign mag.sym mag.state
  let hp := decodeFixedBool neg.state
  let qp := decodeFixedBool hp.state
  ⟨sext64 (signed neg.sym (mag.sym * 4 + (hp.sym * 2 + qp.sym))), qp.state⟩

/-- SR.MV (spec/43_symbol_router.md R216). -/
def execSrMv (s : State) : Host.Outcome State Fault Refusal := typedRead readMv s

/-- The absolute value of SR.DQ: the base, or past the escape `min(4 + diff, 63)` (spec/43_symbol_router.md R218). -/
def readDqAbs (s : State) : Decoding :=
  let b := decodeAdaptive .dqBase s
  if 4 ≤ b.sym then
    let d := decodeAdaptive .dqDiff b.state
    ⟨min (4 + d.sym) 63, d.state⟩
  else b

/-- The steps of SR.DQ: absolute value, then the sign unless it is 0 (spec/43_symbol_router.md R218). -/
def readDq (s : State) : Reading :=
  let a := readDqAbs s
  let sgn := readSign .dqSign a.sym a.state
  ⟨sext64 (signed sgn.sym a.sym), sgn.state⟩

/-- SR.DQ (spec/43_symbol_router.md R218). -/
def execSrDq (s : State) : Host.Outcome State Fault Refusal := typedRead readDq s

end Sys2Proof.Machine
end

