-- ==== Sys2Proof/Machine/Varint.lean ====
section
/-! DEFINITION. The meaning of VI.DEC and the reference LEB128 encoder (spec/41_varint.md). -/

namespace Sys2Proof.Machine

/-- How the byte loop of VI.DEC ends (spec/41_varint.md R142). -/
inductive LebEnd where
  /-- A terminating byte: the value, the number of bytes, and the position after them. -/
  | done (value count pos : Nat)
  /-- The window ends before the byte at this position. -/
  | eof (pos : Nat)
  /-- LEB128_MAX_BYTES bytes, none terminating. -/
  | tooLong
  deriving DecidableEq, Repr

/-- The byte loop of VI.DEC with `fuel` bytes still allowed: byte number `i` at position `p`, `value` so far. A byte
below 0x80 has a clear continuation bit; the new 7-bit group lies above every earlier one, so that adding it is
the `|` of spec/41_varint.md R142. -/
def lebLoop (s : State) : Nat → Nat → Nat → Nat → LebEnd
  | 0, _, _, _ => .tooLong
  | fuel + 1, i, p, value =>
    if p + 8 > bcBits s then .eof p
    else if gather s p 8 .msb < 0x80 then
      .done (value + gather s p 8 .msb % 0x80 * 2 ^ (7 * i)) (i + 1) (p + 8)
    else lebLoop s fuel (i + 1) (p + 8) (value + gather s p 8 .msb % 0x80 * 2 ^ (7 * i))

/-- VI.DEC (spec/41_varint.md R142). -/
def execViDec (s : State) : Host.Outcome State Fault Refusal :=
  if s.status.bcValid = false then .next (raise .notInitialised 0#64 .bit s)
  else if bcWindowInBuf s then
    match lebLoop s Config.leb128MaxBytes 0 s.bc.pos.toNat 0 with
    | .done value count pos =>
      .next (succeedWith (zext64 value)
        { s with bc := { s.bc with pos := BitVec.ofNat 64 pos }, res1 := zext64 count })
    | .eof pos => .next (raise .unexpectedEof (zext64 pos) .bit s)
    | .tooLong => .next (raise .decode s.bc.pos .bit s)
  else .fault .bcWindowOutsideBuf

/-- `encode_uleb128(v)` in at most `fuel` bytes: the minimal encoding (spec/41_varint.md R144). No command. -/
def encodeUleb128 : Nat → Nat → List Byte
  | 0, _ => []
  | fuel + 1, v =>
    if v < 2 ^ 7 then [BitVec.ofNat 8 v]
    else BitVec.ofNat 8 (v % 2 ^ 7 + 0x80) :: encodeUleb128 fuel (v >>> 7)

/-- `leb128_size(v)`, counted up to `fuel` (spec/41_varint.md R144). -/
def leb128Size : Nat → Nat → Nat
  | 0, _ => 0
  | fuel + 1, v => if v < 2 ^ 7 then 1 else 1 + leb128Size fuel (v >>> 7)

end Sys2Proof.Machine
end

