-- ==== Sys2Proof/Machine/Dispatch.lean ====
section
/-! DEFINITION. One arm per command: a direct call of its meaning. -/

namespace Sys2Proof.Machine

def exec (i : Instr) (s : State) : Host.Outcome State Fault Refusal :=
  match i with
  | .bcInit => Sys2Proof.Machine.execBcInit s
  | .bcRdbit o => Sys2Proof.Machine.execBcRdbit o s
  | .bcRdbits o n => Sys2Proof.Machine.execBcRdbits o n s
  | .bcRdbits64 o n => Sys2Proof.Machine.execBcRdbits64 o n s
  | .bcRdbyte o => Sys2Proof.Machine.execBcRdbyte o s
  | .bcSkip => Sys2Proof.Machine.execBcSkip s
  | .bcAlign => Sys2Proof.Machine.execBcAlign s
  | .bcPeek o n => Sys2Proof.Machine.execBcPeek o n s
  | .bcPos => Sys2Proof.Machine.execBcPos s
  | .bcRem => Sys2Proof.Machine.execBcRem s
  | .viDec => Sys2Proof.Machine.execViDec s
  | .adInit k => Sys2Proof.Machine.execAdInit k s
  | .adPos => Sys2Proof.Machine.execAdPos s
  | .srCtxrst => Sys2Proof.Machine.execSrCtxrst s
  | .srPart bsl hr hc => Sys2Proof.Machine.execSrPart bsl hr hc s
  | .srSkip => Sys2Proof.Machine.execSrSkip s
  | .srIntra => Sys2Proof.Machine.execSrIntra s
  | .srInter => Sys2Proof.Machine.execSrInter s
  | .srMv => Sys2Proof.Machine.execSrMv s
  | .srDq => Sys2Proof.Machine.execSrDq s

end Sys2Proof.Machine
end

