-- ==== Sys2Proof/Machine/HostIf.lean ====
section
/-! DEFINITION. What each host interaction does to the instance (spec/70_reset_and_hazards.md R286). -/

namespace Sys2Proof.Machine

/-- A write of `w` to CMD: the command it spells is executed; a value that spells none fails with ILLEGAL_COMMAND
at offset 0 in bits (spec/10_state.md R22, spec/30_encoding.md R72, R79). -/
def writeCmd (w : Word) (s : State) : Host.Outcome State Fault Refusal :=
  match decode w with
  | .instr i => exec i s
  | .illegal _ => .next (raise .illegalCommand 0#64 .bit s)

/-- A write to a register: CMD executes, ARG0 and ARG1 store, the others ignore it (spec/20_memory.md R59). -/
def writeReg (r : Reg) (v : Word) (s : State) : Host.Outcome State Fault Refusal :=
  match r with
  | .cmd => writeCmd v s
  | .arg0 => .next { s with arg0 := v }
  | .arg1 => .next { s with arg1 := v }
  | .res0 => .next s
  | .res1 => .next s
  | .status => .next s
  | .erroff => .next s

/-- A register access by host `h`, in a form that is permitted (spec/20_memory.md R58), at a mapped offset
(spec/10_state.md R27), by the one host that drives the instance (spec/60_exceptions.md R269; log 13, log 17). -/
def regAccess (h bytes off : Nat) (act : Reg → State → Host.Outcome State Fault Refusal) (s : State) :
    Host.Outcome State Fault Refusal :=
  if bytes ≠ 8 ∨ off % 8 ≠ 0 then .refused (.badAccessForm bytes off)
  else
    match Reg.at? off with
    | none => .refused (.unmappedOffset off)
    | some r =>
      if s.driver = none ∨ s.driver = some h then act r { s with driver := some h }
      else .refused .twoHosts

/-- BUF is loaded and BUF_LEN fixed (spec/70_reset_and_hazards.md R285 step 1): before any window is valid, and within the
bound of spec/00_scope.md R7. That any other load is refused is the model's choice (log 5). -/
def loadBuf (content : List Byte) (s : State) : Host.Outcome State Fault Refusal :=
  if s.status.bcValid ∨ s.status.adValid then .refused .bufLoadedUnderWindow
  else if content.length < Config.bufLenLimit then
    .next { s with buf := Memory.ofBytesFrom 0 content, bufLen := content.length }
  else .refused .bufTooLong

/-- A byte of BUF is written: only outside every valid window (spec/20_memory.md R63; log 6). At or above BUF_LEN there is
no byte (R50) and the spec gives no effect: that such a write is refused is the model's choice (log 21). -/
def writeBuf (a : Nat) (x : Byte) (s : State) : Host.Outcome State Fault Refusal :=
  if s.bufLen ≤ a then .refused (.bufAddressOutside a)
  else if inValidBcWindow s a ∨ inValidTile s a then .refused (.bufWindowWritten a)
  else .next { s with buf := s.buf.write a x }

/-- One interaction (spec/70_reset_and_hazards.md R286). Reset leaves BUF and the ROM, and the host's later
interactions are still to come (R280). -/
def perform (e : HostEvent) (s : State) : Host.Outcome State Fault Refusal :=
  match e with
  | .writeReg h bytes off v => regAccess h bytes off (fun r t => writeReg r v t) s
  | .readReg h bytes off => regAccess h bytes off (fun r t => .next { t with readData := readReg t r }) s
  | .loadBuf content => loadBuf content s
  | .writeBuf a x => writeBuf a x s
  | .reset => .next { State.resetOf s.rom s.buf s.bufLen with host := s.host }
  | .bufReadFails => .refused .platformReadFault

end Sys2Proof.Machine
end

