-- ==== Sys2Proof/Machine/Step.lean ====
section
/-! DEFINITION. One step: the next host interaction; and the placing of a command as that interaction. -/

namespace Sys2Proof.Machine

/-- One step performs the next host interaction, whole (spec/60_exceptions.md R250). With none waiting the block
is idle: it makes no step of its own (spec/10_state.md R20; log 2). -/
def step (s : State) : Host.Outcome State Fault Refusal :=
  match s.host with
  | [] => .next s
  | e :: rest => perform e { s with host := rest }

/-- The state whose very next interaction is the write of the command word `w` to CMD, by the host that drives the
instance (log 3). -/
def State.withFetchWord (s : State) (nbits w : Nat) : State :=
  { s with host := .writeReg (s.driver.getD 0) 8 0x00 (BitVec.ofNat 64 (w % 2 ^ nbits)) :: s.host }

end Sys2Proof.Machine
end

