-- ==== Sys2Proof/Machine/Assembler.lean ====
section
/-! DEFINITION. Assembler lines and pseudo-instructions as host interactions (spec/30_encoding.md R83, R84). -/

namespace Sys2Proof.Machine

/-- The offset of a register (spec/10_state.md R21). -/
def Reg.offset : Reg → Nat
  | .cmd => 0x00
  | .arg0 => 0x08
  | .arg1 => 0x10
  | .res0 => 0x18
  | .res1 => 0x20
  | .status => 0x28
  | .erroff => 0x30

/-- One line of a program (spec/30_encoding.md R83). -/
inductive AsmLine where
  /-- `wr arg0, value` or `wr arg1, value`. -/
  | wr (r : Reg) (value : Word)
  /-- `rd name, register`. -/
  | rd (r : Reg)
  /-- A command line: one CMD write of its encoding. -/
  | cmd (i : Instr)
  deriving DecidableEq, Repr

/-- The host interaction a line stands for, made by host `h` (spec/30_encoding.md R83). -/
def AsmLine.event (h : Nat) : AsmLine → HostEvent
  | .wr r v => .writeReg h 8 r.offset v
  | .rd r => .readReg h 8 r.offset
  | .cmd i => .writeReg h 8 Reg.cmd.offset (encodeCmd i)

/-- The pseudo-instructions (spec/30_encoding.md R84). -/
inductive Pseudo where
  | bcWindow (base len : Word)
  | adTile (base size : Word)
  | adTileKeep (base size : Word)
  | bcSkipi (n : Word)
  | bcRdbits (n : Nat)
  | bcRdbit
  deriving DecidableEq, Repr

/-- Their expansions (spec/30_encoding.md R84). -/
def Pseudo.expand : Pseudo → List AsmLine
  | .bcWindow base len => [.wr .arg0 base, .wr .arg1 len, .cmd .bcInit]
  | .adTile base size => [.wr .arg0 base, .wr .arg1 size, .cmd (.adInit .reload)]
  | .adTileKeep base size => [.wr .arg0 base, .wr .arg1 size, .cmd (.adInit .keep)]
  | .bcSkipi n => [.wr .arg0 n, .cmd .bcSkip]
  | .bcRdbits n => [.cmd (.bcRdbits .msb n)]
  | .bcRdbit => [.cmd (.bcRdbit .msb)]

/-- The host interactions of a program. -/
def asmEvents (h : Nat) (lines : List AsmLine) : List HostEvent := lines.map (AsmLine.event h)

/-- The order suffix (spec/30_encoding.md R83). -/
def Order.suffix : Order → String
  | .msb => ".msb"
  | .lsb => ".lsb"

/-- A command as the assembler writes it (spec/30_encoding.md R83). -/
def Instr.asm : Instr → String
  | .bcInit => "bc.init"
  | .bcRdbit o => "bc.rdbit" ++ Order.suffix o
  | .bcRdbits o n => "bc.rdbits" ++ Order.suffix o ++ " " ++ toString n
  | .bcRdbits64 o n => "bc.rdbits64" ++ Order.suffix o ++ " " ++ toString n
  | .bcRdbyte o => "bc.rdbyte" ++ Order.suffix o
  | .bcSkip => "bc.skip"
  | .bcAlign => "bc.align"
  | .bcPeek o n => "bc.peek" ++ Order.suffix o ++ " " ++ toString n
  | .bcPos => "bc.pos"
  | .bcRem => "bc.rem"
  | .viDec => "vi.dec"
  | .adInit .reload => "ad.init"
  | .adInit .keep => "ad.init.keep"
  | .adPos => "ad.pos"
  | .srCtxrst => "sr.ctxrst"
  | .srPart bsl hr hc =>
    "sr.part " ++ toString bsl ++ ", " ++ toString hr.toNat ++ ", " ++ toString hc.toNat
  | .srSkip => "sr.skip"
  | .srIntra => "sr.intra"
  | .srInter => "sr.inter"
  | .srMv => "sr.mv"
  | .srDq => "sr.dq"

end Sys2Proof.Machine
end

