-- ==== Sys2Proof/Safety.lean ====
section
/-! DEFINITION. What holds of every state a run reaches: the invariants the spec states, in the terms claims use. -/

namespace Sys2Proof.Machine

/-- The invariants of the state between commands. -/
structure State.Inv (s : State) : Prop where
  /-- spec/00_scope.md R7. -/
  bufLen_lt : s.bufLen < Config.bufLenLimit
  /-- BUF is in its canonical form, every listed address below BUF_LEN (log 4). -/
  buf_wf : s.buf.wf s.bufLen = true
  /-- spec/10_state.md R29. -/
  bc_window : s.status.bcValid = true → s.bc.base.toNat + s.bc.len.toNat ≤ s.bufLen
  /-- spec/10_state.md R29. -/
  bc_pos : s.status.bcValid = true → s.bc.pos.toNat ≤ bcBits s
  /-- spec/20_memory.md R51, R53. -/
  tile_window : s.status.adValid = true → s.ad.base.toNat + s.ad.size.toNat ≤ s.bufLen
  /-- spec/10_state.md R32. -/
  range_ge : s.status.adValid = true → 2 ^ 15 ≤ s.ad.range.toNat
  /-- spec/10_state.md R32. -/
  value_lt : s.status.adValid = true → s.ad.value.toNat < s.ad.range.toNat
  /-- spec/10_state.md R36. -/
  ram_wf : s.ram.wf = true
  /-- spec/43_symbol_router.md R202. -/
  rom_wf : s.rom.wfDefault = true

/-- SymbolMaxBits of the AV1 formulation: the tile bits not yet fetched, below zero once the decoder has run past
the tile end (spec/42_arith_decoder.md R176). -/
def State.symbolMaxBits (s : State) : Int := 8 * (s.ad.size.toNat : Int) - s.ad.bitpos

/-- The decoder has run past the tile end, as a host detects it from AD.POS (spec/42_arith_decoder.md R163). -/
def State.overran (s : State) : Bool := decide (8 * s.ad.size.toNat < s.ad.bitpos)

/-! ### Words the statements use -/

/-- The state after `k` magnitude bits of SR.MV, each one adaptive symbol of MV_BITS (spec/43_symbol_router.md R216). -/
def mvBitsAfter : Nat → State → State
  | 0, s => s
  | k + 1, s => (decodeAdaptive .mvBits (mvBitsAfter k s)).state

/-- An outcome with its next state changed by `f`; a stop stays as it is. -/
def mapNext (f : State → State) : Host.Outcome State Fault Refusal → Host.Outcome State Fault Refusal
  | .next t => .next (f t)
  | .fault r => .fault r
  | .refused r => .refused r

end Sys2Proof.Machine

namespace Sys2Proof

open Sys2Proof.Machine

/-- The commands of the Bit Cursor and of the Varint decoder (spec/30_encoding.md R78: OPC 0x1x and 0x2x). -/
def Instr.ofCursor : Instr → Bool
  | .bcInit => true
  | .bcRdbit _ => true
  | .bcRdbits _ _ => true
  | .bcRdbits64 _ _ => true
  | .bcRdbyte _ => true
  | .bcSkip => true
  | .bcAlign => true
  | .bcPeek _ _ => true
  | .bcPos => true
  | .bcRem => true
  | .viDec => true
  | .adInit _ => false
  | .adPos => false
  | .srCtxrst => false
  | .srPart _ _ _ => false
  | .srSkip => false
  | .srIntra => false
  | .srInter => false
  | .srMv => false
  | .srDq => false

/-- The commands that need BC_VALID (spec/40_bit_cursor.md R114). -/
def Instr.needsCursor (i : Instr) : Bool := i.ofCursor && i != .bcInit

/-- The typed reads (spec/43_symbol_router.md R205). -/
def Instr.typedRead : Instr → Bool
  | .srPart _ _ _ => true
  | .srSkip => true
  | .srIntra => true
  | .srInter => true
  | .srMv => true
  | .srDq => true
  | _ => false

/-- The commands that need AD_VALID (spec/42_arith_decoder.md R164). -/
def Instr.needsDecoder (i : Instr) : Bool := i == .adPos || i.typedRead

/-- The bit count a read or skip asks for, and its limit (spec/40_bit_cursor.md R104 to R109, R111). BC.SKIP has no
limit: every 64-bit count is below the one given here. -/
def Instr.bitsAsked (s : State) : Instr → Option (Nat × Nat)
  | .bcRdbit _ => some (1, 1)
  | .bcRdbits _ n => some (n, 32)
  | .bcRdbits64 _ n => some (n, 64)
  | .bcRdbyte _ => some (8, 8)
  | .bcPeek _ n => some (n, 32)
  | .bcSkip => some (s.arg0.toNat, 2 ^ 64)
  | _ => none

/-- The bits of the BC window that a successful command from `s` to `t` consumes (spec/40_bit_cursor.md R116). -/
def Instr.bitsConsumed (s t : State) : Instr → Nat
  | .bcRdbit _ => 1
  | .bcRdbits _ n => n
  | .bcRdbits64 _ n => n
  | .bcRdbyte _ => 8
  | .bcSkip => s.arg0.toNat
  | .bcAlign => (8 - s.bc.pos.toNat % 8) % 8
  | .viDec => 8 * t.res1.toNat
  | _ => 0

/-- The most DecodeSymbol steps a command takes (spec/70_reset_and_hazards.md R292). -/
def Instr.maxSymbols : Instr → Nat
  | .srPart _ _ _ => 1
  | .srSkip => 1
  | .srIntra => 1
  | .srInter => 1
  | .srMv => 14
  | .srDq => 3
  | _ => 0

/-- The tables a command may change (spec/43_symbol_router.md R200, R203, R204). -/
def Instr.tables : Instr → List TableId
  | .adInit .reload => TableId.all
  | .srCtxrst => TableId.all
  | .srPart bsl true true => [partTable bsl]
  | .srSkip => [.skip]
  | .srIntra => [.intra]
  | .srInter => [.inter]
  | .srMv => [.mvClass, .mvBits, .mvSign]
  | .srDq => [.dqBase, .dqDiff, .dqSign]
  | _ => []

end Sys2Proof
end

