-- ==== Sys2Proof/Certificates/Slice0/Obligations.lean ====
section
/-! DEFINITION. The statements for the provers. -/

namespace Sys2Proof.Machine

/-! ### Predicates used below -/

/-- The outcome of a successful read of `n` bits, `k` of them consumed, stated bit by bit against BUF: bit `j` of the
field is bit 7-(p mod 8) (MSB-first) or p mod 8 (LSB-first) of the byte at base + p/8, for p = BC_POS + j; it lands at
bit n-1-j (MSB-first) or j (LSB-first) of RES0, whose other bits are zero. Nothing else changes but BC_POS and ERR. -/
def ReadsBits (o : Order) (n k : Nat) (s : State) (out : Host.Outcome State Fault Refusal) : Prop :=
  ∃ t, out = .next t ∧
    (∀ j, j < n →
      t.res0.getLsbD (match o with | .msb => n - 1 - j | .lsb => j) =
        (memRead s (s.bc.base.toNat + (s.bc.pos.toNat + j) / 8)).getLsbD
          (match o with
            | .msb => 7 - (s.bc.pos.toNat + j) % 8
            | .lsb => (s.bc.pos.toNat + j) % 8)) ∧
    (∀ j, n ≤ j → t.res0.getLsbD j = false) ∧
    t.bc.pos.toNat = s.bc.pos.toNat + k ∧
    t = { s with
      res0 := t.res0
      bc := { s.bc with pos := t.bc.pos }
      status := { s.status with err := .ok } }

/-- BcReadCheck(n, L) fails in its three ways, in order of priority (spec/40_bit_cursor.md R104). -/
def FailsReadCheck (n limit : Nat) (s : State) (out : Host.Outcome State Fault Refusal) : Prop :=
  (s.status.bcValid = false →
    out = .next { s with
      status := { s.status with err := .notInitialised, sticky := true, errUnit := .bit }
      erroff := 0#64 }) ∧
  (s.status.bcValid = true → limit < n →
    out = .next { s with
      status := { s.status with err := .parse, sticky := true, errUnit := .bit }
      erroff := s.bc.pos }) ∧
  (s.status.bcValid = true → n ≤ limit → bcBits s < s.bc.pos.toNat + n →
    out = .next { s with
      status := { s.status with err := .unexpectedEof, sticky := true, errUnit := .bit }
      erroff := s.bc.pos })

/-- The number of an error code in STATUS.ERR (spec/10_state.md R25, spec/60_exceptions.md R251). -/
def errNumber : Err → Nat
  | .ok => 0
  | .unexpectedEof => 1
  | .parse => 2
  | .invalidData => 3
  | .decode => 4
  | .illegalCommand => 5
  | .notInitialised => 6

/-- A CMD value that spells no command, by the spec's own words: a bit of CMD[63:32] is set (spec/30_encoding.md R72), or
OPC is one of R79's reserved values, or OPC is listed and a bit is set that its format reserves (R79). -/
def IllegalWord (w : Word) : Prop :=
  2 ^ 32 ≤ w.toNat ∨
  (let opc := (w.toNat / 2 ^ 24) % 2 ^ 8
   opc ≤ 0x0F ∨ (0x1A ≤ opc ∧ opc ≤ 0x1F) ∨ (0x21 ≤ opc ∧ opc ≤ 0x2F) ∨
    (0x32 ≤ opc ∧ opc ≤ 0x3F) ∨ 0x47 ≤ opc) ∨
  ∃ r ∈ opcodeRows, r.pattern.toNat / 2 ^ 24 = (w.toNat / 2 ^ 24) % 2 ^ 8 ∧
    ∃ j, j < 24 ∧ r.mask.getLsbD j = true ∧ w.getLsbD j = true

/-- The byte that VI.DEC reads as its byte number `k` (spec/41_varint.md R142). -/
def lebByte (s : State) (k : Nat) : Nat := gather s (s.bc.pos.toNat + 8 * k) 8 .msb

/-- The rows of the error table (spec/60_exceptions.md R251) in their order of priority (R254): command `i` fails from
`s` with this code, offset and unit. -/
def ErrorRow (i : Instr) (s : State) (off : Word) (u : OffUnit) : Err → Prop
  | .ok => False
  | .unexpectedEof =>
    (u = .bit ∧ off = s.bc.pos ∧ s.status.bcValid = true ∧
      ∃ n limit, i.bitsAsked s = some (n, limit) ∧ n ≤ limit ∧ bcBits s < s.bc.pos.toNat + n) ∨
    (u = .bit ∧ i = .viDec ∧ s.status.bcValid = true ∧
      ∃ k, k < 8 ∧ off.toNat = s.bc.pos.toNat + 8 * k ∧ off.toNat ≤ bcBits s ∧
        bcBits s < off.toNat + 8 ∧ ∀ j, j < k → 0x80 ≤ lebByte s j) ∨
    (u = .byte ∧ (i = .bcInit ∨ ∃ k, i = .adInit k) ∧ s.bufLen < s.arg0.toNat + s.arg1.toNat ∧
      off.toNat = min (s.arg0.toNat + s.arg1.toNat) (2 ^ 64 - 1))
  | .parse =>
    (u = .bit ∧ off = s.bc.pos ∧ s.status.bcValid = true ∧
      ∃ n limit, i.bitsAsked s = some (n, limit) ∧ limit < n) ∨
    (u = .bit ∧ off = BitVec.ofNat 64 s.ad.bitpos ∧ s.status.adValid = true ∧
      ∃ bsl hr hc, i = .srPart bsl hr hc ∧ bsl < 3)
  | .invalidData => False
  | .decode =>
    u = .bit ∧ off = s.bc.pos ∧ i = .viDec ∧ s.status.bcValid = true ∧
      s.bc.pos.toNat + 64 ≤ bcBits s ∧ ∀ j, j < 8 → 0x80 ≤ lebByte s j
  | .illegalCommand => False
  | .notInitialised =>
    u = .bit ∧ off = 0#64 ∧
      ((i.needsCursor = true ∧ s.status.bcValid = false) ∨
        (i.needsDecoder = true ∧ s.status.adValid = false))

/-- The DEFAULT_CDF check, entry by entry (spec/43_symbol_router.md R202). -/
def PassesDefaultCheck (rom : CdfRam) : Prop :=
  ∀ t : TableId,
    (rom.get t).cdf.length = t.symbols ∧
    0 < ((rom.get t).cdf.getD 0 0#16).toNat ∧
    (∀ i j, i < j → j < t.symbols →
      ((rom.get t).cdf.getD i 0#16).toNat < ((rom.get t).cdf.getD j 0#16).toNat) ∧
    ((rom.get t).cdf.getD (t.symbols - 1) 0#16).toNat = 32768 ∧
    (rom.get t).cnt = 0#6

/-- `n` one-bit reads in a row, their bits in reading order, and the state after them; none if one fails. -/
def bitByBit (o : Order) : Nat → State → Option (List Bool × State)
  | 0, s => some ([], s)
  | n + 1, s =>
    match exec (.bcRdbit o) s with
    | .next t =>
      if t.status.err = .ok then
        (bitByBit o n t).map fun r => (t.res0.getLsbD 0 :: r.1, r.2)
      else none
    | .fault _ => none
    | .refused _ => none

/-- The state after a typed read: RES0, ERR, the decoder's position, V and R, and the CDF RAM may differ. -/
def AfterTypedRead (s t : State) : Prop :=
  t.status.err = .ok ∧
  t = { s with
    res0 := t.res0
    ram := t.ram
    ad := { s.ad with bitpos := t.ad.bitpos, value := t.ad.value, range := t.ad.range }
    status := { s.status with err := .ok } }

/-- The BUF contents `m` hold the bytes of `s` in the window of `len` bytes at `base`. -/
def BytesAgree (s : State) (m : Memory) (base len : Word) : Prop :=
  ∀ a, base.toNat ≤ a → a < base.toNat + len.toNat → Memory.read m a = memRead s a

/-- A decode of one symbol with table `t`, adapted, and its index in RES0 (spec/43_symbol_router.md R206). -/
def ReadsOneSymbol (id : TableId) (s : State) (out : Host.Outcome State Fault Refusal) : Prop :=
  ∃ t, out = .next t ∧ AfterTypedRead s t ∧
    t.res0.toNat < id.symbols ∧
    t.res0.toNat = (decodeSymbol (s.ram.get id).cdf s).sym ∧
    t.ad = (decodeSymbol (s.ram.get id).cdf s).state.ad ∧
    (t.ram.get id = (s.ram.get id).adapt t.res0.toNat) ∧
    (∀ u, u ≠ id → t.ram.get u = s.ram.get u)

/-- One unadapted fixed bool chooses between SPLIT (3) on 1 and `other` on 0 (spec/43_symbol_router.md R211). -/
def ReadsEdge (other : Nat) (s : State) (out : Host.Outcome State Fault Refusal) : Prop :=
  ∃ t, out = .next t ∧ AfterTypedRead s t ∧ t.ram = s.ram ∧
    t.ad = (decodeSymbol [16384#16, 32768#16] s).state.ad ∧
    (decodeSymbol [16384#16, 32768#16] s).sym ≤ 1 ∧
    ((decodeSymbol [16384#16, 32768#16] s).sym = 1 → t.res0 = 3#64) ∧
    ((decodeSymbol [16384#16, 32768#16] s).sym = 0 → t.res0 = BitVec.ofNat 64 other)

end Sys2Proof.Machine

open Sys2Proof Sys2Proof.Machine

/-! ### Encoding -/

/-- Decoding a well-formed command's word gives the command back (spec/30_encoding.md R71 to R78, R80). -/
def Obligations.DecodeOfEncodeIsTheInstruction : Prop :=
  ∀ i : Instr, i.wf = true → decode (encodeCmd i) = .instr i

/-- A CMD value that decodes has one meaning: the command is well-formed and its word is the value
(spec/30_encoding.md R73, R79, R80). -/
def Obligations.DecodedCommandReencodesToItsWord : Prop :=
  ∀ (w : Word) (i : Instr), decode w = .instr i → i.wf = true ∧ encodeCmd i = w

/-- Words written out from the spec's encodings decode to what they stand for (spec/30_encoding.md R85). -/
def Obligations.SampleWordsDecode : Prop :=
  decode 0x10000000#64 = .instr .bcInit ∧
  decode 0x11010000#64 = .instr (.bcRdbit .lsb) ∧
  decode 0x12010005#64 = .instr (.bcRdbits .lsb 5) ∧
  decode 0x13000040#64 = .instr (.bcRdbits64 .msb 64) ∧
  decode 0x20000000#64 = .instr .viDec ∧
  decode 0x30010000#64 = .instr (.adInit .keep) ∧
  decode 0x41000205#64 = .instr (.srPart 5 false true) ∧
  decode 0x41000105#64 = .instr (.srPart 5 true false) ∧
  decode 0x46000000#64 = .instr .srDq

/-- A CMD write that spells no command (spec/30_encoding.md R72: a bit of CMD[63:32] set; R79: a reserved OPC, or a
listed OPC with a reserved bit set; the all-zero word among them) records ILLEGAL_COMMAND at offset 0 in bits and
changes no other state. -/
def Obligations.IllegalCmdWriteOnlyRecordsTheError : Prop :=
  ∀ (w : Word) (s : State), IllegalWord w ∨ w = 0#64 →
    writeCmd w s = .next { s with
      status := { s.status with err := .illegalCommand, sticky := true, errUnit := .bit }
      erroff := 0#64 }

/-! ### Steps and host interactions -/

/-- A step at a CMD write that decodes is exec of the decoded command, at the state whose waiting interaction is taken
off and whose driver is the writing host (the model's own fields: log 2, log 13). -/
def Obligations.StepRunsTheDecodedCommand : Prop :=
  ∀ (s : State) (h : Nat) (rest : List HostEvent) (w : Word) (i : Instr),
    s.host = .writeReg h 8 0x00 w :: rest → (s.driver = none ∨ s.driver = some h) →
    decode w = .instr i → step s = exec i { s with host := rest, driver := some h }

/-- The command placed by withFetchWord is what the next step runs (log 3). -/
def Obligations.PlacedCommandRunsNext : Prop :=
  ∀ (s : State) (i : Instr), i.wf = true →
    step (s.withFetchWord 32 (encode i).toNat) = exec i { s with driver := some (s.driver.getD 0) }

/-- ARG0 and ARG1 (spec/10_state.md R23): the host's writes are stored whole and read back; no command writes them;
BC.INIT and AD.INIT take their base and length and BC.SKIP its bit count from them as they stand when the command
runs; any other command does the same whatever they hold, and BC.SKIP whatever ARG1 holds. -/
def Obligations.ArgumentRegistersAreTheHosts : Prop :=
  (∀ (s : State) (h : Nat) (rest : List HostEvent) (v : Word),
    (s.driver = none ∨ s.driver = some h) →
    step { s with host := .writeReg h 8 0x08 v :: rest } =
      .next { s with host := rest, driver := some h, arg0 := v } ∧
    step { s with host := .writeReg h 8 0x10 v :: rest } =
      .next { s with host := rest, driver := some h, arg1 := v } ∧
    step { s with host := .readReg h 8 0x08 :: rest } =
      .next { s with host := rest, driver := some h, readData := s.arg0 } ∧
    step { s with host := .readReg h 8 0x10 :: rest } =
      .next { s with host := rest, driver := some h, readData := s.arg1 }) ∧
  (∀ (i : Instr) (s t : State), exec i s = .next t → t.arg0 = s.arg0 ∧ t.arg1 = s.arg1) ∧
  (∀ s : State, s.arg0.toNat + s.arg1.toNat ≤ s.bufLen →
    (∃ t, exec .bcInit s = .next t ∧ t.bc.base = s.arg0 ∧ t.bc.len = s.arg1) ∧
    ∀ k, ∃ t, exec (.adInit k) s = .next t ∧ t.ad.base = s.arg0 ∧ t.ad.size = s.arg1) ∧
  (∀ s : State, s.status.bcValid = true → s.bc.pos.toNat + s.arg0.toNat ≤ bcBits s →
    ∃ t, exec .bcSkip s = .next t ∧ t.bc.pos = s.bc.pos + s.arg0) ∧
  (∀ (i : Instr) (s : State) (a b : Word), i ≠ .bcInit → (∀ k, i ≠ .adInit k) → i ≠ .bcSkip →
    exec i { s with arg0 := a, arg1 := b } =
      mapNext (fun t => { t with arg0 := a, arg1 := b }) (exec i s)) ∧
  (∀ (s : State) (b : Word),
    exec .bcSkip { s with arg1 := b } = mapNext (fun t => { t with arg1 := b }) (exec .bcSkip s))

/-- RES0 and RES1 (spec/10_state.md R24): a failing command writes neither, a command without a result writes neither,
only VI.DEC writes RES1, and host writes to them are ignored. -/
def Obligations.ResultRegistersHoldTheLastResult : Prop :=
  (∀ (i : Instr) (s t : State), exec i s = .next t →
    (t.status.err ≠ .ok → t.res0 = s.res0 ∧ t.res1 = s.res1) ∧
    ((i = .bcInit ∨ i = .bcSkip ∨ i = .bcAlign ∨ (∃ k, i = .adInit k) ∨ i = .srCtxrst) →
      t.res0 = s.res0) ∧
    (i ≠ .viDec → t.res1 = s.res1)) ∧
  (∀ (s : State) (h : Nat) (rest : List HostEvent) (v : Word),
    (s.driver = none ∨ s.driver = some h) →
    step { s with host := .writeReg h 8 0x18 v :: rest } =
      .next { s with host := rest, driver := some h } ∧
    step { s with host := .writeReg h 8 0x20 v :: rest } =
      .next { s with host := rest, driver := some h })

/-- STATUS (spec/10_state.md R25): the places of its fields and the codes of ERR, with every reserved bit 0; all zero
after reset; host writes ignored; a successful command leaves STICKY, ERRUNIT and ERROFF; a failing one sets STICKY;
only BC.INIT changes BC_VALID and only AD.INIT changes AD_VALID, and only to 1. -/
def Obligations.StatusRegisterFields : Prop :=
  (∀ st : Status,
    st.word.toNat % 16 = errNumber st.err ∧
    st.word.getLsbD 4 = st.sticky ∧ (st.word.getLsbD 5 = true ↔ st.errUnit = .byte) ∧
    st.word.getLsbD 6 = false ∧ st.word.getLsbD 7 = false ∧
    st.word.getLsbD 8 = st.bcValid ∧ st.word.getLsbD 9 = st.adValid ∧
    ∀ j, 10 ≤ j → st.word.getLsbD j = false) ∧
  (∀ (s : State) (h : Nat) (rest : List HostEvent) (v : Word),
    (s.driver = none ∨ s.driver = some h) →
    step { s with host := .writeReg h 8 0x28 v :: rest } =
      .next { s with host := rest, driver := some h }) ∧
  (∀ (i : Instr) (s t : State), exec i s = .next t →
    (t.status.err = .ok → t.status.sticky = s.status.sticky ∧
      t.status.errUnit = s.status.errUnit ∧ t.erroff = s.erroff) ∧
    (t.status.err ≠ .ok → t.status.sticky = true) ∧
    (t.status.bcValid = s.status.bcValid ∨ (i = .bcInit ∧ t.status.bcValid = true)) ∧
    (t.status.adValid = s.status.adValid ∨ ((∃ k, i = .adInit k) ∧ t.status.adValid = true))) ∧
  (∀ (s : State) (rest : List HostEvent),
    ∃ t, step { s with host := .reset :: rest } = .next t ∧ t.status.word = 0#64)

/-- Host reads (spec/10_state.md §2, spec/20_memory.md §3): a read gives the register's value (CMD gives 0) and
changes nothing of the block; a write to ERROFF is ignored. The field readData is the model's own (log 12). -/
def Obligations.RegisterReadsHaveNoSideEffect : Prop :=
  ∀ (s : State) (h : Nat) (rest : List HostEvent), (s.driver = none ∨ s.driver = some h) →
    (∀ r : Reg, step { s with host := .readReg h 8 r.offset :: rest } =
      .next { s with host := rest, driver := some h, readData := match r with
        | .cmd => 0#64
        | .arg0 => s.arg0
        | .arg1 => s.arg1
        | .res0 => s.res0
        | .res1 => s.res1
        | .status => s.status.word
        | .erroff => s.erroff }) ∧
    (∀ v, step { s with host := .writeReg h 8 0x30 v :: rest } =
      .next { s with host := rest, driver := some h })

/-- Register accesses that are not aligned 64-bit accesses (spec/20_memory.md R58) and those at an unmapped offset
(spec/10_state.md R27) are refused, reads and writes alike. Which of the refusals an access gets that breaks several
obligations, its form before its offset and both before its host, is the model's choice (log 17). -/
def Obligations.AccessFormsOutsideTheSpecAreRefused : Prop :=
  ∀ (s : State) (h bytes off : Nat) (v : Word) (rest : List HostEvent),
    ((bytes ≠ 8 ∨ off % 8 ≠ 0) →
      step { s with host := .writeReg h bytes off v :: rest } = .refused (.badAccessForm bytes off) ∧
      step { s with host := .readReg h bytes off :: rest } = .refused (.badAccessForm bytes off)) ∧
    (bytes = 8 → off % 8 = 0 → 0x38 ≤ off →
      step { s with host := .writeReg h bytes off v :: rest } = .refused (.unmappedOffset off) ∧
      step { s with host := .readReg h bytes off :: rest } = .refused (.unmappedOffset off))

/-- Two hosts never drive one block in a run that goes on (spec/60_exceptions.md R269): after a host's register access
every access of another host to a mapped register is refused, and every command and interaction but reset leaves it
so. That the first access, a read too, fixes the host, and that all but reset keeps it, is the model's choice (log 13). -/
def Obligations.SecondHostIsRefused : Prop :=
  (∀ (s t : State) (g : Nat) (r : Reg) (v : Word) (rest : List HostEvent),
    (step { s with host := .writeReg g 8 r.offset v :: rest } = .next t ∨
      step { s with host := .readReg g 8 r.offset :: rest } = .next t) → t.driver = some g) ∧
  (∀ (s t : State) (g : Nat) (e : HostEvent) (rest : List HostEvent), s.driver = some g →
    s.host = e :: rest → e ≠ .reset → step s = .next t → t.driver = some g) ∧
  (∀ (s : State) (h g : Nat) (r : Reg) (v : Word) (rest : List HostEvent),
    s.driver = some g → h ≠ g →
    step { s with host := .writeReg h 8 r.offset v :: rest } = .refused .twoHosts ∧
    step { s with host := .readReg h 8 r.offset :: rest } = .refused .twoHosts)

/-- BUF writes (spec/20_memory.md R63): a byte inside the BC window while BC_VALID = 1 or inside the tile window while
AD_VALID = 1 must not be written, and the run is refused, a write of the byte's own value included (the model's
reading, log 6); any other byte of BUF takes the value, and every other byte
and the rest of the state stay. -/
def Obligations.BufWritesStayOutsideValidWindows : Prop :=
  ∀ (s : State) (a : Nat) (x : Byte) (rest : List HostEvent), s.Inv → a < s.bufLen →
    (((s.status.bcValid = true ∧ s.bc.base.toNat ≤ a ∧ a < s.bc.base.toNat + s.bc.len.toNat) ∨
        (s.status.adValid = true ∧ s.ad.base.toNat ≤ a ∧ a < s.ad.base.toNat + s.ad.size.toNat)) →
      step { s with host := .writeBuf a x :: rest } = .refused (.bufWindowWritten a)) ∧
    (¬((s.status.bcValid = true ∧ s.bc.base.toNat ≤ a ∧ a < s.bc.base.toNat + s.bc.len.toNat) ∨
        (s.status.adValid = true ∧ s.ad.base.toNat ≤ a ∧ a < s.ad.base.toNat + s.ad.size.toNat)) →
      ∃ t, step { s with host := .writeBuf a x :: rest } = .next t ∧
        t = { s with host := rest, buf := t.buf } ∧
        memRead t a = x ∧ ∀ b, b ≠ a → memRead t b = memRead s b)

/-- Loading BUF before any window is valid makes BUF hold exactly the given bytes (spec/70_reset_and_hazards.md §2, boot
step 1). While a window is valid, and with 2^61 bytes or more (the bound of spec/00_scope.md §3), it is refused: the
refusals are the model's choice (log 5). -/
def Obligations.LoadedBufReadsBack : Prop :=
  ∀ (s : State) (content : List Byte) (rest : List HostEvent),
    (s.status.bcValid = false → s.status.adValid = false → content.length < 2 ^ 61 →
      ∃ t, step { s with host := .loadBuf content :: rest } = .next t ∧
        t = { s with host := rest, buf := t.buf, bufLen := content.length } ∧
        t.buf.wf t.bufLen = true ∧
        ∀ a, a < content.length → content[a]? = some (memRead t a)) ∧
    (s.status.bcValid = true ∨ s.status.adValid = true →
      step { s with host := .loadBuf content :: rest } = .refused .bufLoadedUnderWindow) ∧
    (s.status.bcValid = false → s.status.adValid = false → 2 ^ 61 ≤ content.length →
      step { s with host := .loadBuf content :: rest } = .refused .bufTooLong)

/-- The platform's reset (spec/70_reset_and_hazards.md R280): registers and VALID bits 0, the CDF RAM as after
CdfReload, the CDF ROM and BUF untouched. -/
def Obligations.ResetLeavesTheResetState : Prop :=
  ∀ (s : State) (rest : List HostEvent),
    ∃ t, step { s with host := .reset :: rest } = .next t ∧
      readReg t .cmd = 0#64 ∧ t.arg0 = 0#64 ∧ t.arg1 = 0#64 ∧ t.res0 = 0#64 ∧ t.res1 = 0#64 ∧
      t.status.err = .ok ∧ t.status.sticky = false ∧ t.status.errUnit = .bit ∧
      t.status.bcValid = false ∧ t.status.adValid = false ∧ t.status.word = 0#64 ∧
      t.erroff = 0#64 ∧
      (∀ id : TableId, (t.ram.get id).cdf = (s.rom.get id).cdf ∧ (t.ram.get id).cnt = 0#6) ∧
      t.rom = s.rom ∧ t.bufLen = s.bufLen ∧ (∀ a, memRead t a = memRead s a) ∧ t.host = rest

/-- A DEFAULT_CDF is accepted exactly when every table passes the check of spec/43_symbol_router.md R202; one that
fails it is refused. -/
def Obligations.DefaultCdfIsChecked : Prop :=
  ∀ rom : CdfRam,
    (PassesDefaultCheck rom → ∃ t, State.build rom = .next t ∧ t.rom = rom) ∧
    (¬PassesDefaultCheck rom → State.build rom = .refused .defaultCdfIllFormed)

/-- The pseudo-instructions (spec/30_encoding.md R84) run as their expansions: the ARG writes, then the command. -/
def Obligations.PseudoInstructionsRunTheirExpansions : Prop :=
  ∀ (s : State) (h : Nat) (a b : Word) (n : Nat), (s.driver = none ∨ s.driver = some h) → n < 128 →
    Sys2Proof.core.run 3 { s with host := asmEvents h (Pseudo.bcWindow a b).expand } =
      exec .bcInit { s with host := [], driver := some h, arg0 := a, arg1 := b } ∧
    Sys2Proof.core.run 3 { s with host := asmEvents h (Pseudo.adTile a b).expand } =
      exec (.adInit .reload) { s with host := [], driver := some h, arg0 := a, arg1 := b } ∧
    Sys2Proof.core.run 3 { s with host := asmEvents h (Pseudo.adTileKeep a b).expand } =
      exec (.adInit .keep) { s with host := [], driver := some h, arg0 := a, arg1 := b } ∧
    Sys2Proof.core.run 2 { s with host := asmEvents h (Pseudo.bcSkipi a).expand } =
      exec .bcSkip { s with host := [], driver := some h, arg0 := a } ∧
    Sys2Proof.core.run 1 { s with host := asmEvents h (Pseudo.bcRdbits n).expand } =
      exec (.bcRdbits .msb n) { s with host := [], driver := some h } ∧
    Sys2Proof.core.run 1 { s with host := asmEvents h Pseudo.bcRdbit.expand } =
      exec (.bcRdbit .msb) { s with host := [], driver := some h }

/-! ### Errors -/

/-- A failing command changes nothing but ERR, STICKY, ERRUNIT and ERROFF (spec/60_exceptions.md §2, "Nothing else
changes"). -/
def Obligations.FailureChangesOnlyStatusAndErroff : Prop :=
  ∀ (i : Instr) (s t : State), exec i s = .next t → t.status.err ≠ .ok →
    t = { s with
      status := { s.status with err := t.status.err, sticky := true, errUnit := t.status.errUnit }
      erroff := t.erroff }

/-- The error table (spec/60_exceptions.md R251) with the priority of its rows (R254): a command fails exactly when one of
its rows applies, with that row's code, offset and unit; where none applies it succeeds and leaves ERROFF and ERRUNIT;
no command raises INVALID_DATA; a CMD write that spells no command raises ILLEGAL_COMMAND at offset 0 in bits before
any other check. The codes are the table's. -/
def Obligations.ErrorsFollowTheErrorTable : Prop :=
  (∀ (i : Instr) (s t : State), s.Inv → exec i s = .next t →
    (t.status.err ≠ .ok → ErrorRow i s t.erroff t.status.errUnit t.status.err) ∧
    (∀ e off u, ErrorRow i s off u e →
      t.status.err = e ∧ t.erroff = off ∧ t.status.errUnit = u) ∧
    (t.status.err = .ok → t.erroff = s.erroff ∧ t.status.errUnit = s.status.errUnit)) ∧
  (∀ (w : Word) (s : State), IllegalWord w →
    ∃ t, writeCmd w s = .next t ∧ t.status.err = .illegalCommand ∧ t.erroff = 0#64 ∧
      t.status.errUnit = .bit) ∧
  (∀ st : Status, st.word.toNat % 16 = errNumber st.err)

/-- STICKY (spec/60_exceptions.md R253): set by every failing command, left by successful ones, cleared by nothing but
reset. -/
def Obligations.StickyIsClearedOnlyByReset : Prop :=
  (∀ (w : Word) (s t : State), writeCmd w s = .next t →
    (t.status.err ≠ .ok → t.status.sticky = true) ∧
    (t.status.err = .ok → t.status.sticky = s.status.sticky)) ∧
  (∀ (s t : State) (e : HostEvent) (rest : List HostEvent), s.host = e :: rest → e ≠ .reset →
    step s = .next t → s.status.sticky = true → t.status.sticky = true) ∧
  (∀ (s : State) (rest : List HostEvent),
    ∃ t, step { s with host := .reset :: rest } = .next t ∧ t.status.sticky = false)

/-- No command reads the error record (spec/10_state.md §6, "No command reads STATUS"): the same command from a state
with another ERR, STICKY, ERRUNIT and ERROFF gives the same outcome, the record apart. -/
def Obligations.ErrorRecordIsNeverRead : Prop :=
  ∀ (i : Instr) (s t : State) (e : Err) (st : Bool) (u : OffUnit) (off : Word),
    exec i s = .next t →
    ∃ t', exec i { s with
        status := { s.status with err := e, sticky := st, errUnit := u }, erroff := off } = .next t' ∧
      t'.status.err = t.status.err ∧
      { t' with
        status := { t'.status with sticky := t.status.sticky, errUnit := t.status.errUnit }
        erroff := t.erroff } = t

/-- Commands of a unit that is not set up fail with NOT_INITIALISED at offset 0 in bits and change no other state
(spec/40_bit_cursor.md R114, spec/42_arith_decoder.md R164). -/
def Obligations.UnsetUnitsFail : Prop :=
  ∀ (i : Instr) (s : State),
    ((i.needsCursor = true ∧ s.status.bcValid = false) ∨
      (i.needsDecoder = true ∧ s.status.adValid = false)) →
    exec i s = .next { s with
      status := { s.status with err := .notInitialised, sticky := true, errUnit := .bit }
      erroff := 0#64 }

/-- Right after reset (spec/70_reset_and_hazards.md §2, "Commands that succeed right after reset"): BC.INIT and AD.INIT
(their zero ARGs give an empty window) and SR.CTXRST succeed, every other command fails with NOT_INITIALISED. -/
def Obligations.CommandsRightAfterReset : Prop :=
  ∀ (rom : CdfRam) (buf : Memory) (len : Nat) (i : Instr),
    ∃ t, exec i (State.resetOf rom buf len) = .next t ∧
      (t.status.err = .ok ↔ i = .bcInit ∨ (∃ k, i = .adInit k) ∨ i = .srCtxrst) ∧
      (t.status.err ≠ .ok → t.status.err = .notInitialised)

/-! ### Bit Cursor -/

/-- BC.INIT (spec/40_bit_cursor.md R100) with WindowCheck (spec/20_memory.md R53): a window inside BUF is set with
BC_POS 0; one past BUF_LEN fails with UNEXPECTED_EOF at the unwrapped end, in bytes, and nothing else changes. -/
def Obligations.BcInitSetsTheWindow : Prop :=
  decode 0x10000000#64 = .instr .bcInit ∧
  (∀ s : State,
    (s.arg0.toNat + s.arg1.toNat ≤ s.bufLen →
      exec .bcInit s = .next { s with
        bc := { base := s.arg0, len := s.arg1, pos := 0#64 }
        status := { s.status with err := .ok, bcValid := true } }) ∧
    (s.bufLen < s.arg0.toNat + s.arg1.toNat →
      exec .bcInit s = .next { s with
        status := { s.status with err := .unexpectedEof, sticky := true, errUnit := .byte }
        erroff := BitVec.ofNat 64 (min (s.arg0.toNat + s.arg1.toNat) (2 ^ 64 - 1)) }))

/-- The five reads take the bits that spec/40_bit_cursor.md R101 names and put them together MSB-first as R102 and
LSB-first as R103 say, for every count the command allows up to the window end; BC.PEEK, of at most 32 bits, consumes
nothing (R111). -/
def Obligations.BitReadsTakeTheirBitsInOrder : Prop :=
  ∀ (s : State) (o : Order), s.Inv → s.status.bcValid = true →
    (s.bc.pos.toNat + 1 ≤ bcBits s → ReadsBits o 1 1 s (exec (.bcRdbit o) s)) ∧
    (∀ n, n ≤ 32 → s.bc.pos.toNat + n ≤ bcBits s → ReadsBits o n n s (exec (.bcRdbits o n) s)) ∧
    (∀ n, n ≤ 64 → s.bc.pos.toNat + n ≤ bcBits s → ReadsBits o n n s (exec (.bcRdbits64 o n) s)) ∧
    (s.bc.pos.toNat + 8 ≤ bcBits s → ReadsBits o 8 8 s (exec (.bcRdbyte o) s)) ∧
    (∀ n, n ≤ 32 → s.bc.pos.toNat + n ≤ bcBits s → ReadsBits o n 0 s (exec (.bcPeek o n) s))

/-- The read check of the five reads, with the priority NOT_INITIALISED, PARSE, UNEXPECTED_EOF
(spec/40_bit_cursor.md R104). -/
def Obligations.BitReadsFailInPriorityOrder : Prop :=
  ∀ (s : State) (o : Order) (n : Nat),
    FailsReadCheck 1 1 s (exec (.bcRdbit o) s) ∧
    FailsReadCheck n 32 s (exec (.bcRdbits o n) s) ∧
    FailsReadCheck n 64 s (exec (.bcRdbits64 o n) s) ∧
    FailsReadCheck 8 8 s (exec (.bcRdbyte o) s) ∧
    FailsReadCheck n 32 s (exec (.bcPeek o n) s)

/-- BC.SKIP (spec/40_bit_cursor.md R109): it moves by ARG0 up to the window end, and fails without moving past it,
whatever the count. -/
def Obligations.SkipMovesOrFails : Prop :=
  decode 0x15000000#64 = .instr .bcSkip ∧
  (∀ s : State, s.Inv →
    (s.status.bcValid = true → s.bc.pos.toNat + s.arg0.toNat ≤ bcBits s →
      ∃ t, exec .bcSkip s = .next t ∧ t.bc.pos.toNat = s.bc.pos.toNat + s.arg0.toNat ∧
        t = { s with bc := { s.bc with pos := t.bc.pos }, status := { s.status with err := .ok } }) ∧
    (s.status.bcValid = true → bcBits s < s.bc.pos.toNat + s.arg0.toNat →
      exec .bcSkip s = .next { s with
        status := { s.status with err := .unexpectedEof, sticky := true, errUnit := .bit }
        erroff := s.bc.pos }) ∧
    (s.status.bcValid = false →
      exec .bcSkip s = .next { s with
        status := { s.status with err := .notInitialised, sticky := true, errUnit := .bit }
        erroff := 0#64 }))

/-- BC.ALIGN (spec/40_bit_cursor.md R110): BC_POS goes to the next multiple of 8, stays where it is one, and stays in
the window (the spec's own inference in that rule); it fails only when there is no window. -/
def Obligations.AlignRoundsUpToAByte : Prop :=
  decode 0x16000000#64 = .instr .bcAlign ∧
  (∀ s : State, s.Inv →
    (s.status.bcValid = true →
      ∃ t, exec .bcAlign s = .next t ∧
        t.bc.pos.toNat % 8 = 0 ∧ s.bc.pos.toNat ≤ t.bc.pos.toNat ∧
        t.bc.pos.toNat < s.bc.pos.toNat + 8 ∧ t.bc.pos.toNat ≤ bcBits s ∧
        t = { s with bc := { s.bc with pos := t.bc.pos }, status := { s.status with err := .ok } }) ∧
    (s.status.bcValid = false →
      exec .bcAlign s = .next { s with
        status := { s.status with err := .notInitialised, sticky := true, errUnit := .bit }
        erroff := 0#64 }))

/-- BC.POS and BC.REM (spec/40_bit_cursor.md R112, R113): the bits consumed and the bits left, with nothing moved. -/
def Obligations.PositionAndRemainder : Prop :=
  decode 0x18000000#64 = .instr .bcPos ∧
  decode 0x19000000#64 = .instr .bcRem ∧
  (∀ s : State, s.Inv →
    (s.status.bcValid = true →
      exec .bcPos s = .next { s with res0 := s.bc.pos, status := { s.status with err := .ok } } ∧
      ∃ t, exec .bcRem s = .next t ∧ t.res0.toNat = bcBits s - s.bc.pos.toNat ∧
        t = { s with res0 := t.res0, status := { s.status with err := .ok } }) ∧
    (s.status.bcValid = false → ∀ i, i = .bcPos ∨ i = .bcRem →
      exec i s = .next { s with
        status := { s.status with err := .notInitialised, sticky := true, errUnit := .bit }
        erroff := 0#64 }))

/-- The composition law (spec/40_bit_cursor.md §5): `n` one-bit reads and one `n`-bit read see the same bits and end at
the same position, in both orders. -/
def Obligations.BitByBitEqualsOneRead : Prop :=
  ∀ (s : State) (o : Order) (n : Nat), s.Inv → s.status.bcValid = true → n ≤ 32 →
    s.bc.pos.toNat + n ≤ bcBits s →
    ∃ (bs : List Bool) (t u : State), bitByBit o n s = some (bs, t) ∧
      exec (.bcRdbits o n) s = .next u ∧ bs.length = n ∧ u.bc = t.bc ∧
      u.res0.toNat = ((List.range n).map fun j =>
        (bs.getD j false).toNat <<< (match o with | .msb => n - 1 - j | .lsb => j)).sum

/-- The position law (spec/40_bit_cursor.md §5): a successful command moves BC_POS by the bits it consumes, BC.INIT sets
it to 0, and a failing command moves nothing. -/
def Obligations.CursorMovesByTheBitsConsumed : Prop :=
  ∀ (i : Instr) (s t : State), s.Inv → exec i s = .next t →
    (t.status.err = .ok → i ≠ .bcInit → t.bc.pos.toNat = s.bc.pos.toNat + i.bitsConsumed s t ∧
      t.bc.base = s.bc.base ∧ t.bc.len = s.bc.len) ∧
    (t.status.err = .ok → i = .bcInit → t.bc.pos = 0#64) ∧
    (t.status.err ≠ .ok → t.bc = s.bc)

/-! ### Varint -/

/-- VI.DEC (spec/41_varint.md R142, with the format of R141): the bytes at BC_POS up to the first one below 0x80 give the
value and the count, and BC_POS moves past them; a window that ends first is UNEXPECTED_EOF at the missing byte;
eight bytes that all continue are DECODE at the start. -/
def Obligations.VarintFollowsItsBytes : Prop :=
  decode 0x20000000#64 = .instr .viDec ∧
  (∀ s : State, s.Inv →
    (s.status.bcValid = true → ∀ k, k < 8 → s.bc.pos.toNat + 8 * (k + 1) ≤ bcBits s →
      (∀ j, j < k → 0x80 ≤ lebByte s j) → lebByte s k < 0x80 →
      ∃ t, exec .viDec s = .next t ∧
        t.res0.toNat = ((List.range (k + 1)).map fun j => (lebByte s j % 0x80) <<< (7 * j)).sum ∧
        t.res1.toNat = k + 1 ∧ t.bc.pos.toNat = s.bc.pos.toNat + 8 * (k + 1) ∧
        t = { s with
          res0 := t.res0
          res1 := t.res1
          bc := { s.bc with pos := t.bc.pos }
          status := { s.status with err := .ok } }) ∧
    (s.status.bcValid = true → ∀ k, k < 8 → s.bc.pos.toNat + 8 * k ≤ bcBits s →
      bcBits s < s.bc.pos.toNat + 8 * (k + 1) → (∀ j, j < k → 0x80 ≤ lebByte s j) →
      exec .viDec s = .next { s with
        status := { s.status with err := .unexpectedEof, sticky := true, errUnit := .bit }
        erroff := BitVec.ofNat 64 (s.bc.pos.toNat + 8 * k) }) ∧
    (s.status.bcValid = true → s.bc.pos.toNat + 64 ≤ bcBits s →
      (∀ j, j < 8 → 0x80 ≤ lebByte s j) →
      exec .viDec s = .next { s with
        status := { s.status with err := .decode, sticky := true, errUnit := .bit }
        erroff := s.bc.pos }) ∧
    (s.status.bcValid = false →
      exec .viDec s = .next { s with
        status := { s.status with err := .notInitialised, sticky := true, errUnit := .bit }
        erroff := 0#64 }))

/-- The round-trip law (spec/41_varint.md, "Round-trip law"): wherever the bytes of the reference encoding of `v` below
2^56 stand at BC_POS, VI.DEC gives `v` and its size and moves past them. -/
def Obligations.VarintRoundTrip : Prop :=
  ∀ (s : State) (v : Nat), s.Inv → s.status.bcValid = true → v < 2 ^ 56 →
    s.bc.pos.toNat + 8 * leb128Size 8 v ≤ bcBits s →
    (∀ j, j < leb128Size 8 v → lebByte s j = ((encodeUleb128 8 v).getD j 0#8).toNat) →
    ∃ t, exec .viDec s = .next t ∧ t.status.err = .ok ∧ t.res0.toNat = v ∧
      t.res1.toNat = leb128Size 8 v ∧ (encodeUleb128 8 v).length = leb128Size 8 v ∧
      t.bc.pos.toNat = s.bc.pos.toNat + 8 * leb128Size 8 v

/-! ### Arithmetic Decoder -/

/-- AD.INIT (spec/42_arith_decoder.md R162): on a tile inside BUF, V is the complement of the first 15 tile bits (zero
past the tile end), R is 2^15, AD_BITPOS 15, and the CDF RAM is reloaded with K = 0 and kept with K = 1; a tile past
BUF_LEN fails with UNEXPECTED_EOF and nothing else changes. -/
def Obligations.AdInitStartsTheDecoder : Prop :=
  decode 0x30000000#64 = .instr (.adInit .reload) ∧
  decode 0x30010000#64 = .instr (.adInit .keep) ∧
  (∀ (s : State) (k : CarryOver),
    (s.arg0.toNat + s.arg1.toNat ≤ s.bufLen →
      ∃ t, exec (.adInit k) s = .next t ∧
        t.ad.base = s.arg0 ∧ t.ad.size = s.arg1 ∧ t.ad.bitpos = 15 ∧ t.ad.range.toNat = 2 ^ 15 ∧
        (∀ j, j < 15 → t.ad.value.getLsbD (14 - j) =
          !(decide (j < 8 * s.arg1.toNat) &&
            (memRead s (s.arg0.toNat + j / 8)).getLsbD (7 - j % 8))) ∧
        t.ad.value.getLsbD 15 = false ∧
        (k = .reload → ∀ id : TableId,
          (t.ram.get id).cdf = (s.rom.get id).cdf ∧ (t.ram.get id).cnt = 0#6) ∧
        (k = .keep → t.ram = s.ram) ∧
        t = { s with
          ad := t.ad
          ram := t.ram
          status := { s.status with err := .ok, adValid := true } }) ∧
    (s.bufLen < s.arg0.toNat + s.arg1.toNat →
      exec (.adInit k) s = .next { s with
        status := { s.status with err := .unexpectedEof, sticky := true, errUnit := .byte }
        erroff := BitVec.ofNat 64 (min (s.arg0.toNat + s.arg1.toNat) (2 ^ 64 - 1)) }))

/-- AD.POS (spec/42_arith_decoder.md R163). -/
def Obligations.AdPosReportsTheTilePosition : Prop :=
  decode 0x31000000#64 = .instr .adPos ∧
  (∀ s : State,
    (s.status.adValid = true →
      exec .adPos s = .next { s with
        res0 := BitVec.ofNat 64 s.ad.bitpos, status := { s.status with err := .ok } }) ∧
    (s.status.adValid = false →
      exec .adPos s = .next { s with
        status := { s.status with err := .notInitialised, sticky := true, errUnit := .bit }
        erroff := 0#64 }))

/-- Fetch (spec/42_arith_decoder.md R166): the next tile bits MSB-first, zero at and past the tile end. -/
def Obligations.FetchTakesTheNextTileBits : Prop :=
  ∀ (s : State) (n : Nat),
    fetchValue s n < 2 ^ n ∧
    (∀ j, j < n → (fetchValue s n).testBit (n - 1 - j) =
      (decide (s.ad.bitpos + j < 8 * s.ad.size.toNat) &&
        (memRead s (s.ad.base.toNat + (s.ad.bitpos + j) / 8)).getLsbD
          (7 - (s.ad.bitpos + j) % 8))) ∧
    (advanceTile n s).ad.bitpos = s.ad.bitpos + n

/-- DecodeSymbol (spec/42_arith_decoder.md R167): the symbol is the first whose bound V reaches, and R and V become the
width of its bucket and V's offset in it before Renormalise. Stated for every table that meets the CDF RAM invariant
(spec/10_state.md R36) and every R and V in the decoder's bounds (spec/10_state.md R32). -/
def Obligations.SymbolOwnsTheBucketOfV : Prop :=
  ∀ (s : State) (t : Table) (n : Nat), t.wf n = true → 2 ≤ n → n ≤ 16 →
    2 ^ 15 ≤ s.ad.range.toNat → s.ad.value.toNat < s.ad.range.toNat →
    let r := s.ad.range.toNat
    let v := s.ad.value.toNat
    let cur := fun k =>
      (((r / 2 ^ 8) * ((2 ^ 15 - (t.cdf.getD k 0#16).toNat) / 2 ^ 6)) / 2) + 4 * (n - k - 1)
    let d := decodeSymbol t.cdf s
    d.sym < n ∧ cur d.sym ≤ v ∧ (∀ k, k < d.sym → v < cur k) ∧
      d.state = renormalise ((if d.sym = 0 then r else cur (d.sym - 1)) - cur d.sym) (v - cur d.sym) s

/-- Renormalise (spec/42_arith_decoder.md §4): R is shifted left until it is in [2^15, 2^16 - 1], V takes as many new
tile bits, subtracted from ((V + 1) << d) - 1, and nothing else of the state changes but AD_BITPOS. -/
def Obligations.RenormaliseRestoresTheRange : Prop :=
  ∀ (s : State) (r v : Nat), 0 < r → r < 2 ^ 16 → v < r →
    ∃ d, d ≤ 15 ∧ 2 ^ 15 ≤ r * 2 ^ d ∧ r * 2 ^ d < 2 ^ 16 ∧
      (renormalise r v s).ad.range.toNat = r * 2 ^ d ∧
      (renormalise r v s).ad.value.toNat = (v + 1) * 2 ^ d - 1 - fetchValue s d ∧
      (renormalise r v s).ad.bitpos = s.ad.bitpos + d ∧
      renormalise r v s = { s with
        ad := { s.ad with
          bitpos := s.ad.bitpos + d
          range := (renormalise r v s).ad.range
          value := (renormalise r v s).ad.value } }

/-- One DecodeSymbol keeps the decoder's bounds (spec/42_arith_decoder.md §4, "Properties of one DecodeSymbol"): the
symbol is in the table, R is back in [2^15, 2^16 - 1] with V below it, and at most 13 tile bits are fetched. -/
def Obligations.SymbolStepKeepsTheDecoderBounds : Prop :=
  ∀ (s : State) (t : Table) (n : Nat), t.wf n = true → 2 ≤ n → n ≤ 16 →
    2 ^ 15 ≤ s.ad.range.toNat → s.ad.value.toNat < s.ad.range.toNat →
    let d := decodeSymbol t.cdf s
    d.sym < n ∧ 2 ^ 15 ≤ d.state.ad.range.toNat ∧
      d.state.ad.value.toNat < d.state.ad.range.toNat ∧
      s.ad.bitpos ≤ d.state.ad.bitpos ∧ d.state.ad.bitpos ≤ s.ad.bitpos + 13

/-- Adapt (spec/42_arith_decoder.md R172): every entry but the last moves by the rate that the counter and the number
of symbols give, down below the symbol and up from it on; the counter saturates at 32. -/
def Obligations.AdaptMovesEveryEntry : Prop :=
  ∀ (t : Table) (n sym : Nat), t.wf n = true → 2 ≤ n → n ≤ 16 → sym < n →
    let rate := 3 + (if 15 < t.cnt.toNat then 1 else 0) + (if 31 < t.cnt.toNat then 1 else 0) +
      (if n < 4 then 1 else 2)
    let u := t.adapt sym
    u.cdf.length = n ∧
    (∀ i, i + 1 < n → (u.cdf.getD i 0#16).toNat =
      if i < sym then (t.cdf.getD i 0#16).toNat - (t.cdf.getD i 0#16).toNat / 2 ^ rate
      else (t.cdf.getD i 0#16).toNat + (2 ^ 15 - (t.cdf.getD i 0#16).toNat) / 2 ^ rate) ∧
    u.cdf.getD (n - 1) 0#16 = 32768#16 ∧
    u.cnt.toNat = min (t.cnt.toNat + 1) 32

/-- Adapt keeps the CDF RAM invariant (spec/42_arith_decoder.md §5, "Adapt keeps"): no entry reaches 0 or 32768 and the
order is kept. -/
def Obligations.AdaptKeepsTheTableInvariant : Prop :=
  ∀ (t : Table) (n sym : Nat), t.wf n = true → 2 ≤ n → sym < n → (t.adapt sym).wf n = true

/-! ### Symbol Router -/

/-- SR.CTXRST (spec/43_symbol_router.md R203): every table takes its default entries and a zero counter, nothing else
changes, it needs no valid unit, and AD.INIT with K = 0 reloads the same way. -/
def Obligations.CtxrstReloadsTheDefaults : Prop :=
  decode 0x40000000#64 = .instr .srCtxrst ∧
  (∀ s : State, ∃ t, exec .srCtxrst s = .next t ∧
    (∀ id : TableId, (t.ram.get id).cdf = (s.rom.get id).cdf ∧ (t.ram.get id).cnt = 0#6) ∧
    t = { s with ram := t.ram, status := { s.status with err := .ok } }) ∧
  (∀ s t u : State, exec (.adInit .reload) s = .next t → t.status.err = .ok →
    exec .srCtxrst s = .next u → t.ram = u.ram)

/-- SR.SKIP, SR.INTRA and SR.INTER (spec/43_symbol_router.md R212, R213, R214): one adaptive symbol of their table, its
index in RES0; without a valid decoder they fail. -/
def Obligations.OneSymbolReads : Prop :=
  decode 0x42000000#64 = .instr .srSkip ∧
  decode 0x43000000#64 = .instr .srIntra ∧
  decode 0x44000000#64 = .instr .srInter ∧
  (∀ s : State, s.Inv →
    (s.status.adValid = true →
      ReadsOneSymbol .skip s (exec .srSkip s) ∧
      ReadsOneSymbol .intra s (exec .srIntra s) ∧
      ReadsOneSymbol .inter s (exec .srInter s)) ∧
    (s.status.adValid = false → ∀ i, i = .srSkip ∨ i = .srIntra ∨ i = .srInter →
      exec i s = .next { s with
        status := { s.status with err := .notInitialised, sticky := true, errUnit := .bit }
        erroff := 0#64 }))

/-- SR.PART on a block inside the frame (spec/43_symbol_router.md R208, R209): a BSL below 3 fails with PARSE at
AD_BITPOS, after the AD_VALID check and before any decoding; with HR and HC both set, BSL 3 to 7 decode one adaptive
symbol of PART_8 to PART_128 (the sizes of the first and the last are the spec's general knowledge, log 20). The word is
`0x41000000 | HC<<9 | HR<<8 | BSL`. -/
def Obligations.PartitionReads : Prop :=
  (∀ bsl, bsl < 8 → ∀ hr hc : Bool,
    decode (BitVec.ofNat 64 (0x41000000 + hc.toNat * 2 ^ 9 + hr.toNat * 2 ^ 8 + bsl)) =
      .instr (.srPart bsl hr hc)) ∧
  (∀ (s : State) (bsl : Nat) (hr hc : Bool), s.Inv →
    (s.status.adValid = true → bsl < 3 →
      exec (.srPart bsl hr hc) s = .next { s with
        status := { s.status with err := .parse, sticky := true, errUnit := .bit }
        erroff := BitVec.ofNat 64 s.ad.bitpos }) ∧
    (s.status.adValid = true →
      ReadsOneSymbol .part8 s (exec (.srPart 3 true true) s) ∧
      ReadsOneSymbol .part16 s (exec (.srPart 4 true true) s) ∧
      ReadsOneSymbol .part32 s (exec (.srPart 5 true true) s) ∧
      ReadsOneSymbol .part64 s (exec (.srPart 6 true true) s) ∧
      ReadsOneSymbol .part128 s (exec (.srPart 7 true true) s)) ∧
    (s.status.adValid = false →
      exec (.srPart bsl hr hc) s = .next { s with
        status := { s.status with err := .notInitialised, sticky := true, errUnit := .bit }
        erroff := 0#64 }))

/-- SR.PART at the frame edge (spec/43_symbol_router.md §3, EdgePartition, an outcome set that the spec takes from general
knowledge; EDGE_CDF at its decided value, log 15): with one of HR and HC set, one unadapted bool chooses SPLIT or the
edge's own partition; with neither, SPLIT with nothing decoded. -/
def Obligations.EdgePartitionReads : Prop :=
  ∀ (s : State) (bsl : Nat), s.Inv → s.status.adValid = true → 3 ≤ bsl → bsl ≤ 7 →
    ReadsEdge 1 s (exec (.srPart bsl false true) s) ∧
    ReadsEdge 2 s (exec (.srPart bsl true false) s) ∧
    exec (.srPart bsl false false) s = .next { s with
      res0 := 3#64, status := { s.status with err := .ok } }

/-- SR.MV (spec/43_symbol_router.md R216): the class c, c - 1 magnitude bits, each an adaptive symbol of MV_BITS at the
state the one before left, the first of them the most significant, the sign only of a magnitude above 0, the two
fractional bits always; RES0 is the signed value, sign-extended, from -8191 to 8191. -/
def Obligations.MvReadFollowsItsSymbols : Prop :=
  decode 0x45000000#64 = .instr .srMv ∧
  (∀ s : State, s.Inv →
    (s.status.adValid = true →
      let c := decodeAdaptive .mvClass s
      let bit := fun j => (decodeAdaptive .mvBits (mvBitsAfter j c.state)).sym
      let extra := ((List.range (c.sym - 1)).map fun j => bit j <<< (c.sym - 2 - j)).sum
      let u := mvBitsAfter (c.sym - 1) c.state
      let mag := if c.sym = 0 then 0 else 2 ^ (c.sym - 1) + extra
      let g : Decoding := if mag = 0 then ⟨0, u⟩ else decodeAdaptive .mvSign u
      let hp := decodeSymbol [16384#16, 32768#16] g.state
      let qp := decodeSymbol [16384#16, 32768#16] hp.state
      let v : Int := (mag : Int) * 4 + ((hp.sym : Int) * 2 + qp.sym)
      c.sym ≤ 11 ∧ (∀ j, j < c.sym - 1 → bit j ≤ 1) ∧ extra < 2 ^ (c.sym - 1) ∧
      g.sym ≤ 1 ∧ hp.sym ≤ 1 ∧ qp.sym ≤ 1 ∧
      ∃ t, exec .srMv s = .next t ∧ AfterTypedRead s t ∧
        t.res0.toInt = (if g.sym = 1 then -v else v) ∧
        -8191 ≤ t.res0.toInt ∧ t.res0.toInt ≤ 8191 ∧
        t.ad = qp.state.ad ∧ t.ram = qp.state.ram) ∧
    (s.status.adValid = false →
      exec .srMv s = .next { s with
        status := { s.status with err := .notInitialised, sticky := true, errUnit := .bit }
        erroff := 0#64 }))

/-- SR.DQ (spec/43_symbol_router.md R218): the base, past 3 the escape with its diff symbol and the clamp to 63, the sign
unless the absolute value is 0; RES0 is the signed value, sign-extended, from -63 to 63 whatever the tables hold, also
tables that break the invariants, on which the decoding is the model's choice (log 18). With the tables of
DQ_BASE_N = 4 (log 15) the escape is never taken and RES0 is from -3 to 3. -/
def Obligations.DqReadFollowsItsSymbols : Prop :=
  decode 0x46000000#64 = .instr .srDq ∧
  (∀ s : State, s.status.adValid = true → s.ad.base.toNat + s.ad.size.toNat ≤ s.bufLen →
    let b := decodeAdaptive .dqBase s
    let d := decodeAdaptive .dqDiff b.state
    let a := if 4 ≤ b.sym then min (4 + d.sym) 63 else b.sym
    let u := if 4 ≤ b.sym then d.state else b.state
    let g : Decoding := if a = 0 then ⟨0, u⟩ else decodeAdaptive .dqSign u
    ∃ t, exec .srDq s = .next t ∧ AfterTypedRead s t ∧
      t.res0.toInt = (if g.sym = 1 then -(a : Int) else a) ∧
      -63 ≤ t.res0.toInt ∧ t.res0.toInt ≤ 63 ∧ t.ad = g.state.ad ∧ t.ram = g.state.ram ∧
      (s.Inv → b.sym ≤ 3 ∧ g.sym ≤ 1 ∧ -3 ≤ t.res0.toInt ∧ t.res0.toInt ≤ 3)) ∧
  (∀ s : State, s.status.adValid = false →
    exec .srDq s = .next { s with
      status := { s.status with err := .notInitialised, sticky := true, errUnit := .bit }
      erroff := 0#64 })

/-- The typed reads (spec/43_symbol_router.md R205): the AD_VALID check first, then SR.PART's BSL check, then the result;
once the checks pass they succeed, and they never touch the Bit Cursor: all they change is RES0, ERR, the decoder's
position, V and R, and the CDF RAM. -/
def Obligations.TypedReadsSucceedOnceChecked : Prop :=
  ∀ (s : State) (i : Instr), s.Inv → i.typedRead = true →
    (s.status.adValid = false →
      exec i s = .next { s with
        status := { s.status with err := .notInitialised, sticky := true, errUnit := .bit }
        erroff := 0#64 }) ∧
    (s.status.adValid = true → (∀ bsl hr hc, i = .srPart bsl hr hc → 3 ≤ bsl) →
      ∃ t, exec i s = .next t ∧ AfterTypedRead s t ∧ t.bc = s.bc) ∧
    (s.status.adValid = true → ∀ bsl hr hc, i = .srPart bsl hr hc → bsl < 3 →
      exec i s = .next { s with
        status := { s.status with err := .parse, sticky := true, errUnit := .bit }
        erroff := BitVec.ofNat 64 s.ad.bitpos })

/-! ### The whole machine -/

/-- Every command completes from every state that meets the invariants (spec/60_exceptions.md §1, "Synchronous
completion"). -/
def Obligations.EveryCommandCompletes : Prop :=
  ∀ (i : Instr) (s : State), s.Inv → ∃ t, exec i s = .next t

/-- Every step keeps the invariants: the windows inside BUF with BC_POS in its window, R and V in their bounds, every
CDF table in order, the ROM well-formed, BUF in canonical form. -/
def Obligations.StepKeepsTheInvariants : Prop :=
  ∀ s t : State, s.Inv → step s = .next t → t.Inv

/-- The invariants hold at State.reset, whatever DEFAULT_CDF is. -/
def Obligations.ResetMeetsTheInvariants : Prop := State.reset.Inv

/-- No command stores to BUF or changes BUF_LEN, the ROM, the ARG registers or the host side: every byte of BUF reads as
before (spec/20_memory.md §1, "The block has no memory write"; spec/10_state.md §2 for the ARG registers, §5 for the ROM).
The host side, the fields host, driver and readData, is the model's own (log 2, log 13, log 12). -/
def Obligations.NoCommandWritesBufOrRom : Prop :=
  ∀ (i : Instr) (s t : State), exec i s = .next t →
    (∀ a, memRead t a = memRead s a) ∧ t.bufLen = s.bufLen ∧ t.rom = s.rom ∧
      t.arg0 = s.arg0 ∧ t.arg1 = s.arg1 ∧ t.host = s.host ∧ t.driver = s.driver ∧
      t.readData = s.readData

/-- The Bit Cursor and the decoder share nothing but STATUS and ERROFF (spec/70_reset_and_hazards.md §4, "Shared-state
hazards"): a command of one unit leaves the other's state, and does the same whatever that holds. -/
def Obligations.CursorAndDecoderShareNoState : Prop :=
  ∀ (i : Instr) (s : State) (a : ArithDecoder) (m : CdfRam) (b : BitCursor) (v : Bool),
    (i.ofCursor = true →
      exec i { s with ad := a, ram := m, status := { s.status with adValid := v } } =
        mapNext (fun t => { t with ad := a, ram := m, status := { t.status with adValid := v } })
          (exec i s) ∧
      ∀ t, exec i s = .next t →
        t.ad = s.ad ∧ t.ram = s.ram ∧ t.status.adValid = s.status.adValid) ∧
    (i.ofCursor = false →
      exec i { s with bc := b, status := { s.status with bcValid := v } } =
        mapNext (fun t => { t with bc := b, status := { t.status with bcValid := v } }) (exec i s) ∧
      ∀ t, exec i s = .next t → t.bc = s.bc ∧ t.status.bcValid = s.status.bcValid)

/-- What reset leaves unspecified is never observed (spec/70_reset_and_hazards.md §1, the rule after the reset table): while
a unit is not valid, any contents of its fields give the same outcome, the fields themselves apart as long as the unit
stays not valid. So no run from reset depends on the zeros that State.reset holds there (log 8). -/
def Obligations.UnspecifiedFieldsAreNeverObserved : Prop :=
  ∀ (i : Instr) (s : State) (b : BitCursor) (a : ArithDecoder),
    (s.status.bcValid = false →
      exec i { s with bc := b } =
        mapNext (fun t => if t.status.bcValid then t else { t with bc := b }) (exec i s)) ∧
    (s.status.adValid = false →
      exec i { s with ad := a } =
        mapNext (fun t => if t.status.adValid then t else { t with ad := a }) (exec i s))

/-- A command reads no byte of BUF outside the one window of its unit (spec/40_bit_cursor.md §5 and spec/20_memory.md §1):
with a BUF that agrees there the outcome is the same. A Bit Cursor command or VI.DEC reads the BC window alone, a typed
read the tile alone, AD.INIT the tile it sets alone, and the commands named last read no byte at all. -/
def Obligations.CommandsReadOnlyTheirWindows : Prop :=
  ∀ (i : Instr) (s : State) (m : Memory),
    let same := exec i { s with buf := m } = mapNext (fun t => { t with buf := m }) (exec i s)
    (i.ofCursor = true → BytesAgree s m s.bc.base s.bc.len → same) ∧
    (i.typedRead = true → BytesAgree s m s.ad.base s.ad.size → same) ∧
    ((∃ k, i = .adInit k) → BytesAgree s m s.arg0 s.arg1 → same) ∧
    (i = .bcInit ∨ i = .bcSkip ∨ i = .bcAlign ∨ i = .bcPos ∨ i = .bcRem ∨ i = .adPos ∨ i = .srCtxrst ∨
        (∃ bsl, i = .srPart bsl false false) →
      same)

/-- AD_BITPOS (spec/10_state.md §4 and spec/70_reset_and_hazards.md §5): AD.INIT sets it to 15, a command's symbols each
add at most 13, and no other command changes it. -/
def Obligations.TilePositionGrowsBySymbols : Prop :=
  ∀ (i : Instr) (s t : State), s.Inv → exec i s = .next t →
    ((∃ k, i = .adInit k) → t.status.err = .ok → t.ad.bitpos = 15) ∧
    ((∀ k, i ≠ .adInit k) →
      s.ad.bitpos ≤ t.ad.bitpos ∧ t.ad.bitpos ≤ s.ad.bitpos + 13 * i.maxSymbols)

/-- A command changes no table but its own, and AD.INIT with K = 1 changes none (spec/43_symbol_router.md §1,
"Context selection" and "Carry-over"). -/
def Obligations.TablesChangeOnlyByTheirReads : Prop :=
  ∀ (i : Instr) (s t : State) (id : TableId), exec i s = .next t → id ∉ i.tables →
    t.ram.get id = s.ram.get id

/-- DecodeAdaptive (spec/43_symbol_router.md R206): DecodeSymbol on the table's entries, then Adapt of that table toward
the symbol; no other table and nothing but the decoder's own state changes. -/
def Obligations.DecodeAdaptiveDecodesThenAdapts : Prop :=
  ∀ (s : State) (id : TableId),
    let d := decodeSymbol (s.ram.get id).cdf s
    let r := decodeAdaptive id s
    r.sym = d.sym ∧ r.state.ad = d.state.ad ∧
      r.state.ram.get id = (s.ram.get id).adapt d.sym ∧
      (∀ u, u ≠ id → r.state.ram.get u = s.ram.get u) ∧
      r.state = { s with ad := r.state.ad, ram := r.state.ram }
end

