-- ==== Sys2Proof/Laws/State.lean ====
section
/-! SUPPORT. One simp lemma for each shared update: what it leaves, field by field, and what it writes. -/

namespace Sys2Proof.Machine

/-! ### The end of a command -/

@[simp] theorem raise_writes (e : Err) (off : Word) (u : OffUnit) (s : State) :
    (raise e off u s).status.err = e ∧ (raise e off u s).status.sticky = true ∧
    (raise e off u s).status.errUnit = u ∧ (raise e off u s).erroff = off :=
  ⟨rfl, rfl, rfl, rfl⟩

@[simp] theorem raise_leaves (e : Err) (off : Word) (u : OffUnit) (s : State) :
    (raise e off u s).arg0 = s.arg0 ∧ (raise e off u s).arg1 = s.arg1 ∧
    (raise e off u s).res0 = s.res0 ∧ (raise e off u s).res1 = s.res1 ∧
    (raise e off u s).status.bcValid = s.status.bcValid ∧
    (raise e off u s).status.adValid = s.status.adValid ∧
    (raise e off u s).bc = s.bc ∧ (raise e off u s).ad = s.ad ∧
    (raise e off u s).ram = s.ram ∧ (raise e off u s).rom = s.rom ∧
    (raise e off u s).buf = s.buf ∧ (raise e off u s).bufLen = s.bufLen ∧
    (raise e off u s).host = s.host ∧ (raise e off u s).driver = s.driver ∧
    (raise e off u s).readData = s.readData :=
  ⟨rfl, rfl, rfl, rfl, rfl, rfl, rfl, rfl, rfl, rfl, rfl, rfl, rfl, rfl, rfl⟩

@[simp] theorem succeed_status (s : State) :
    (succeed s).status.err = .ok ∧ (succeed s).status.sticky = s.status.sticky ∧
    (succeed s).status.errUnit = s.status.errUnit ∧
    (succeed s).status.bcValid = s.status.bcValid ∧
    (succeed s).status.adValid = s.status.adValid :=
  ⟨rfl, rfl, rfl, rfl, rfl⟩

@[simp] theorem succeed_leaves (s : State) :
    (succeed s).arg0 = s.arg0 ∧ (succeed s).arg1 = s.arg1 ∧
    (succeed s).res0 = s.res0 ∧ (succeed s).res1 = s.res1 ∧ (succeed s).erroff = s.erroff ∧
    (succeed s).bc = s.bc ∧ (succeed s).ad = s.ad ∧ (succeed s).ram = s.ram ∧
    (succeed s).rom = s.rom ∧ (succeed s).buf = s.buf ∧ (succeed s).bufLen = s.bufLen ∧
    (succeed s).host = s.host ∧ (succeed s).driver = s.driver ∧
    (succeed s).readData = s.readData :=
  ⟨rfl, rfl, rfl, rfl, rfl, rfl, rfl, rfl, rfl, rfl, rfl, rfl, rfl, rfl⟩

@[simp] theorem succeedWith_status (v : Word) (s : State) :
    (succeedWith v s).status.err = .ok ∧ (succeedWith v s).status.sticky = s.status.sticky ∧
    (succeedWith v s).status.errUnit = s.status.errUnit ∧
    (succeedWith v s).status.bcValid = s.status.bcValid ∧
    (succeedWith v s).status.adValid = s.status.adValid :=
  ⟨rfl, rfl, rfl, rfl, rfl⟩

@[simp] theorem succeedWith_res0 (v : Word) (s : State) : (succeedWith v s).res0 = v := rfl

@[simp] theorem succeedWith_leaves (v : Word) (s : State) :
    (succeedWith v s).arg0 = s.arg0 ∧ (succeedWith v s).arg1 = s.arg1 ∧
    (succeedWith v s).res1 = s.res1 ∧ (succeedWith v s).erroff = s.erroff ∧
    (succeedWith v s).bc = s.bc ∧ (succeedWith v s).ad = s.ad ∧ (succeedWith v s).ram = s.ram ∧
    (succeedWith v s).rom = s.rom ∧ (succeedWith v s).buf = s.buf ∧
    (succeedWith v s).bufLen = s.bufLen ∧ (succeedWith v s).host = s.host ∧
    (succeedWith v s).driver = s.driver ∧ (succeedWith v s).readData = s.readData :=
  ⟨rfl, rfl, rfl, rfl, rfl, rfl, rfl, rfl, rfl, rfl, rfl, rfl, rfl⟩

/-! ### Cursor, tile and table updates -/

@[simp] theorem advanceCursor_bc (n : Nat) (s : State) :
    (advanceCursor n s).bc.base = s.bc.base ∧ (advanceCursor n s).bc.len = s.bc.len ∧
    (advanceCursor n s).bc.pos = BitVec.ofNat 64 (s.bc.pos.toNat + n) :=
  ⟨rfl, rfl, rfl⟩

@[simp] theorem advanceCursor_leaves (n : Nat) (s : State) :
    (advanceCursor n s).arg0 = s.arg0 ∧ (advanceCursor n s).arg1 = s.arg1 ∧
    (advanceCursor n s).res0 = s.res0 ∧ (advanceCursor n s).res1 = s.res1 ∧
    (advanceCursor n s).status = s.status ∧ (advanceCursor n s).erroff = s.erroff ∧
    (advanceCursor n s).ad = s.ad ∧ (advanceCursor n s).ram = s.ram ∧
    (advanceCursor n s).rom = s.rom ∧ (advanceCursor n s).buf = s.buf ∧
    (advanceCursor n s).bufLen = s.bufLen ∧ (advanceCursor n s).host = s.host ∧
    (advanceCursor n s).driver = s.driver ∧ (advanceCursor n s).readData = s.readData :=
  ⟨rfl, rfl, rfl, rfl, rfl, rfl, rfl, rfl, rfl, rfl, rfl, rfl, rfl, rfl⟩

@[simp] theorem advanceTile_ad (n : Nat) (s : State) :
    (advanceTile n s).ad.base = s.ad.base ∧ (advanceTile n s).ad.size = s.ad.size ∧
    (advanceTile n s).ad.bitpos = s.ad.bitpos + n ∧ (advanceTile n s).ad.value = s.ad.value ∧
    (advanceTile n s).ad.range = s.ad.range :=
  ⟨rfl, rfl, rfl, rfl, rfl⟩

@[simp] theorem advanceTile_leaves (n : Nat) (s : State) :
    (advanceTile n s).arg0 = s.arg0 ∧ (advanceTile n s).arg1 = s.arg1 ∧
    (advanceTile n s).res0 = s.res0 ∧ (advanceTile n s).res1 = s.res1 ∧
    (advanceTile n s).status = s.status ∧ (advanceTile n s).erroff = s.erroff ∧
    (advanceTile n s).bc = s.bc ∧ (advanceTile n s).ram = s.ram ∧
    (advanceTile n s).rom = s.rom ∧ (advanceTile n s).buf = s.buf ∧
    (advanceTile n s).bufLen = s.bufLen ∧ (advanceTile n s).host = s.host ∧
    (advanceTile n s).driver = s.driver ∧ (advanceTile n s).readData = s.readData :=
  ⟨rfl, rfl, rfl, rfl, rfl, rfl, rfl, rfl, rfl, rfl, rfl, rfl, rfl, rfl⟩

@[simp] theorem cdfReload_ram (s : State) : (cdfReload s).ram = s.rom.reload := rfl

@[simp] theorem cdfReload_leaves (s : State) :
    (cdfReload s).arg0 = s.arg0 ∧ (cdfReload s).arg1 = s.arg1 ∧
    (cdfReload s).res0 = s.res0 ∧ (cdfReload s).res1 = s.res1 ∧
    (cdfReload s).status = s.status ∧ (cdfReload s).erroff = s.erroff ∧
    (cdfReload s).bc = s.bc ∧ (cdfReload s).ad = s.ad ∧ (cdfReload s).rom = s.rom ∧
    (cdfReload s).buf = s.buf ∧ (cdfReload s).bufLen = s.bufLen ∧ (cdfReload s).host = s.host ∧
    (cdfReload s).driver = s.driver ∧ (cdfReload s).readData = s.readData :=
  ⟨rfl, rfl, rfl, rfl, rfl, rfl, rfl, rfl, rfl, rfl, rfl, rfl, rfl, rfl⟩

@[simp] theorem adaptTable_ram (t : TableId) (sym : Nat) (s : State) :
    (adaptTable t sym s).ram = s.ram.set t ((s.ram.get t).adapt sym) := rfl

@[simp] theorem adaptTable_leaves (t : TableId) (sym : Nat) (s : State) :
    (adaptTable t sym s).arg0 = s.arg0 ∧ (adaptTable t sym s).arg1 = s.arg1 ∧
    (adaptTable t sym s).res0 = s.res0 ∧ (adaptTable t sym s).res1 = s.res1 ∧
    (adaptTable t sym s).status = s.status ∧ (adaptTable t sym s).erroff = s.erroff ∧
    (adaptTable t sym s).bc = s.bc ∧ (adaptTable t sym s).ad = s.ad ∧
    (adaptTable t sym s).rom = s.rom ∧ (adaptTable t sym s).buf = s.buf ∧
    (adaptTable t sym s).bufLen = s.bufLen ∧ (adaptTable t sym s).host = s.host ∧
    (adaptTable t sym s).driver = s.driver ∧ (adaptTable t sym s).readData = s.readData :=
  ⟨rfl, rfl, rfl, rfl, rfl, rfl, rfl, rfl, rfl, rfl, rfl, rfl, rfl, rfl⟩

@[simp] theorem renormalise_ad (r v : Nat) (s : State) :
    (renormalise r v s).ad.base = s.ad.base ∧ (renormalise r v s).ad.size = s.ad.size ∧
    (renormalise r v s).ad.bitpos = s.ad.bitpos + renormShift r ∧
    (renormalise r v s).ad.range = BitVec.ofNat 16 (r <<< renormShift r) ∧
    (renormalise r v s).ad.value =
      BitVec.ofNat 16 ((((v + 1) <<< renormShift r) - 1) ^^^ fetchValue s (renormShift r)) :=
  ⟨rfl, rfl, rfl, rfl, rfl⟩

@[simp] theorem renormalise_leaves (r v : Nat) (s : State) :
    (renormalise r v s).arg0 = s.arg0 ∧ (renormalise r v s).arg1 = s.arg1 ∧
    (renormalise r v s).res0 = s.res0 ∧ (renormalise r v s).res1 = s.res1 ∧
    (renormalise r v s).status = s.status ∧ (renormalise r v s).erroff = s.erroff ∧
    (renormalise r v s).bc = s.bc ∧ (renormalise r v s).ram = s.ram ∧
    (renormalise r v s).rom = s.rom ∧ (renormalise r v s).buf = s.buf ∧
    (renormalise r v s).bufLen = s.bufLen ∧ (renormalise r v s).host = s.host ∧
    (renormalise r v s).driver = s.driver ∧ (renormalise r v s).readData = s.readData :=
  ⟨rfl, rfl, rfl, rfl, rfl, rfl, rfl, rfl, rfl, rfl, rfl, rfl, rfl, rfl⟩

/-! ### The tables -/

@[simp] theorem CdfRam.get_tabulate (f : TableId → Table) (t : TableId) :
    (CdfRam.tabulate f).get t = f t := by cases t <;> rfl

@[simp] theorem CdfRam.get_set_same (c : CdfRam) (t : TableId) (x : Table) :
    (c.set t x).get t = x := by cases t <;> rfl

theorem CdfRam.get_set_of_ne (c : CdfRam) {t u : TableId} (x : Table) (h : u ≠ t) :
    (c.set t x).get u = c.get u := by cases t <;> cases u <;> first | rfl | exact absurd rfl h

theorem CdfRam.get_set (c : CdfRam) (t u : TableId) (x : Table) :
    (c.set t x).get u = if u = t then x else c.get u := by
  split
  · next h => subst h; simp
  · next h => exact c.get_set_of_ne x h

@[simp] theorem CdfRam.get_reload (c : CdfRam) (t : TableId) :
    c.reload.get t = { cdf := (c.get t).cdf, cnt := 0#6 } := by simp [CdfRam.reload]

/-- Two table sets are equal when every table is. -/
theorem CdfRam.ext_get {c d : CdfRam} (h : ∀ t, c.get t = d.get t) : c = d := by
  cases c; cases d
  simp only [CdfRam.mk.injEq]
  exact ⟨h .part8, h .part16, h .part32, h .part64, h .part128, h .skip, h .intra, h .inter,
    h .mvClass, h .mvBits, h .mvSign, h .dqBase, h .dqDiff, h .dqSign⟩

theorem TableId.mem_all (t : TableId) : t ∈ TableId.all := by cases t <;> decide

theorem CdfRam.wf_iff (c : CdfRam) : c.wf = true ↔ ∀ t, (c.get t).wf t.symbols = true := by
  simp only [CdfRam.wf, List.all_eq_true]
  exact ⟨fun h t => h t t.mem_all, fun h t _ => h t⟩

theorem CdfRam.wfDefault_iff (c : CdfRam) :
    c.wfDefault = true ↔ ∀ t, (c.get t).wfDefault t.symbols = true := by
  simp only [CdfRam.wfDefault, List.all_eq_true]
  exact ⟨fun h t => h t t.mem_all, fun h t _ => h t⟩

theorem TableId.symbols_range (t : TableId) : 2 ≤ t.symbols ∧ t.symbols ≤ 16 := by
  cases t <;> decide

/-- The free DEFAULT_CDF passes the check of spec/43_symbol_router.md R202, whatever it is. -/
theorem defaultCdf_wfDefault : defaultCdf.wfDefault = true := by
  unfold defaultCdf
  split
  · assumption
  · decide

end Sys2Proof.Machine
end

