-- ==== Sys2Proof/Laws/Memory.lean ====
section
/-! SUPPORT. BUF as data: reading after writing, and the canonical form kept by every memory operation. -/

namespace Sys2Proof.Machine

theorem Memory.wfFrom_cons {hi lo k : Nat} {b : Byte} {m : Memory} :
    Memory.wfFrom hi lo ((k, b) :: m) = true ↔
      lo ≤ k ∧ k < hi ∧ b ≠ 0#8 ∧ Memory.wfFrom hi (k + 1) m = true := by
  simp [Memory.wfFrom, and_assoc]

/-- A lower first bound only relaxes the form. -/
theorem Memory.wfFrom_mono {hi lo lo' : Nat} {m : Memory} (h : Memory.wfFrom hi lo m = true)
    (hl : lo' ≤ lo) : Memory.wfFrom hi lo' m = true := by
  cases m with
  | nil => rfl
  | cons c m =>
    obtain ⟨k, b⟩ := c
    rw [Memory.wfFrom_cons] at h ⊢
    exact ⟨by omega, h.2⟩

theorem Memory.read_eq_zero_of_wfFrom {hi lo a : Nat} {m : Memory}
    (h : Memory.wfFrom hi lo m = true) (ha : a < lo ∨ hi ≤ a) : Memory.read m a = 0#8 := by
  induction m generalizing lo with
  | nil => rfl
  | cons c m ih =>
    obtain ⟨k, b⟩ := c
    rw [Memory.wfFrom_cons] at h
    rw [Memory.read, if_neg (by omega)]
    exact ih h.2.2.2 (by omega)

/-- A read after a write gives the written byte at its address and leaves every other one. -/
theorem Memory.read_write {hi lo : Nat} {m : Memory} (h : Memory.wfFrom hi lo m = true)
    (a b : Nat) (x : Byte) :
    Memory.read (Memory.write m a x) b = if b = a then x else Memory.read m b := by
  induction m generalizing lo with
  | nil =>
    by_cases hx : x = 0#8
    · simp [Memory.write, Memory.read, hx]
    · by_cases hb : b = a
      · simp [Memory.write, Memory.read, hx, hb]
      · simp [Memory.write, Memory.read, hx, hb, Ne.symm hb]
  | cons c m ih =>
    obtain ⟨k, y⟩ := c
    rw [Memory.wfFrom_cons] at h
    have hm : ∀ b, b < k + 1 → Memory.read m b = 0#8 :=
      fun b hb => Memory.read_eq_zero_of_wfFrom h.2.2.2 (Or.inl hb)
    rw [Memory.write]
    by_cases h1 : a < k
    · have ha : Memory.read m a = 0#8 := hm a (by omega)
      have hka : ¬k = a := by omega
      by_cases hx : x = 0#8 <;> by_cases hb : b = a
      · simp [h1, hx, hb, Memory.read, hka, ha]
      · simp [h1, hx, hb]
      · simp [h1, hx, hb, Memory.read]
      · simp [h1, hx, hb, Memory.read, Ne.symm hb]
    · by_cases h2 : a = k
      · have ha : Memory.read m a = 0#8 := hm a (by omega)
        subst h2
        by_cases hx : x = 0#8 <;> by_cases hb : b = a
        · simp [hx, hb, ha]
        · simp [hx, hb, Memory.read, Ne.symm hb]
        · simp [hx, hb, Memory.read]
        · simp [hx, hb, Memory.read, Ne.symm hb]
      · rw [if_neg h1, if_neg h2, Memory.read, Memory.read, ih h.2.2.2]
        by_cases hb : k = b
        · simp [hb, show ¬b = a by omega]
        · simp [hb]

/-- Writing below the size keeps the canonical form. -/
theorem Memory.write_wfFrom {hi lo a : Nat} {m : Memory} (x : Byte)
    (h : Memory.wfFrom hi lo m = true) (hlo : lo ≤ a) (hhi : a < hi) :
    Memory.wfFrom hi lo (Memory.write m a x) = true := by
  induction m generalizing lo with
  | nil => by_cases hx : x = 0#8 <;> simp [Memory.write, Memory.wfFrom, hx, hlo, hhi]
  | cons c m ih =>
    obtain ⟨k, b⟩ := c
    obtain ⟨h1, h2, h3, h4⟩ := Memory.wfFrom_cons.mp h
    rw [Memory.write]
    by_cases c1 : a < k
    · rw [if_pos c1]
      split
      · exact h
      · next hx =>
        exact Memory.wfFrom_cons.mpr ⟨hlo, hhi, hx, Memory.wfFrom_cons.mpr ⟨c1, h2, h3, h4⟩⟩
    · rw [if_neg c1]
      by_cases c2 : a = k
      · subst c2
        rw [if_pos rfl]
        split
        · exact Memory.wfFrom_mono h4 (by omega)
        · next hx => exact Memory.wfFrom_cons.mpr ⟨hlo, hhi, hx, h4⟩
      · rw [if_neg c2]
        exact Memory.wfFrom_cons.mpr ⟨h1, h2, h3, ih h4 (by omega)⟩

/-- Loading bytes gives the canonical form. -/
theorem Memory.ofBytesFrom_wfFrom (xs : List Byte) (a lo : Nat) (h : lo ≤ a) :
    Memory.wfFrom (a + xs.length) lo (Memory.ofBytesFrom a xs) = true := by
  induction xs generalizing a lo with
  | nil => rfl
  | cons x xs ih =>
    have key : ∀ lo, lo ≤ a + 1 →
        Memory.wfFrom (a + (x :: xs).length) lo (Memory.ofBytesFrom (a + 1) xs) = true := by
      intro lo hlo
      have := ih (a + 1) lo hlo
      simpa [Nat.add_assoc, Nat.add_comm 1] using this
    rw [Memory.ofBytesFrom]
    split
    · exact key lo (by omega)
    · next hx => exact Memory.wfFrom_cons.mpr ⟨h, by simp, hx, key _ (Nat.le_refl _)⟩

/-- Loaded bytes read back, and nothing else is there. -/
theorem Memory.read_ofBytesFrom (xs : List Byte) (a b : Nat) :
    Memory.read (Memory.ofBytesFrom a xs) b = if a ≤ b then xs.getD (b - a) 0#8 else 0#8 := by
  induction xs generalizing a with
  | nil => simp [Memory.ofBytesFrom, Memory.read]
  | cons x xs ih =>
    have key : Memory.read (Memory.ofBytesFrom a (x :: xs)) b =
        if a = b then x else Memory.read (Memory.ofBytesFrom (a + 1) xs) b := by
      by_cases hx : x = 0#8
      · by_cases hb : a = b
        · subst hb; simp [Memory.ofBytesFrom, hx, ih]
        · simp [Memory.ofBytesFrom, hx, hb]
      · simp [Memory.ofBytesFrom, hx, Memory.read]
    rw [key, ih]
    by_cases hb : a = b
    · subst hb; simp
    · by_cases h : a ≤ b
      · obtain ⟨k, rfl⟩ : ∃ k, b = a + 1 + k := ⟨b - (a + 1), by omega⟩
        have e : a + 1 + k - a = k + 1 := by omega
        simp [hb, h, e]
      · have h3 : ¬a + 1 ≤ b := by omega
        simp [hb, h, h3]

/-- The empty memory of State.reset is canonical. -/
theorem reset_buf_wf : State.reset.buf.wf State.reset.bufLen = true := rfl

end Sys2Proof.Machine
end

