-- ==== Sys2Proof/Laws/Bits.lean ====
section
/-! SUPPORT. Bit fields: how large an assembled field is, which bit stands where, and what it depends on. -/

namespace Sys2Proof.Machine

theorem toNat_bool_le (b : Bool) : b.toNat ≤ 1 := by cases b <;> decide

/-! ### MSB-first -/

theorem assembleMsb_lt (bit : Nat → Bool) (p n : Nat) : assembleMsb bit p n < 2 ^ n := by
  induction n with
  | zero => simp [assembleMsb]
  | succ n ih =>
    have := toNat_bool_le (bit (p + n))
    rw [assembleMsb, Nat.pow_succ]; omega

theorem assembleMsb_congr {f g : Nat → Bool} {p n : Nat} (h : ∀ j, j < n → f (p + j) = g (p + j)) :
    assembleMsb f p n = assembleMsb g p n := by
  induction n with
  | zero => rfl
  | succ n ih =>
    rw [assembleMsb, assembleMsb, ih fun j hj => h j (by omega), h n (by omega)]

/-- Bit `j` in reading order lands at bit `n - 1 - j`. -/
theorem assembleMsb_testBit (bit : Nat → Bool) (p : Nat) {n j : Nat} (hj : j < n) :
    (assembleMsb bit p n).testBit (n - 1 - j) = bit (p + j) := by
  induction n with
  | zero => omega
  | succ n ih =>
    rw [assembleMsb]
    by_cases h : j = n
    · subst h
      have e : j + 1 - 1 - j = 0 := by omega
      rw [e, Nat.testBit_zero]
      cases bit (p + j) <;> simp
    · have e : n + 1 - 1 - j = (n - 1 - j) + 1 := by omega
      have d : (2 * assembleMsb bit p n + (bit (p + n)).toNat) / 2 = assembleMsb bit p n := by
        have := toNat_bool_le (bit (p + n)); omega
      rw [e, Nat.testBit_succ, d]
      exact ih (by omega)

/-! ### LSB-first -/

theorem assembleLsb_lt (bit : Nat → Bool) (p n : Nat) : assembleLsb bit p n < 2 ^ n := by
  induction n with
  | zero => simp [assembleLsb]
  | succ n ih =>
    rw [assembleLsb, Nat.pow_succ]
    cases bit (p + n) <;> simp <;> omega

theorem assembleLsb_congr {f g : Nat → Bool} {p n : Nat} (h : ∀ j, j < n → f (p + j) = g (p + j)) :
    assembleLsb f p n = assembleLsb g p n := by
  induction n with
  | zero => rfl
  | succ n ih =>
    rw [assembleLsb, assembleLsb, ih fun j hj => h j (by omega), h n (by omega)]

/-- Bit `j` in reading order lands at bit `j`. -/
theorem assembleLsb_testBit (bit : Nat → Bool) (p : Nat) {n j : Nat} (hj : j < n) :
    (assembleLsb bit p n).testBit j = bit (p + j) := by
  induction n with
  | zero => omega
  | succ n ih =>
    rw [assembleLsb, Nat.mul_comm, Nat.add_comm]
    by_cases h : j = n
    · subst h
      have := assembleLsb_lt bit p j
      rw [Nat.testBit_two_pow_mul_add _ this]
      cases bit (p + j) <;> simp
    · have hlt := assembleLsb_lt bit p n
      rw [Nat.testBit_two_pow_mul_add _ hlt, if_pos (by omega)]
      exact ih (by omega)

/-! ### Fields of the two windows -/

theorem gather_lt (s : State) (p n : Nat) (o : Order) : gather s p n o < 2 ^ n := by
  cases o
  · exact assembleMsb_lt _ _ _
  · exact assembleLsb_lt _ _ _

/-- Where bit `j` of a field lands, in both orders. -/
theorem gather_testBit (s : State) (p : Nat) (o : Order) {n j : Nat} (hj : j < n) :
    (gather s p n o).testBit (match o with | .msb => n - 1 - j | .lsb => j) = bitAt s o (p + j) := by
  cases o
  · exact assembleMsb_testBit _ _ hj
  · exact assembleLsb_testBit _ _ hj

/-- A field inside the first `w` bits of a window depends on the window's bytes alone. -/
theorem gather_congr {s t : State} {p n w : Nat} (o : Order) (hb : t.bc.base = s.bc.base)
    (hm : ∀ a, s.bc.base.toNat ≤ a → a < s.bc.base.toNat + w → memRead t a = memRead s a)
    (h : p + n ≤ 8 * w) : gather t p n o = gather s p n o := by
  have key : ∀ j, j < n → bitAt t o (p + j) = bitAt s o (p + j) := by
    intro j hj
    rw [bitAt, bitAt, hb, hm _ (by omega) (by omega)]
  cases o
  · exact assembleMsb_congr key
  · exact assembleLsb_congr key

theorem fetchValue_lt (s : State) (n : Nat) : fetchValue s n < 2 ^ n := assembleMsb_lt _ _ _

/-- Tile bits depend on the tile's place, the position and the tile's bytes alone. -/
theorem fetchValue_congr {s t : State} (n : Nat) (hb : t.ad.base = s.ad.base)
    (hs : t.ad.size = s.ad.size) (hp : t.ad.bitpos = s.ad.bitpos)
    (hm : ∀ a, s.ad.base.toNat ≤ a → a < s.ad.base.toNat + s.ad.size.toNat →
      memRead t a = memRead s a) : fetchValue t n = fetchValue s n := by
  unfold fetchValue
  rw [hp]
  apply assembleMsb_congr
  intro j _
  unfold tileBit
  rw [hb, hs]
  split
  · rw [hm _ (by omega) (by omega)]
  · rfl

/-- Adding 7 and clearing the low three bits rounds up to a multiple of 8. -/
theorem roundUp8_toNat (p : Word) (h : p.toNat + 7 < 2 ^ 64) :
    ((p + 7#64) &&& ~~~7#64).toNat = (p.toNat + 7) / 8 * 8 := by
  have low : ∀ i, i < 64 → (~~~7#64).getLsbD i = decide (3 ≤ i) := by decide
  have e : (p + 7#64) &&& ~~~7#64 = BitVec.ofNat 64 ((p + 7#64).toNat / 2 ^ 3 * 2 ^ 3) := by
    apply BitVec.eq_of_getLsbD_eq
    intro i hi
    rw [BitVec.getLsbD_and, low i hi, BitVec.getLsbD_ofNat, Nat.mul_comm,
      Nat.testBit_two_pow_mul, Nat.testBit_div_two_pow]
    by_cases h3 : 3 ≤ i
    · rw [Nat.sub_add_cancel h3]
      simp [h3, hi, BitVec.getLsbD]
    · simp [h3]
  rw [e, BitVec.toNat_ofNat, BitVec.toNat_add]
  simp only [BitVec.toNat_ofNat]
  omega

end Sys2Proof.Machine
end

