-- ==== Sys2Proof/Laws/Coder.lean ====
section
/-! SUPPORT. The decoder's procedures: the search for V's bucket, Renormalise, Adapt, and what a decoding step may change. -/

namespace Sys2Proof.Machine

/-! ### Tables -/

theorem risesFrom_cons_cons {lo : Nat} {c d : Half} {cs : List Half} :
    risesFrom lo (c :: d :: cs) = true ↔
      lo ≤ c.toNat ∧ c.toNat < 32768 ∧ risesFrom c.toNat (d :: cs) = true := by
  simp [risesFrom, and_assoc]

/-- The rising entries by index: at least `lo` below the last, never falling, 32768 at the end. -/
theorem risesFrom_iff {lo : Nat} {cs : List Half} :
    risesFrom lo cs = true ↔
      0 < cs.length ∧ cs.getD (cs.length - 1) 0#16 = 32768#16 ∧
      (∀ i, i + 1 < cs.length →
        lo ≤ (cs.getD i 0#16).toNat ∧ (cs.getD i 0#16).toNat < 32768 ∧
        (cs.getD i 0#16).toNat ≤ (cs.getD (i + 1) 0#16).toNat) := by
  induction cs generalizing lo with
  | nil => simp [risesFrom]
  | cons c cs ih =>
    cases cs with
    | nil =>
      simp only [risesFrom, List.length_cons, List.length_nil, beq_iff_eq]
      constructor
      · intro h
        exact ⟨by omega, BitVec.eq_of_toNat_eq h, fun i hi => by omega⟩
      · intro h
        have := congrArg BitVec.toNat h.2.1
        simpa using this
    | cons d cs =>
      rw [risesFrom_cons_cons, ih]
      constructor
      · rintro ⟨h1, h2, h3, h4, h5⟩
        refine ⟨by simp, by simpa using h4, ?_⟩
        intro i hi
        cases i with
        | zero =>
          refine ⟨by simpa using h1, by simpa using h2, ?_⟩
          rcases cs with - | ⟨e, cs⟩
          · have : d = 32768#16 := by simpa using h4
            subst this; simpa using h2.le
          · have := (h5 0 (by simp)).1; simpa using this
        | succ i =>
          have := h5 i (by simpa using hi)
          simp only [List.getD_cons_succ]
          exact ⟨by omega, this.2⟩
      · rintro ⟨-, h4, h5⟩
        have h0 := h5 0 (by simp)
        simp only [List.getD_cons_zero, List.getD_cons_succ] at h0
        refine ⟨h0.1, h0.2.1, by simp, by simpa using h4, ?_⟩
        intro i hi
        have h := h5 (i + 1) (by simpa using hi)
        simp only [List.getD_cons_succ] at h
        refine ⟨?_, h.2⟩
        clear h h4
        induction i with
        | zero => exact h0.2.2
        | succ i ihi =>
          have := ihi (by simp at hi ⊢; omega)
          have h6 := h5 (i + 1) (by simp at hi ⊢; omega)
          simp only [List.getD_cons_succ] at h6 ⊢
          omega

/-- The CDF RAM invariant of a table, entry by entry (spec/10_state.md R36). -/
theorem Table.wf_iff {n : Nat} {t : Table} :
    t.wf n = true ↔
      t.cdf.length = n ∧ 0 < n ∧ t.cnt.toNat ≤ 32 ∧ t.cdf.getD (n - 1) 0#16 = 32768#16 ∧
      (∀ i, i + 1 < n →
        1 ≤ (t.cdf.getD i 0#16).toNat ∧ (t.cdf.getD i 0#16).toNat < 32768 ∧
        (t.cdf.getD i 0#16).toNat ≤ (t.cdf.getD (i + 1) 0#16).toNat) := by
  simp only [Table.wf, Bool.and_eq_true, beq_iff_eq, decide_eq_true_eq, risesFrom_iff]
  constructor
  · rintro ⟨⟨rfl, h1, h2, h3⟩, h4⟩
    exact ⟨rfl, h1, h4, h2, h3⟩
  · rintro ⟨rfl, h1, h4, h2, h3⟩
    exact ⟨⟨rfl, h1, h2, h3⟩, h4⟩

/-- Strictly rising entries rise. -/
theorem risesFrom_of_risesStrictlyFrom {lo : Nat} {cs : List Half}
    (h : risesStrictlyFrom lo cs = true) : risesFrom (lo + 1) cs = true := by
  suffices key : ∀ hi, hi ≤ lo + 1 → risesFrom hi cs = true from key _ (Nat.le_refl _)
  intro hi hhi
  induction cs generalizing lo hi with
  | nil => simp [risesStrictlyFrom] at h
  | cons c cs ih =>
    cases cs with
    | nil => simpa [risesStrictlyFrom, risesFrom] using h
    | cons d cs =>
      simp only [risesStrictlyFrom, Bool.and_eq_true, decide_eq_true_eq] at h
      rw [risesFrom_cons_cons]
      exact ⟨by omega, h.1.2, ih h.2 _ (by omega)⟩

/-- A default table is a legal table of the CDF RAM. -/
theorem Table.wf_of_wfDefault {n : Nat} {t : Table} (h : t.wfDefault n = true) : t.wf n = true := by
  simp only [Table.wfDefault, Bool.and_eq_true, beq_iff_eq] at h
  simp only [Table.wf, Bool.and_eq_true, beq_iff_eq, decide_eq_true_eq]
  exact ⟨⟨h.1.1, risesFrom_of_risesStrictlyFrom h.1.2⟩, by simp [h.2]⟩

/-- The reloaded CDF RAM is legal. -/
theorem CdfRam.wf_reload {rom : CdfRam} (h : rom.wfDefault = true) : rom.reload.wf = true := by
  rw [CdfRam.wf_iff]
  intro t
  have ht := Table.wf_of_wfDefault ((CdfRam.wfDefault_iff rom).mp h t)
  rw [Table.wf_iff] at ht ⊢
  simpa using ⟨ht.1, ht.2.1, ht.2.2.2⟩

/-! ### DecodeSymbol -/

/-- The search ends at the first bound that V reaches, with the bound before it. -/
theorem findBucket_spec (r v n : Nat) (es : List Half) (s prev : Nat)
    (h : ∃ k, k < es.length ∧ bucketBound r n (s + k) (es.getD k 0#16) ≤ v) :
    ∃ k, k < es.length ∧ (findBucket r v n s prev es).sym = s + k ∧
      (findBucket r v n s prev es).cur = bucketBound r n (s + k) (es.getD k 0#16) ∧
      (findBucket r v n s prev es).cur ≤ v ∧
      (∀ j, j < k → v < bucketBound r n (s + j) (es.getD j 0#16)) ∧
      (findBucket r v n s prev es).prev =
        if k = 0 then prev else bucketBound r n (s + (k - 1)) (es.getD (k - 1) 0#16) := by
  induction es generalizing s prev with
  | nil => obtain ⟨k, hk, -⟩ := h; simp at hk
  | cons e es ih =>
    rw [findBucket]
    by_cases hb : bucketBound r n s e ≤ v
    · rw [if_pos hb]
      exact ⟨0, by simp, rfl, by simp, hb, by simp, by simp⟩
    · rw [if_neg hb]
      obtain ⟨k, hk, hv⟩ := h
      cases k with
      | zero => simp at hv; exact absurd hv hb
      | succ k =>
        obtain ⟨m, hm, h1, h2, h3, h4, h5⟩ := ih (s + 1) (bucketBound r n s e)
          ⟨k, by simpa using hk, by simpa [Nat.add_assoc, Nat.add_comm 1] using hv⟩
        refine ⟨m + 1, by simpa using hm, by rw [h1]; omega, ?_, h3, ?_, ?_⟩
        · rw [h2]; simp [Nat.add_assoc, Nat.add_comm 1]
        · intro j hj
          cases j with
          | zero => simpa using hb
          | succ j =>
            have := h4 j (by omega)
            simpa [Nat.add_assoc, Nat.add_comm 1] using this
        · rw [h5]
          cases m with
          | zero => simp
          | succ m => simp [Nat.add_assoc, Nat.add_comm 1]

/-- `cur` in plain arithmetic. -/
theorem bucketBound_eq (r n s : Nat) (e : Half) :
    bucketBound r n s e =
      (((r / 2 ^ 8) * ((2 ^ 15 - e.toNat) / 2 ^ 6)) / 2) + 4 * (n - s - 1) := by
  simp [bucketBound, Config.ecProbShift, Config.ecMinProb, Nat.shiftRight_eq_div_pow]

/-- Along the entries of a legal table each bound lies at least 4 below the one before it, the first one below R, and
the last one is 0 (spec/42_arith_decoder.md R171). -/
theorem bucketBound_narrows {r n : Nat} {t : Table} (hw : t.wf n = true) (h2 : 2 ≤ n) (h16 : n ≤ 16)
    (hr : 2 ^ 15 ≤ r) :
    (∀ k, k < n → bucketBound r n k (t.cdf.getD k 0#16) + 4 ≤
      if k = 0 then r else bucketBound r n (k - 1) (t.cdf.getD (k - 1) 0#16)) ∧
    bucketBound r n (n - 1) (t.cdf.getD (n - 1) 0#16) = 0 := by
  obtain ⟨-, -, -, hlast, hi⟩ := Table.wf_iff.mp hw
  constructor
  · intro k hk
    by_cases hk0 : k = 0
    · subst hk0
      have h0 := hi 0 (by omega)
      rw [if_pos rfl, bucketBound_eq]
      have hd : (2 ^ 15 - (t.cdf.getD 0 0#16).toNat) / 2 ^ 6 ≤ 511 := by omega
      have hm := Nat.mul_le_mul_left (r / 2 ^ 8) hd
      omega
    · rw [if_neg hk0, bucketBound_eq, bucketBound_eq]
      have h1 := hi (k - 1) (by omega)
      rw [show k - 1 + 1 = k by omega] at h1
      have hd : (2 ^ 15 - (t.cdf.getD k 0#16).toNat) / 2 ^ 6 ≤
          (2 ^ 15 - (t.cdf.getD (k - 1) 0#16).toNat) / 2 ^ 6 := by omega
      have hm := Nat.mul_le_mul_left (r / 2 ^ 8) hd
      omega
  · rw [hlast, bucketBound_eq, show n - (n - 1) - 1 = 0 by omega]
    simp

/-! ### Renormalise -/

/-- The shift brings a nonzero 16-bit range to the top. -/
theorem renormShift_spec {r : Nat} (h0 : 0 < r) (h : r < 2 ^ 16) :
    renormShift r ≤ 15 ∧ 2 ^ 15 ≤ r * 2 ^ renormShift r ∧ r * 2 ^ renormShift r < 2 ^ 16 := by
  have hl : 2 ^ Nat.log2 r ≤ r := Nat.log2_self_le (by omega)
  have hu : r < 2 ^ (Nat.log2 r + 1) := Nat.lt_log2_self
  have hlt : Nat.log2 r < 16 := (Nat.log2_lt (by omega)).mpr h
  have e : Nat.log2 r + renormShift r = 15 := by unfold renormShift; omega
  refine ⟨by omega, ?_, ?_⟩
  · calc 2 ^ 15 = 2 ^ Nat.log2 r * 2 ^ renormShift r := by rw [← Nat.pow_add, e]
      _ ≤ _ := Nat.mul_le_mul_right _ hl
  · calc r * 2 ^ renormShift r < 2 ^ (Nat.log2 r + 1) * 2 ^ renormShift r :=
          Nat.mul_lt_mul_of_pos_right hu (Nat.two_pow_pos _)
      _ = 2 ^ 16 := by
          rw [← Nat.pow_add]; congr 1; omega

/-- Exclusive-or into a field of ones below `2^d` subtracts. -/
theorem ones_xor_eq_sub (v f d : Nat) (h : f < 2 ^ d) :
    (((v + 1) <<< d) - 1) ^^^ f = (v + 1) * 2 ^ d - 1 - f := by
  have e : (v + 1) <<< d - 1 = 2 ^ d * v + (2 ^ d - 1) := by
    rw [Nat.shiftLeft_eq, Nat.add_mul, Nat.mul_comm]
    have := Nat.two_pow_pos d
    omega
  have e2 : (v + 1) * 2 ^ d - 1 - f = 2 ^ d * v + (2 ^ d - 1 - f) := by
    rw [Nat.add_mul, Nat.mul_comm v]
    have := Nat.two_pow_pos d
    omega
  rw [e, e2]
  apply Nat.eq_of_testBit_eq
  intro i
  have h1 : 2 ^ d - 1 < 2 ^ d := by have := Nat.two_pow_pos d; omega
  have h2 : 2 ^ d - 1 - f < 2 ^ d := by omega
  rw [Nat.testBit_xor, Nat.testBit_two_pow_mul_add _ h1, Nat.testBit_two_pow_mul_add _ h2]
  by_cases hi : i < d
  · have : 2 ^ d - 1 - f = 2 ^ d - (f + 1) := by omega
    rw [if_pos hi, if_pos hi, this, Nat.testBit_two_pow_sub_succ h, Nat.testBit_two_pow_sub_one]
    simp [hi]
  · rw [if_neg hi, if_neg hi, Nat.testBit_lt_two_pow (Nat.lt_of_lt_of_le h
      (Nat.pow_le_pow_right (by decide) (by omega)))]
    simp

/-! ### Adapt -/

@[simp] theorem adaptEntries_length (rate sym i : Nat) (es : List Half) :
    (adaptEntries rate sym i es).length = es.length := by
  induction es generalizing i with
  | nil => rfl
  | cons e es ih =>
    cases es with
    | nil => rfl
    | cons f es => simp only [adaptEntries, List.length_cons, Nat.add_right_cancel_iff]; exact ih _

/-- Every entry but the last moves, the last stays. -/
theorem adaptEntries_getD (rate sym : Nat) (es : List Half) (i k : Nat) (hk : k < es.length) :
    (adaptEntries rate sym i es).getD k 0#16 =
      if k + 1 < es.length then adaptEntry rate sym (i + k) (es.getD k 0#16)
      else es.getD k 0#16 := by
  induction es generalizing i k with
  | nil => simp at hk
  | cons e es ih =>
    cases es with
    | nil =>
      have : k = 0 := by simpa using hk
      subst this; simp [adaptEntries]
    | cons f es =>
      cases k with
      | zero => simp [adaptEntries]
      | succ k =>
        rw [adaptEntries, List.getD_cons_succ, ih (i + 1) k (by simpa using hk)]
        simp [Nat.add_assoc, Nat.add_comm 1]

/-- The rate in plain arithmetic, for a table of at least two symbols. -/
theorem adaptRate_eq {n cnt : Nat} (h2 : 2 ≤ n) :
    adaptRate n cnt = 3 + (if 15 < cnt then 1 else 0) + (if 31 < cnt then 1 else 0) +
      (if n < 4 then 1 else 2) := by
  unfold adaptRate
  congr 1
  by_cases h : n < 4
  · have hl : n.log2 = 1 := by
      rcases (by omega : n = 2 ∨ n = 3) with rfl | rfl <;> decide
    rw [if_pos h, hl]
    rfl
  · have hl : 2 ≤ n.log2 := (Nat.le_log2 (by omega)).mpr (by omega)
    rw [if_neg h]
    omega

/-- One moved entry, below 32768 and never wrapped. -/
theorem adaptEntry_toNat (rate sym i : Nat) (e : Half) (he : e.toNat < 32768) :
    (adaptEntry rate sym i e).toNat =
      if i < sym then e.toNat - e.toNat / 2 ^ rate
      else e.toNat + (2 ^ 15 - e.toNat) / 2 ^ rate := by
  unfold adaptEntry
  have h1 := Nat.div_le_self e.toNat (2 ^ rate)
  have h2 := Nat.div_le_self (2 ^ 15 - e.toNat) (2 ^ rate)
  rw [Nat.shiftRight_eq_div_pow, Nat.shiftRight_eq_div_pow]
  generalize e.toNat / 2 ^ rate = a at *
  generalize (2 ^ 15 - e.toNat) / 2 ^ rate = b at *
  split <;> rw [BitVec.toNat_ofNat] <;> omega

/-- The counter saturates at 32. -/
theorem Table.adapt_cnt (t : Table) (sym : Nat) (h : t.cnt.toNat ≤ 32) :
    (t.adapt sym).cnt.toNat = min (t.cnt.toNat + 1) 32 := by
  unfold Table.adapt
  dsimp only
  split
  · rw [BitVec.toNat_add, BitVec.toNat_ofNat]
    omega
  · omega

/-! ### What a decoding step may change -/

/-- `t` is `s` but for AD_BITPOS, V, R and the CDF RAM. -/
def DecodesTo (s t : State) : Prop :=
  t = { s with
    ad := { s.ad with bitpos := t.ad.bitpos, value := t.ad.value, range := t.ad.range }
    ram := t.ram }

theorem DecodesTo.refl (s : State) : DecodesTo s s := rfl

theorem DecodesTo.trans {s t u : State} (h : DecodesTo s t) (g : DecodesTo t u) :
    DecodesTo s u := by
  unfold DecodesTo at *
  rw [g, h]

/-- The fields that a decoding step leaves. -/
theorem DecodesTo.leaves {s t : State} (h : DecodesTo s t) :
    t.arg0 = s.arg0 ∧ t.arg1 = s.arg1 ∧ t.res0 = s.res0 ∧ t.res1 = s.res1 ∧
    t.status = s.status ∧ t.erroff = s.erroff ∧ t.bc = s.bc ∧ t.rom = s.rom ∧ t.buf = s.buf ∧
    t.bufLen = s.bufLen ∧ t.host = s.host ∧ t.driver = s.driver ∧ t.readData = s.readData ∧
    t.ad.base = s.ad.base ∧ t.ad.size = s.ad.size := by
  rw [h]; simp

theorem decodeSymbol_decodesTo (cdf : List Half) (s : State) :
    DecodesTo s (decodeSymbol cdf s).state := rfl

theorem decodeSymbol_ram (cdf : List Half) (s : State) :
    (decodeSymbol cdf s).state.ram = s.ram := rfl

theorem decodeAdaptive_decodesTo (t : TableId) (s : State) :
    DecodesTo s (decodeAdaptive t s).state := rfl

theorem decodeAdaptive_ad (t : TableId) (s : State) :
    (decodeAdaptive t s).state.ad = (decodeSymbol (s.ram.get t).cdf s).state.ad := rfl

theorem decodeAdaptive_sym (t : TableId) (s : State) :
    (decodeAdaptive t s).sym = (decodeSymbol (s.ram.get t).cdf s).sym := rfl

/-- Only the table's own contents change. -/
theorem decodeAdaptive_ram (t : TableId) (s : State) :
    (decodeAdaptive t s).state.ram =
      s.ram.set t ((s.ram.get t).adapt (decodeAdaptive t s).sym) := rfl

end Sys2Proof.Machine
end

