-- ==== Sys2Proof/Laws/Step.lean ====
section
/-! SUPPORT. A step at each kind of host interaction, reduced to the operation it performs. -/

namespace Sys2Proof.Machine

@[simp] theorem Reg.at?_offset (r : Reg) : Reg.at? r.offset = some r := by cases r <;> rfl

theorem Reg.offset_aligned (r : Reg) : r.offset % 8 = 0 := by cases r <;> rfl

/-- The seven registers end at offset 0x37. -/
theorem Reg.at?_eq_none {off : Nat} (h : 0x38 ≤ off) : Reg.at? off = none := by
  unfold Reg.at?
  repeat' rw [if_neg (by omega)]

/-- A register access in a permitted form at a mapped offset comes down to which host makes it. -/
theorem regAccess_offset (h : Nat) (r : Reg) (act : Reg → State → Host.Outcome State Fault Refusal)
    (s : State) :
    regAccess h 8 r.offset act s =
      if s.driver = none ∨ s.driver = some h then act r { s with driver := some h }
      else .refused .twoHosts := by
  unfold regAccess
  rw [if_neg (by simp [r.offset_aligned]), r.at?_offset]

/-- A step at a register write. -/
theorem step_writeReg (s : State) (h : Nat) (r : Reg) (v : Word) (rest : List HostEvent) :
    step { s with host := .writeReg h 8 r.offset v :: rest } =
      if s.driver = none ∨ s.driver = some h then
        writeReg r v { s with host := rest, driver := some h }
      else .refused .twoHosts :=
  regAccess_offset h r _ _

/-- A step at a register read. -/
theorem step_readReg (s : State) (h : Nat) (r : Reg) (rest : List HostEvent) :
    step { s with host := .readReg h 8 r.offset :: rest } =
      if s.driver = none ∨ s.driver = some h then
        .next { s with host := rest, driver := some h, readData := readReg s r }
      else .refused .twoHosts := by
  have := regAccess_offset h r (fun r t => .next { t with readData := readReg t r })
    { s with host := rest }
  cases r <;> exact this

/-- A step at a write of BUF. -/
theorem step_writeBuf (s : State) (a : Nat) (x : Byte) (rest : List HostEvent) :
    step { s with host := .writeBuf a x :: rest } =
      if s.bufLen ≤ a then .refused (.bufAddressOutside a)
      else if inValidBcWindow s a ∨ inValidTile s a then .refused (.bufWindowWritten a)
      else .next { s with host := rest, buf := s.buf.write a x } := rfl

/-- A run goes on from the state its first step answers. -/
theorem run_of_step {s t : State} (k : Nat) (h : step s = .next t) :
    Sys2Proof.core.run (k + 1) s = Sys2Proof.core.run k t := by
  have key (M : Host.Core) (a b : M.State) (hab : M.step a = .next b) :
      M.run (k + 1) a = M.run k b := by rw [Host.Core.run, hab]
  exact key Sys2Proof.core s t h

/-- A run of one step is that step. -/
theorem run_one (s : State) : Sys2Proof.core.run 1 s = step s := by
  have key (M : Host.Core) (a : M.State) : M.run 1 a = M.step a := by
    rw [Host.Core.run]; cases M.step a <;> rfl
  exact key Sys2Proof.core s

end Sys2Proof.Machine
end

