-- ==== Sys2Proof/Laws/Commands.lean ====
section
/-! SUPPORT. One lemma per shared operation of the commands: every way it can end. -/

namespace Sys2Proof.Machine

/-! ### Bit Cursor and Varint -/

/-- Every way a Bit Cursor read ends: its three failures in order, the value, or the guard of log 10. -/
theorem bcRead_cases (o : Order) (n limit consumed : Nat) (s : State) :
    (s.status.bcValid = false ∧
      bcRead o n limit consumed s = .next (raise .notInitialised 0#64 .bit s)) ∨
    (s.status.bcValid = true ∧ limit < n ∧
      bcRead o n limit consumed s = .next (raise .parse s.bc.pos .bit s)) ∨
    (s.status.bcValid = true ∧ n ≤ limit ∧ bcBits s < s.bc.pos.toNat + n ∧
      bcRead o n limit consumed s = .next (raise .unexpectedEof s.bc.pos .bit s)) ∨
    (s.status.bcValid = true ∧ n ≤ limit ∧ s.bc.pos.toNat + n ≤ bcBits s ∧
      ((bcWindowInBuf s = true ∧ bcRead o n limit consumed s =
        .next (succeedWith (zext64 (gather s s.bc.pos.toNat n o)) (advanceCursor consumed s))) ∨
       (bcWindowInBuf s = false ∧ bcRead o n limit consumed s = .fault .bcWindowOutsideBuf))) := by
  unfold bcRead bcReadCheck
  by_cases h1 : s.status.bcValid = false
  · exact .inl ⟨h1, by rw [if_pos h1]⟩
  · by_cases h2 : n > limit
    · exact .inr (.inl ⟨by simpa using h1, h2, by rw [if_neg h1, if_pos h2]⟩)
    · by_cases h3 : s.bc.pos.toNat + n > bcBits s
      · exact .inr (.inr (.inl ⟨by simpa using h1, by omega, h3,
          by rw [if_neg h1, if_neg h2, if_pos h3]⟩))
      · refine .inr (.inr (.inr ⟨by simpa using h1, by omega, by omega, ?_⟩))
        rw [if_neg h1, if_neg h2, if_neg h3]
        cases bcWindowInBuf s <;> simp

/-- Every way the byte loop of VI.DEC ends: after `k` continuing bytes it meets a terminating one, the window end, or
the limit. -/
theorem lebLoop_cases (s : State) (fuel i p v : Nat) :
    (∃ k, k < fuel ∧ (∀ j, j < k → 0x80 ≤ gather s (p + 8 * j) 8 .msb) ∧
      (∀ j, j < k → p + 8 * (j + 1) ≤ bcBits s) ∧ p + 8 * (k + 1) ≤ bcBits s ∧
      gather s (p + 8 * k) 8 .msb < 0x80 ∧
      lebLoop s fuel i p v = .done
        (v + ((List.range (k + 1)).map fun j =>
          gather s (p + 8 * j) 8 .msb % 0x80 * 2 ^ (7 * (i + j))).sum) (i + k + 1)
        (p + 8 * (k + 1))) ∨
    (∃ k, k < fuel ∧ (∀ j, j < k → 0x80 ≤ gather s (p + 8 * j) 8 .msb) ∧
      (∀ j, j < k → p + 8 * (j + 1) ≤ bcBits s) ∧ bcBits s < p + 8 * (k + 1) ∧
      lebLoop s fuel i p v = .eof (p + 8 * k)) ∨
    ((∀ j, j < fuel → 0x80 ≤ gather s (p + 8 * j) 8 .msb) ∧
      (∀ j, j < fuel → p + 8 * (j + 1) ≤ bcBits s) ∧ lebLoop s fuel i p v = .tooLong) := by
  induction fuel generalizing i p v with
  | zero => exact .inr (.inr ⟨by simp, by simp, rfl⟩)
  | succ fuel ih =>
    rw [lebLoop]
    by_cases h1 : p + 8 > bcBits s
    · exact .inr (.inl ⟨0, by omega, by simp, by simp, by omega, by rw [if_pos h1]; simp⟩)
    · rw [if_neg h1]
      by_cases h2 : gather s p 8 .msb < 0x80
      · refine .inl ⟨0, by omega, by simp, by simp, by omega, by simpa using h2, ?_⟩
        rw [if_pos h2]; simp
      · rw [if_neg h2]
        have shift : ∀ {P : Nat → Prop} {m : Nat}, P 0 → (∀ j, j < m → P (j + 1)) →
            ∀ j, j < m + 1 → P j := by
          intro P m h0 hs j hj
          cases j with
          | zero => exact h0
          | succ j => exact hs j (by omega)
        have e : ∀ j, p + 8 + 8 * j = p + 8 * (j + 1) := fun j => by omega
        have e' : ∀ j, i + 1 + j = i + (j + 1) := fun j => by omega
        have h0 : 0x80 ≤ gather s (p + 8 * 0) 8 .msb := by simpa using h2
        have hb : p + 8 * (0 + 1) ≤ bcBits s := by omega
        rcases ih (i + 1) (p + 8) (v + gather s p 8 .msb % 0x80 * 2 ^ (7 * i)) with
          ⟨k, hk, ha, hw, hf, ht, hd⟩ | ⟨k, hk, ha, hw, hf, hd⟩ | ⟨ha, hw, hd⟩
        · simp only [e, e'] at ha hw hf ht hd
          refine .inl ⟨k + 1, by omega, shift h0 ha, shift hb hw, hf, ht, ?_⟩
          rw [hd, List.range_succ_eq_map (n := k + 1)]
          simp [Nat.add_assoc, Function.comp_def]
        · simp only [e] at ha hw hf hd
          exact .inr (.inl ⟨k + 1, by omega, shift h0 ha, shift hb hw, hf, hd⟩)
        · simp only [e] at ha hw hd
          exact .inr (.inr ⟨shift h0 ha, shift hb hw, hd⟩)

/-! ### Typed reads -/

/-- Every way a typed read without operand fields ends. -/
theorem typedRead_cases (read : State → Reading) (s : State) :
    (s.status.adValid = false ∧
      typedRead read s = .next (raise .notInitialised 0#64 .bit s)) ∨
    (s.status.adValid = true ∧ typedRead read s = decodeInto read s) := by
  unfold typedRead
  by_cases h : s.status.adValid = false
  · exact .inl ⟨h, by rw [if_pos h]⟩
  · exact .inr ⟨by simpa using h, by rw [if_neg h]⟩

/-- Every way the decoding part of a typed read ends: the value, or the guard of log 10. -/
theorem decodeInto_cases (read : State → Reading) (s : State) :
    (s.ad.base.toNat + s.ad.size.toNat ≤ s.bufLen ∧
      decodeInto read s = .next (succeedWith (read s).value (read s).state)) ∨
    (s.bufLen < s.ad.base.toNat + s.ad.size.toNat ∧
      decodeInto read s = .fault .tileWindowOutsideBuf) := by
  unfold decodeInto tileInBuf
  by_cases h : s.ad.base.toNat + s.ad.size.toNat ≤ s.bufLen
  · exact .inl ⟨h, by simp [h]⟩
  · exact .inr ⟨by omega, by simp [h]⟩

theorem readSymbol_decodesTo (t : TableId) (s : State) : DecodesTo s (readSymbol t s).state := rfl

theorem readEdge_decodesTo (t : TableId) (c : Sys2Proof.EdgeCase) (s : State) :
    DecodesTo s (readEdge t c s).state := rfl

theorem readMvBits_decodesTo (k extra : Nat) (s : State) :
    DecodesTo s (readMvBits k extra s).state := by
  induction k generalizing extra s with
  | zero => rfl
  | succ k ih => exact (decodeAdaptive_decodesTo .mvBits s).trans (ih _ _)

@[simp] theorem mvBitsAfter_zero (s : State) : mvBitsAfter 0 s = s := rfl

/-- The magnitude bits from the first one on, where the definition takes the last one off. -/
theorem mvBitsAfter_succ (k : Nat) (s : State) :
    mvBitsAfter (k + 1) s = mvBitsAfter k (decodeAdaptive .mvBits s).state := by
  induction k with
  | zero => rfl
  | succ k ih => rw [mvBitsAfter, ih]; rfl

@[simp] theorem readMvBits_state (k extra : Nat) (s : State) :
    (readMvBits k extra s).state = mvBitsAfter k s := by
  induction k generalizing extra s with
  | zero => rfl
  | succ k ih => rw [mvBitsAfter_succ, readMvBits]; exact ih _ _

/-- The magnitude bits stand below `extra`, the first one read the most significant. -/
theorem readMvBits_sym (k extra : Nat) (s : State) :
    (readMvBits k extra s).sym = extra * 2 ^ k + ((List.range k).map fun j =>
      (decodeAdaptive .mvBits (mvBitsAfter j s)).sym <<< (k - 1 - j)).sum := by
  induction k generalizing extra s with
  | zero => simp [readMvBits]
  | succ k ih =>
    simp only [readMvBits, ih, List.range_succ_eq_map, List.map_cons, List.map_map, List.sum_cons,
      Function.comp_def, mvBitsAfter_succ, mvBitsAfter_zero, Nat.shiftLeft_eq, Nat.pow_succ,
      Nat.succ_eq_add_one, Nat.add_sub_cancel, Nat.sub_zero, Nat.sub_sub, Nat.add_comm 1]
    ring

theorem readMvMagnitude_decodesTo (s : State) : DecodesTo s (readMvMagnitude s).state := by
  unfold readMvMagnitude
  dsimp only
  split
  · exact decodeAdaptive_decodesTo .mvClass s
  · exact (decodeAdaptive_decodesTo .mvClass s).trans (readMvBits_decodesTo _ _ _)

theorem readSign_decodesTo (t : TableId) (mag : Nat) (s : State) :
    DecodesTo s (readSign t mag s).state := by
  unfold readSign
  split
  · exact DecodesTo.refl s
  · exact decodeAdaptive_decodesTo t s

theorem readMv_decodesTo (s : State) : DecodesTo s (readMv s).state :=
  (readMvMagnitude_decodesTo s).trans <| (readSign_decodesTo _ _ _).trans <|
    (decodeSymbol_decodesTo _ _).trans (decodeSymbol_decodesTo _ _)

theorem readDqAbs_decodesTo (s : State) : DecodesTo s (readDqAbs s).state := by
  unfold readDqAbs
  dsimp only
  split
  · exact (decodeAdaptive_decodesTo .dqBase s).trans (decodeAdaptive_decodesTo .dqDiff _)
  · exact decodeAdaptive_decodesTo .dqBase s

theorem readDq_decodesTo (s : State) : DecodesTo s (readDq s).state :=
  (readDqAbs_decodesTo s).trans (readSign_decodesTo _ _ _)

/-- What AD.INIT's steps leave, before the command ends. -/
theorem adInit_steps_leave (k : CarryOver) (base size : Word) (s : State) :
    carryOver k (startDecoder (placeTile base size s)) = { s with
      ad := (startDecoder (placeTile base size s)).ad
      ram := match k with
        | .reload => s.rom.reload
        | .keep => s.ram
      status := { s.status with adValid := true } } := by
  cases k <;> rfl

/-! ### Every command -/

/-- `t` is `s` after a successful command, as far as all commands agree: only the results, the two units, the CDF RAM,
ERR (now OK) and the VALID bits may differ. -/
def SucceedsFrom (s t : State) : Prop :=
  t = { s with
    res0 := t.res0
    res1 := t.res1
    bc := t.bc
    ad := t.ad
    ram := t.ram
    status := { s.status with
      err := .ok
      bcValid := t.status.bcValid
      adValid := t.status.adValid } }

/-- The end of a typed read is the end of a successful command. -/
theorem DecodesTo.succeedsFrom {s t : State} (h : DecodesTo s t) (v : Word) :
    SucceedsFrom s (succeedWith v t) := by
  rw [h]; rfl

/-- A command fails by one `raise`, or succeeds within its frame. -/
theorem exec_cases {i : Instr} {s t : State} (h : exec i s = .next t) :
    (∃ e off u, e ≠ .ok ∧ t = raise e off u s) ∨ SucceedsFrom s t := by
  have raised : ∀ {e off u}, e ≠ .ok →
      (.next (raise e off u s) : Host.Outcome State Fault Refusal) = .next t →
      (∃ e off u, e ≠ .ok ∧ t = raise e off u s) ∨ SucceedsFrom s t := by
    intro e off u he h
    cases h
    exact .inl ⟨e, off, u, he, rfl⟩
  have done : ∀ {r}, (.next (succeed r) : Host.Outcome State Fault Refusal) = .next t →
      SucceedsFrom s (succeed r) →
      (∃ e off u, e ≠ .ok ∧ t = raise e off u s) ∨ SucceedsFrom s t := by
    intro r h hr
    cases h
    exact .inr hr
  have read : ∀ {o n limit consumed}, bcRead o n limit consumed s = .next t →
      (∃ e off u, e ≠ .ok ∧ t = raise e off u s) ∨ SucceedsFrom s t := by
    intro o n limit consumed h
    rcases bcRead_cases o n limit consumed s with ⟨-, g⟩ | ⟨-, -, g⟩ | ⟨-, -, -, g⟩ |
      ⟨-, -, -, ⟨-, g⟩ | ⟨-, g⟩⟩ <;> rw [g] at h
    · exact raised (by decide) h
    · exact raised (by decide) h
    · exact raised (by decide) h
    · exact done h rfl
    · cases h
  have into : ∀ {f}, DecodesTo s (f s).state → decodeInto f s = .next t →
      (∃ e off u, e ≠ .ok ∧ t = raise e off u s) ∨ SucceedsFrom s t := by
    intro f hf h
    rcases decodeInto_cases f s with ⟨-, g⟩ | ⟨-, g⟩ <;> rw [g] at h
    · exact done h (hf.succeedsFrom _)
    · cases h
  have typed : ∀ {f}, DecodesTo s (f s).state → typedRead f s = .next t →
      (∃ e off u, e ≠ .ok ∧ t = raise e off u s) ∨ SucceedsFrom s t := by
    intro f hf h
    rcases typedRead_cases f s with ⟨-, g⟩ | ⟨-, g⟩ <;> rw [g] at h
    · exact raised (by decide) h
    · exact into hf h
  cases i with
  | bcInit =>
    change execBcInit s = _ at h
    unfold execBcInit at h
    split at h
    · exact done h rfl
    · exact raised (by decide) h
  | bcRdbit o => exact read h
  | bcRdbits o n => exact read h
  | bcRdbits64 o n => exact read h
  | bcRdbyte o => exact read h
  | bcSkip =>
    change execBcSkip s = _ at h
    unfold execBcSkip at h
    split at h
    · exact raised (by decide) h
    · split at h
      · exact raised (by decide) h
      · exact done h rfl
  | bcAlign =>
    change execBcAlign s = _ at h
    unfold execBcAlign at h
    split at h
    · exact raised (by decide) h
    · exact done h rfl
  | bcPeek o n => exact read h
  | bcPos =>
    change execBcPos s = _ at h
    unfold execBcPos at h
    split at h
    · exact raised (by decide) h
    · exact done h rfl
  | bcRem =>
    change execBcRem s = _ at h
    unfold execBcRem at h
    split at h
    · exact raised (by decide) h
    · exact done h rfl
  | viDec =>
    change execViDec s = _ at h
    unfold execViDec at h
    split at h
    · exact raised (by decide) h
    · split at h
      · split at h
        · exact done h rfl
        · exact raised (by decide) h
        · exact raised (by decide) h
      · cases h
  | adInit k =>
    change execAdInit k s = _ at h
    unfold execAdInit at h
    split at h
    · exact done h (by cases k <;> rfl)
    · exact raised (by decide) h
  | adPos =>
    change execAdPos s = _ at h
    unfold execAdPos at h
    split at h
    · exact raised (by decide) h
    · exact done h rfl
  | srCtxrst => exact done h rfl
  | srPart bsl hr hc =>
    change execSrPart bsl hr hc s = _ at h
    unfold execSrPart at h
    split at h
    · exact raised (by decide) h
    · split at h
      · exact raised (by decide) h
      · split at h
        · exact into (readSymbol_decodesTo _ s) h
        · exact into (readEdge_decodesTo _ _ s) h
        · exact into (readEdge_decodesTo _ _ s) h
        · exact done h rfl
  | srSkip => exact typed (readSymbol_decodesTo _ s) h
  | srIntra => exact typed (readSymbol_decodesTo _ s) h
  | srInter => exact typed (readSymbol_decodesTo _ s) h
  | srMv => exact typed (readMv_decodesTo s) h
  | srDq => exact typed (readDq_decodesTo s) h

end Sys2Proof.Machine
end

