-- ==== Sys2Proof/Laws/Independence.lean ====
section
/-! SUPPORT. What the decoding steps and the window reads depend on. -/

namespace Sys2Proof.Machine

/-- `t` agrees with `s` in all that a decoding step looks at: the decoder, the CDF RAM, and the tile's bytes. -/
structure SameDecoder (s t : State) : Prop where
  ad   : t.ad = s.ad
  ram  : t.ram = s.ram
  tile : ∀ a, s.ad.base.toNat ≤ a → a < s.ad.base.toNat + s.ad.size.toNat → memRead t a = memRead s a

/-- The decoder and the CDF RAM of `s` in a state that is `t` otherwise. -/
def withDecoder (s t : State) : State := { t with ad := s.ad, ram := s.ram }

/-- A decoding step does from `t` what it does from `s`, when the two agree in all it looks at. -/
def DecodesAlike (f : State → Decoding) : Prop :=
  ∀ s t, SameDecoder s t → f t = ⟨(f s).sym, withDecoder (f s).state t⟩

/-- The same of a typed read. -/
def ReadsAlike (f : State → Reading) : Prop :=
  ∀ s t, SameDecoder s t → f t = ⟨(f s).value, withDecoder (f s).state t⟩

/-- Agreement lasts through a decoding step. -/
theorem SameDecoder.step {s t u : State} (h : SameDecoder s t) (hu : DecodesTo s u) :
    SameDecoder u (withDecoder u t) := by
  refine ⟨rfl, rfl, ?_⟩
  intro a h1 h2
  have hl := hu.leaves
  have hb : u.ad.base = s.ad.base ∧ u.ad.size = s.ad.size := ⟨hl.2.2.2.2.2.2.2.2.2.2.2.2.2.1, hl.2.2.2.2.2.2.2.2.2.2.2.2.2.2⟩
  rw [hb.1] at h1
  rw [hb.1, hb.2] at h2
  have := h.tile a h1 h2
  unfold memRead at *
  rw [hl.2.2.2.2.2.2.2.2.1]
  exact this

theorem decodeSymbol_alike (cdf : List Half) : DecodesAlike (decodeSymbol cdf) := by
  intro s t h
  have hf : ∀ n, fetchValue t n = fetchValue s n := fun n =>
    fetchValue_congr n (by rw [h.ad]) (by rw [h.ad]) (by rw [h.ad]) h.tile
  have hs : selectBucket t cdf = selectBucket s cdf := by
    unfold selectBucket
    rw [h.ad]
  simp only [decodeSymbol, hs, renormalise, advanceTile, withDecoder, hf, h.ad, h.ram]

theorem decodeAdaptive_alike (id : TableId) : DecodesAlike (decodeAdaptive id) := by
  intro s t h
  unfold decodeAdaptive
  rw [h.ram, decodeSymbol_alike _ s t h]
  simp [adaptTable, withDecoder]

/-- Two steps in a row. -/
theorem DecodesAlike.bind {f : State → Decoding} {g : Nat → State → Decoding} (hf : DecodesAlike f)
    (hfd : ∀ s, DecodesTo s (f s).state) (hg : ∀ n, DecodesAlike (g n)) :
    DecodesAlike fun s => g (f s).sym (f s).state := by
  intro s t h
  dsimp only
  rw [hf s t h]
  dsimp only
  rw [hg _ _ _ (h.step (hfd s))]
  rfl

theorem readSymbol_alike (id : TableId) : ReadsAlike (readSymbol id) := by
  intro s t h
  unfold readSymbol
  rw [decodeAdaptive_alike id s t h]

theorem readEdge_alike (id : TableId) (c : Sys2Proof.EdgeCase) : ReadsAlike (readEdge id c) := by
  intro s t h
  unfold readEdge
  rw [decodeSymbol_alike _ s t h]

theorem readMvBits_alike (k extra : Nat) : DecodesAlike (readMvBits k extra) := by
  induction k generalizing extra with
  | zero => intro s t h; simp [readMvBits, withDecoder, ← h.ad, ← h.ram]
  | succ k ih =>
    exact (decodeAdaptive_alike .mvBits).bind (g := fun n => readMvBits k (2 * extra + n))
      (decodeAdaptive_decodesTo _) (fun n => ih _)

theorem decoding_alike (n : Nat) : DecodesAlike fun s => ⟨n, s⟩ := by
  intro s t h
  simp [withDecoder, ← h.ad, ← h.ram]

theorem readMvMagnitude_alike : DecodesAlike readMvMagnitude := by
  refine (decodeAdaptive_alike .mvClass).bind
    (g := fun c s => if c = 0 then ⟨0, s⟩ else
      ⟨2 ^ (c - 1) + (readMvBits (c - 1) 0 s).sym, (readMvBits (c - 1) 0 s).state⟩)
    (decodeAdaptive_decodesTo _) ?_
  intro c
  by_cases hc : c = 0
  · simp only [hc, if_true]; exact decoding_alike 0
  · simp only [hc, if_false]
    intro s t h
    dsimp only
    rw [readMvBits_alike _ _ s t h]

theorem readSign_alike (id : TableId) (mag : Nat) : DecodesAlike (readSign id mag) := by
  unfold readSign
  by_cases hm : mag = 0
  · simp only [hm, if_true]; exact decoding_alike 0
  · simp only [hm, if_false]; exact decodeAdaptive_alike id

theorem readMv_alike : ReadsAlike readMv := by
  intro s t h
  have h1 := h.step (readMvMagnitude_decodesTo s)
  have h2 := h1.step (readSign_decodesTo .mvSign (readMvMagnitude s).sym (readMvMagnitude s).state)
  have h3 := h2.step (decodeSymbol_decodesTo Config.fixedBool _)
  unfold readMv decodeFixedBool
  dsimp only
  rw [readMvMagnitude_alike s t h]
  dsimp only
  rw [readSign_alike _ _ _ _ h1]
  dsimp only
  rw [decodeSymbol_alike Config.fixedBool _ _ h2]
  dsimp only
  rw [decodeSymbol_alike Config.fixedBool _ _ h3]
  rfl

theorem readDqAbs_alike : DecodesAlike readDqAbs := by
  refine (decodeAdaptive_alike .dqBase).bind
    (g := fun b s => if 4 ≤ b then
      ⟨min (4 + (decodeAdaptive .dqDiff s).sym) 63, (decodeAdaptive .dqDiff s).state⟩ else ⟨b, s⟩)
    (decodeAdaptive_decodesTo _) ?_
  intro b
  by_cases hb : 4 ≤ b
  · simp only [hb, if_true]
    intro s t h
    dsimp only
    rw [decodeAdaptive_alike _ s t h]
  · simp only [hb, if_false]; exact decoding_alike b

theorem readDq_alike : ReadsAlike readDq := by
  intro s t h
  unfold readDq
  dsimp only
  rw [readDqAbs_alike s t h]
  dsimp only
  rw [readSign_alike _ _ _ _ (h.step (readDqAbs_decodesTo s))]
  rfl

end Sys2Proof.Machine
end

