-- ==== Sys2Proof/Laws/PerInstr.lean ====
section
/-! SUPPORT. The per-command family Encoding: the encoder's word spells a row of the opcode table, whatever the fields. -/

namespace Sys2Proof.Laws.Encoding

open Sys2Proof

/-- The command's word has the fixed bits of some row (spec/30_encoding.md R73). -/
def Statement (i : Instr) : Prop := opcodeRows.any (fun r => r.spells (encode i)) = true

/-- Field N stays inside bits 6:0. -/
theorem spells_encodeON (p : CmdWord) (hp : p ∈ [0x12000000#32, 0x13000000#32, 0x17000000#32])
    (o : Order) (n : Nat) : encodeON p o n &&& maskON = p := by
  unfold encodeON
  generalize BitVec.ofNat 7 n = x
  simp only [List.mem_cons, List.not_mem_nil, or_false] at hp
  rcases hp with rfl | rfl | rfl <;> cases o <;> revert x <;> decide

/-- The row of a format ON command. -/
theorem any_encodeON (p : CmdWord) (hp : p ∈ [0x12000000#32, 0x13000000#32, 0x17000000#32])
    (o : Order) (n : Nat) : opcodeRows.any (fun r => r.spells (encodeON p o n)) = true := by
  have h := spells_encodeON p hp o n
  simp only [List.mem_cons, List.not_mem_nil, or_false] at hp
  rcases hp with rfl | rfl | rfl <;>
    simp [opcodeRows, opcodeRowsCursor, OpcodeRow.spells, h]

/-- The row of the format P command: BSL stays inside bits 2:0. -/
theorem any_encodeP (bsl : Nat) (hr hc : Bool) :
    opcodeRows.any (fun r => r.spells (encodeP 0x41000000#32 bsl hr hc)) = true := by
  unfold encodeP
  generalize BitVec.ofNat 3 bsl = x
  cases hr <;> cases hc <;> revert x <;> decide

theorem bcInit : Statement .bcInit := rfl

theorem bcRdbit (o : Order) : Statement (.bcRdbit o) := by cases o <;> rfl

theorem bcRdbits (o : Order) (n : Nat) : Statement (.bcRdbits o n) :=
  any_encodeON _ (by simp) o n

theorem bcRdbits64 (o : Order) (n : Nat) : Statement (.bcRdbits64 o n) :=
  any_encodeON _ (by simp) o n

theorem bcRdbyte (o : Order) : Statement (.bcRdbyte o) := by cases o <;> rfl

theorem bcSkip : Statement .bcSkip := rfl

theorem bcAlign : Statement .bcAlign := rfl

theorem bcPeek (o : Order) (n : Nat) : Statement (.bcPeek o n) := any_encodeON _ (by simp) o n

theorem bcPos : Statement .bcPos := rfl

theorem bcRem : Statement .bcRem := rfl

theorem viDec : Statement .viDec := rfl

theorem adInit (k : CarryOver) : Statement (.adInit k) := by cases k <;> rfl

theorem adPos : Statement .adPos := rfl

theorem srCtxrst : Statement .srCtxrst := rfl

theorem srPart (bsl : Nat) (hr hc : Bool) : Statement (.srPart bsl hr hc) := any_encodeP bsl hr hc

theorem srSkip : Statement .srSkip := rfl

theorem srIntra : Statement .srIntra := rfl

theorem srInter : Statement .srInter := rfl

theorem srMv : Statement .srMv := rfl

theorem srDq : Statement .srDq := rfl

end Sys2Proof.Laws.Encoding
end

