-- ==== Sys2Proof/Tests/Slice0.lean ====
section
/-! SUPPORT. The model's own tests: ill-formed terms, words written out from the spec's encodings, one step per command
against the spec's examples and vectors, and a witness for the hypotheses of every statement. -/

namespace Sys2Proof.Tests

open Sys2Proof Sys2Proof.Machine

/-! ### WellFormed -/

theorem test_wf_refuses_wide_count_bcRdbits : (Instr.bcRdbits .msb 128).wf = false := by decide
theorem test_wf_refuses_wide_count_bcRdbits64 : (Instr.bcRdbits64 .lsb 128).wf = false := by decide
theorem test_wf_refuses_wide_count_bcPeek : (Instr.bcPeek .msb 200).wf = false := by decide
theorem test_wf_refuses_wide_bsl : (Instr.srPart 8 true true).wf = false := by decide
theorem test_wf_accepts_boundary :
    (Instr.bcRdbits .msb 127).wf = true ∧ (Instr.srPart 7 false false).wf = true ∧
      (Instr.srPart 0 true true).wf = true := by decide

/-! ### Decoding: words written out from spec/30_encoding.md R71 to R78; most are R85's examples -/

theorem test_decode_bcInit : decode 0x10000000#64 = .instr .bcInit := by decide
theorem test_decode_bcRdbit :
    decode 0b00010001000000010000000000000000#64 = .instr (.bcRdbit .lsb) := by decide
theorem test_decode_bcRdbits :
    decode 0b00010010000000010000000000000101#64 = .instr (.bcRdbits .lsb 5) := by decide
theorem test_decode_bcRdbits64 : decode 0x13000040#64 = .instr (.bcRdbits64 .msb 64) := by decide
theorem test_decode_bcRdbyte : decode 0x14010000#64 = .instr (.bcRdbyte .lsb) := by decide
theorem test_decode_bcSkip : decode 0x15000000#64 = .instr .bcSkip := by decide
theorem test_decode_bcAlign : decode 0x16000000#64 = .instr .bcAlign := by decide
theorem test_decode_bcPeek : decode 0x1700000C#64 = .instr (.bcPeek .msb 12) := by decide
theorem test_decode_bcPos : decode 0x18000000#64 = .instr .bcPos := by decide
theorem test_decode_bcRem : decode 0x19000000#64 = .instr .bcRem := by decide
theorem test_decode_viDec :
    decode 0b00100000000000000000000000000000#64 = .instr .viDec := by decide
theorem test_decode_adInit :
    decode 0b00110000000000010000000000000000#64 = .instr (.adInit .keep) := by decide
theorem test_decode_adPos : decode 0x31000000#64 = .instr .adPos := by decide
theorem test_decode_srCtxrst : decode 0x40000000#64 = .instr .srCtxrst := by decide
theorem test_decode_srPart :
    decode 0b01000001000000000000001100000110#64 = .instr (.srPart 6 true true) := by decide
theorem test_decode_srPart_edges :
    decode 0x41000205#64 = .instr (.srPart 5 false true) ∧
      decode 0x41000105#64 = .instr (.srPart 5 true false) := by decide
theorem test_decode_srSkip : decode 0x42000000#64 = .instr .srSkip := by decide
theorem test_decode_srIntra : decode 0x43000000#64 = .instr .srIntra := by decide
theorem test_decode_srInter : decode 0x44000000#64 = .instr .srInter := by decide
theorem test_decode_srMv : decode 0x45000000#64 = .instr .srMv := by decide
theorem test_decode_srDq : decode 0x46000000#64 = .instr .srDq := by decide
theorem test_decode_rejects :
    decode 0#64 = .illegal .reservedOpcode ∧ decode 0x47000000#64 = .illegal .reservedOpcode ∧
      decode 0x10000001#64 = .illegal .reservedBitSet ∧
      decode 0x41000008#64 = .illegal .reservedBitSet ∧
      decode 0x110000000#64 = .illegal .upperBitsSet := by decide

/-! ### Small states -/

/-- A block whose ROM is TEST_ROM_U, with the given BUF, after reset. -/
def blank (bytes : List Byte) : State :=
  State.resetOf .uniform (Memory.ofBytesFrom 0 bytes) bytes.length

/-- The same with the BC window over all of BUF and the cursor at `pos`. -/
def cursorAt (bytes : List Byte) (pos : Word) : State :=
  { blank bytes with
    bc := { base := 0#64, len := BitVec.ofNat 64 bytes.length, pos := pos }
    status := { (blank bytes).status with bcValid := true } }

/-- The same with a fresh decoder on all of BUF, `v` being the V that AD.INIT gives. -/
def tileWith (bytes : List Byte) (v : Half) : State :=
  { blank bytes with
    ad := { base := 0#64, size := BitVec.ofNat 64 bytes.length, bitpos := 15, value := v, range := 0x8000#16 }
    status := { (blank bytes).status with adValid := true } }

/-- What one command leaves that the Bit Cursor tests look at: RES0, BC_POS and ERR. -/
def seen (i : Instr) (s : State) : Option (Word × Word × Err) :=
  match exec i s with
  | .next t => some (t.res0, t.bc.pos, t.status.err)
  | .fault _ => none
  | .refused _ => none

/-- What one command leaves that the decoder tests look at: RES0, V, R and AD_BITPOS. -/
def decoded (i : Instr) (s : State) : Option (Word × Half × Half × Nat) :=
  match exec i s with
  | .next t => some (t.res0, t.ad.value, t.ad.range, t.ad.bitpos)
  | .fault _ => none
  | .refused _ => none

/-- The error record that one command leaves. -/
def failed (i : Instr) (s : State) : Option (Err × Word × OffUnit) :=
  match exec i s with
  | .next t => some (t.status.err, t.erroff, t.status.errUnit)
  | .fault _ => none
  | .refused _ => none

/-- The tile TB of spec/95_test_vectors.md §2.3. -/
def tb : List Byte := [0x3C#8, 0xA7#8, 0x5E#8, 0x91#8, 0x0B#8, 0xD4#8, 0x68#8, 0xF2#8]

/-! ### Bit Cursor: the examples of spec/40_bit_cursor.md -/

/-- The example of R100. -/
theorem test_bcInit_past_end :
    failed .bcInit { blank [0xB4#8, 0x5A#8] with arg0 := 1#64, arg1 := 2#64 } =
      some (.unexpectedEof, 3#64, .byte) := by decide
/-- R53's unwrapped sum: 2^64 - 1 + 2 is recorded as 2^64 - 1. -/
theorem test_bcInit_wraps :
    failed .bcInit { blank [0xB4#8, 0x5A#8] with arg0 := 0xFFFFFFFFFFFFFFFF#64, arg1 := 2#64 } =
      some (.unexpectedEof, 0xFFFFFFFFFFFFFFFF#64, .byte) := by decide
/-- The example of R105, both orders. -/
theorem test_bcRdbit :
    seen (.bcRdbit .msb) (cursorAt [0xB4#8] 0#64) = some (1#64, 1#64, .ok) ∧
      seen (.bcRdbit .lsb) (cursorAt [0xB4#8] 0#64) = some (0#64, 1#64, .ok) := by decide
/-- The example of R106, both orders. -/
theorem test_bcRdbits :
    seen (.bcRdbits .msb 4) (cursorAt [0xB4#8, 0x5A#8] 0#64) = some (0xB#64, 4#64, .ok) ∧
      seen (.bcRdbits .lsb 4) (cursorAt [0xB4#8, 0x5A#8] 0#64) = some (0x4#64, 4#64, .ok) := by
  decide
/-- R106: no bits at the window end succeed; R254: 33 bits there are PARSE, not UNEXPECTED_EOF. -/
theorem test_bcRdbits_at_end :
    seen (.bcRdbits .msb 0) (cursorAt [0xB4#8] 8#64) = some (0#64, 8#64, .ok) ∧
      failed (.bcRdbits .msb 33) (cursorAt [0xB4#8] 8#64) = some (.parse, 8#64, .bit) := by decide
/-- The example of R107, both orders. -/
theorem test_bcRdbits64 :
    seen (.bcRdbits64 .msb 64)
        (cursorAt [0x01#8, 0x23#8, 0x45#8, 0x67#8, 0x89#8, 0xAB#8, 0xCD#8, 0xEF#8] 0#64) =
      some (0x0123456789ABCDEF#64, 64#64, .ok) ∧
      seen (.bcRdbits64 .lsb 64)
        (cursorAt [0x01#8, 0x23#8, 0x45#8, 0x67#8, 0x89#8, 0xAB#8, 0xCD#8, 0xEF#8] 0#64) =
      some (0xEFCDAB8967452301#64, 64#64, .ok) := by decide +kernel
/-- The example of R108. -/
theorem test_bcRdbyte :
    seen (.bcRdbyte .msb) (cursorAt [0xB4#8, 0x5A#8] 4#64) = some (0x45#64, 12#64, .ok) := by
  decide
/-- The example of R109. -/
theorem test_bcSkip :
    seen .bcSkip { cursorAt [0xB4#8, 0x5A#8] 3#64 with arg0 := 13#64 } =
        some (0#64, 16#64, .ok) ∧
      failed .bcSkip { cursorAt [0xB4#8, 0x5A#8] 3#64 with arg0 := 14#64 } =
        some (.unexpectedEof, 3#64, .bit) := by decide
/-- The example of R110. -/
theorem test_bcAlign :
    seen .bcAlign (cursorAt [0xB4#8, 0x5A#8] 5#64) = some (0#64, 8#64, .ok) ∧
      seen .bcAlign (cursorAt [0xB4#8, 0x5A#8] 8#64) = some (0#64, 8#64, .ok) := by decide
/-- The example of R111. -/
theorem test_bcPeek :
    seen (.bcPeek .msb 3) (cursorAt [0xB4#8] 0#64) = some (5#64, 0#64, .ok) := by decide
/-- The example of R112. -/
theorem test_bcPos : seen .bcPos (cursorAt [0xB4#8, 0x5A#8] 5#64) = some (5#64, 5#64, .ok) := by
  decide
/-- The example of R113. -/
theorem test_bcRem : seen .bcRem (cursorAt [0xB4#8, 0x5A#8] 5#64) = some (11#64, 5#64, .ok) := by
  decide
/-- R114. -/
theorem test_unset : failed .bcRem (blank [0xB4#8]) = some (.notInitialised, 0#64, .bit) := by
  decide

/-! ### Varint: spec/41_varint.md R142 -/

theorem test_viDec :
    seen .viDec (cursorAt [0xE5#8, 0x8E#8, 0x26#8] 0#64) = some (624485#64, 24#64, .ok) := by
  decide +kernel
/-- A window that ends inside the encoding: the offset of the missing byte. -/
theorem test_viDec_eof :
    failed .viDec (cursorAt [0x80#8, 0x80#8] 0#64) = some (.unexpectedEof, 16#64, .bit) := by
  decide +kernel

/-! ### Arithmetic Decoder and Symbol Router: spec/95_test_vectors.md §2.3 and §2.4, the values in spec/42 and spec/43 -/

/-- The example of R162. -/
theorem test_adInit :
    decoded (.adInit .reload) { blank [0xA5#8] with arg1 := 1#64 } =
      some (0#64, 0x2D7F#16, 0x8000#16, 15) := by decide +kernel
/-- The example of R163. -/
theorem test_adPos :
    decoded .adPos (tileWith [0xA5#8] 0x2D7F#16) = some (15#64, 0x2D7F#16, 0x8000#16, 15) := by
  decide
/-- R203's example, from a SKIP table already adapted once (vector AA-1's result, 17408). -/
theorem test_srCtxrst :
    (match exec .srCtxrst { blank [] with
        ram := (CdfRam.reload .uniform).set .skip ⟨[17408#16, 32768#16], 1#6⟩ } with
      | .next t => some (t.ram.get .skip)
      | .fault _ => none
      | .refused _ => none) = some ⟨[16384#16, 32768#16], 0#6⟩ := by decide
/-- SR-PART6-TA. -/
theorem test_srPart :
    decoded (.srPart 6 true true) (tileWith [0xA5#8] 0x2D7F#16) =
      some (6#64, 0x733F#16, 0xCC40#16, 19) := by decide +kernel
/-- R209. -/
theorem test_srPart_small_block :
    failed (.srPart 2 true true) (tileWith [0xA5#8] 0x2D7F#16) = some (.parse, 15#64, .bit) := by
  decide
/-- SR-SKIP-TB. -/
theorem test_srSkip :
    decoded .srSkip (tileWith tb 0x61AC#16) = some (0#64, 0x86A1#16, 0xFFF0#16, 17) := by
  decide +kernel
/-- SR-INTRA-TA. -/
theorem test_srIntra :
    decoded .srIntra (tileWith [0xA5#8] 0x2D7F#16) = some (8#64, 0x62FF#16, 0x9C40#16, 19) := by
  decide +kernel
/-- SR-INTER-TA. -/
theorem test_srInter :
    decoded .srInter (tileWith [0xA5#8] 0x2D7F#16) = some (2#64, 0x35EF#16, 0x8010#16, 17) := by
  decide +kernel
/-- SR-MV-TB. -/
theorem test_srMv :
    decoded .srMv (tileWith tb 0x61AC#16) =
      some (0xFFFFFFFFFFFFFFF3#64, 0x3840#16, 0xA808#16, 23) := by decide +kernel
/-- SR-DQ-TA. -/
theorem test_srDq :
    decoded .srDq (tileWith [0xA5#8] 0x2D7F#16) =
      some (0xFFFFFFFFFFFFFFFE#64, 0x6BDF#16, 0x8008#16, 18) := by decide +kernel
/-- Vector AA-9. -/
theorem test_adapt :
    Table.adapt ⟨[8192#16, 16384#16, 24576#16, 32768#16], 0#6⟩ 2 =
      ⟨[7936#16, 15872#16, 24832#16, 32768#16], 1#6⟩ := by decide

/-! ### Witnesses: for each statement with hypotheses, a state and operands that meet them together, clause by clause,
at the boundaries of their ranges. `demo` has both units set up: eight bytes of BUF, the BC window on bytes 0 to 3 with
the cursor at bit 3, the tile on bytes 4 and 5. -/

def demo : State :=
  { blank tb with
    arg0 := 29#64
    bc := { base := 0#64, len := 4#64, pos := 3#64 }
    ad := { base := 4#64, size := 2#64, bitpos := 15, value := 0x61AC#16, range := 0x8000#16 }
    status := { (blank tb).status with bcValid := true, adValid := true } }

/-- Nothing set up. -/
def unset : State := blank tb

theorem demo_inv : demo.Inv :=
  ⟨by decide, by decide, fun _ => by decide, fun _ => by decide, fun _ => by decide,
    fun _ => by decide, fun _ => by decide, by decide, by decide⟩

theorem unset_inv : unset.Inv :=
  ⟨by decide, by decide, nofun, nofun, nofun,
    nofun, nofun, by decide, by decide⟩

/-- Windows over all of a BUF, for the varint witnesses. -/
theorem cursorAt_inv (bytes : List Byte) (h : bytes.length < 2 ^ 61) : (cursorAt bytes 0#64).Inv := by
  have hl : (BitVec.ofNat 64 bytes.length).toNat = bytes.length := by
    rw [BitVec.toNat_ofNat]; omega
  refine ⟨h, ?_, fun _ => ?_, fun _ => Nat.zero_le _, nofun, nofun,
    nofun, (by decide : (CdfRam.reload .uniform).wf = true),
    (by decide : CdfRam.uniform.wfDefault = true)⟩
  · have := Memory.ofBytesFrom_wfFrom bytes 0 0 (Nat.le_refl _)
    rw [Nat.zero_add] at this
    exact this
  · show 0 + (BitVec.ofNat 64 bytes.length).toNat ≤ bytes.length
    omega

theorem witness_DecodeOfEncodeIsTheInstruction :
    (Instr.bcRdbits .lsb 127).wf = true ∧ (Instr.srPart 7 true false).wf = true := by decide

theorem witness_DecodedCommandReencodesToItsWord :
    decode 0x1201007F#64 = .instr (.bcRdbits .lsb 127) := by decide

theorem witness_IllegalWord_upper : IllegalWord 0x100000000#64 := Or.inl (by decide)
/-- OPC 0x0F, 0x1A, 0x1F, 0x21, 0x2F, 0x32, 0x3F, 0x47 and 0xFF: the ends of R79's ranges. -/
theorem witness_IllegalWord_opc :
    IllegalWord 0#64 ∧ IllegalWord 0x0F000000#64 ∧ IllegalWord 0x1A000000#64 ∧
      IllegalWord 0x1F000000#64 ∧ IllegalWord 0x21000000#64 ∧ IllegalWord 0x2F000000#64 ∧
      IllegalWord 0x32000000#64 ∧ IllegalWord 0x3F000000#64 ∧ IllegalWord 0x47000000#64 ∧
      IllegalWord 0xFF000000#64 := by
  refine ⟨?_, ?_, ?_, ?_, ?_, ?_, ?_, ?_, ?_, ?_⟩ <;> refine Or.inr (Or.inl ?_) <;> simp

theorem witness_IllegalWord_reserved_bit :
    IllegalWord 0x10000001#64 ∧ IllegalWord 0x12800000#64 := by
  have z : (⟨0x10000000#32, maskZ, fun _ => .bcInit⟩ : OpcodeRow) ∈ opcodeRows :=
    .head _
  have on : (⟨0x12000000#32, maskON, fun c => .bcRdbits (fieldO c) (fieldN c)⟩ : OpcodeRow) ∈
      opcodeRows := .tail _ (.tail _ (.head _))
  exact ⟨Or.inr (Or.inr ⟨_, z, by decide, 0, by decide⟩),
    Or.inr (Or.inr ⟨_, on, by decide, 23, by decide⟩)⟩

theorem witness_IllegalCmdWriteOnlyRecordsTheError :
    IllegalWord 0x100000000#64 ∧ IllegalWord 0x47000000#64 ∧ IllegalWord 0x10000001#64 ∧
      (IllegalWord 0#64 ∨ 0#64 = 0#64) :=
  ⟨witness_IllegalWord_upper, witness_IllegalWord_opc.2.2.2.2.2.2.2.2.1,
    witness_IllegalWord_reserved_bit.1, Or.inr rfl⟩

theorem witness_StepRunsTheDecodedCommand :
    ({ demo with host := [.writeReg 0 8 0 0x18000000#64] } : State).host =
        .writeReg 0 8 0x00 0x18000000#64 :: [] ∧
      (demo.driver = none ∨ demo.driver = some 0) ∧ decode 0x18000000#64 = .instr .bcPos := by
  decide

theorem witness_PlacedCommandRunsNext : (Instr.srPart 3 true true).wf = true := by decide

/-- The driver hypothesis of the host statements, and a command of each kind that completes. -/
theorem witness_ArgumentRegistersAreTheHosts :
    (demo.driver = none ∨ demo.driver = some 7) ∧ (∃ t, exec .bcPos demo = .next t) ∧
      ({ demo with arg0 := 3#64, arg1 := 5#64 } : State).arg0.toNat + 5 ≤ demo.bufLen ∧
      demo.status.bcValid = true ∧ demo.bc.pos.toNat + demo.arg0.toNat ≤ bcBits demo ∧
      (Instr.bcPos ≠ .bcInit ∧ (∀ k, Instr.bcPos ≠ .adInit k) ∧ Instr.bcPos ≠ .bcSkip) :=
  ⟨Or.inl rfl, ⟨_, rfl⟩, by decide, rfl, by decide, by decide, nofun, by decide⟩

theorem witness_ResultRegistersHoldTheLastResult :
    (∃ t, exec .bcRem unset = .next t ∧ t.status.err ≠ .ok) ∧
      (∃ t, exec .bcSkip demo = .next t ∧ t.status.err = .ok) ∧
      (unset.driver = none ∨ unset.driver = some 0) :=
  ⟨⟨_, rfl, by decide⟩, ⟨_, rfl, by decide⟩, Or.inl rfl⟩

theorem witness_StatusRegisterFields :
    (∃ t, exec .bcInit demo = .next t ∧ t.status.err ≠ .ok) ∧
      (∃ t, exec .bcRem demo = .next t ∧ t.status.err = .ok) ∧
      (demo.driver = none ∨ demo.driver = some 0) :=
  ⟨⟨_, rfl, by decide⟩, ⟨_, rfl, by decide⟩, Or.inl rfl⟩

theorem witness_RegisterReadsHaveNoSideEffect :
    demo.driver = none ∨ demo.driver = some 0 := Or.inl rfl

theorem witness_AccessFormsOutsideTheSpecAreRefused :
    ((4 ≠ 8 ∨ 0 % 8 ≠ 0) ∧ (8 ≠ 8 ∨ 4 % 8 ≠ 0)) ∧ (8 = 8 ∧ 0x38 % 8 = 0 ∧ 0x38 ≤ 0x38) := by decide

theorem witness_SecondHostIsRefused :
    (∃ t, step { demo with host := [.writeReg 3 8 Reg.arg0.offset 1#64] } = .next t) ∧
      (∃ t, step { demo with host := [.readReg 3 8 Reg.res0.offset] } = .next t) ∧
      (({ demo with driver := some 3 } : State).driver = some 3 ∧
        HostEvent.writeBuf 7 1#8 ≠ .reset ∧
        ∃ t, step { demo with driver := some 3, host := [.writeBuf 7 1#8] } = .next t) ∧
      (4 : Nat) ≠ 3 :=
  ⟨⟨_, rfl⟩, ⟨_, rfl⟩, ⟨rfl, by decide, ⟨_, rfl⟩⟩, by decide⟩

/-- Inside the BC window (its first and last byte), inside the tile, and in neither. -/
theorem witness_BufWritesStayOutsideValidWindows :
    demo.Inv ∧
      (∀ a ∈ [0, 3], a < demo.bufLen ∧ demo.status.bcValid = true ∧ demo.bc.base.toNat ≤ a ∧
        a < demo.bc.base.toNat + demo.bc.len.toNat) ∧
      (∀ a ∈ [4, 5], a < demo.bufLen ∧ demo.status.adValid = true ∧ demo.ad.base.toNat ≤ a ∧
        a < demo.ad.base.toNat + demo.ad.size.toNat) ∧
      (∀ a ∈ [6, 7], a < demo.bufLen ∧
        ¬((demo.status.bcValid = true ∧ demo.bc.base.toNat ≤ a ∧
            a < demo.bc.base.toNat + demo.bc.len.toNat) ∨
          (demo.status.adValid = true ∧ demo.ad.base.toNat ≤ a ∧
            a < demo.ad.base.toNat + demo.ad.size.toNat))) :=
  ⟨demo_inv, by decide, by decide, by decide⟩

theorem witness_LoadedBufReadsBack :
    (unset.status.bcValid = false ∧ unset.status.adValid = false ∧ tb.length < 2 ^ 61) ∧
      demo.status.bcValid = true ∧
      ∃ content : List Byte, unset.status.bcValid = false ∧ unset.status.adValid = false ∧
        2 ^ 61 ≤ content.length :=
  ⟨by decide, rfl, List.replicate (2 ^ 61) 0#8, rfl, rfl, (List.length_replicate ..).ge⟩

theorem witness_DefaultCdfIsChecked :
    PassesDefaultCheck .uniform ∧
      ¬PassesDefaultCheck (CdfRam.uniform.set .skip ⟨[0#16, 32768#16], 0#6⟩) := by
  constructor
  · intro t
    cases t <;> refine ⟨by decide, by decide, ?_, by decide, by decide⟩ <;>
      (intro i j hij hj
       revert i
       revert j
       simp only [TableId.symbols, Config.dqBaseN, Config.dqDiffN]
       decide)
  · intro h
    exact absurd (h .skip).2.1 (by decide)

theorem witness_PseudoInstructionsRunTheirExpansions :
    (demo.driver = none ∨ demo.driver = some 0) ∧ 127 < 128 := ⟨Or.inl rfl, by decide⟩

theorem witness_FailureChangesOnlyStatusAndErroff :
    ∃ t, exec (.bcRdbits .msb 33) demo = .next t ∧ t.status.err ≠ .ok := ⟨_, rfl, by decide⟩

/-- A row of each kind applies somewhere. -/
theorem witness_ErrorsFollowTheErrorTable :
    demo.Inv ∧ unset.Inv ∧
      ErrorRow (.bcRdbits .msb 30) demo 3#64 .bit .unexpectedEof ∧
      ErrorRow .bcSkip { demo with arg0 := 30#64 } 3#64 .bit .unexpectedEof ∧
      ErrorRow .viDec (cursorAt [0x80#8, 0x80#8] 0#64) 16#64 .bit .unexpectedEof ∧
      ErrorRow .bcInit { unset with arg0 := 9#64 } 9#64 .byte .unexpectedEof ∧
      ErrorRow (.bcPeek .lsb 33) demo 3#64 .bit .parse ∧
      ErrorRow (.srPart 2 true true) demo 15#64 .bit .parse ∧
      ErrorRow .viDec (cursorAt (List.replicate 8 0x80#8) 0#64) 0#64 .bit .decode ∧
      ErrorRow .bcAlign unset 0#64 .bit .notInitialised ∧
      ErrorRow .srDq unset 0#64 .bit .notInitialised ∧
      IllegalWord 0x100000000#64 := by
  refine ⟨demo_inv, unset_inv, Or.inl ⟨rfl, rfl, rfl, 30, 32, rfl, by decide, by decide⟩,
    Or.inl ⟨rfl, rfl, rfl, 30, 2 ^ 64, rfl, by decide, by decide⟩,
    Or.inr (Or.inl ⟨rfl, rfl, rfl, 2, by decide, by decide, by decide, by decide, by decide⟩),
    Or.inr (Or.inr ⟨rfl, Or.inl rfl, by decide, by decide⟩),
    Or.inl ⟨rfl, rfl, rfl, 33, 32, rfl, by decide⟩,
    Or.inr ⟨rfl, rfl, rfl, 2, true, true, rfl, by decide⟩,
    ⟨rfl, rfl, rfl, rfl, by decide, by decide +kernel⟩, ⟨rfl, rfl, Or.inl ⟨rfl, rfl⟩⟩,
    ⟨rfl, rfl, Or.inr ⟨rfl, rfl⟩⟩, witness_IllegalWord_upper⟩

theorem witness_StickyIsClearedOnlyByReset :
    (∃ t, writeCmd 0#64 demo = .next t ∧ t.status.err ≠ .ok) ∧
      (∃ t, writeCmd 0x18000000#64 demo = .next t ∧ t.status.err = .ok) ∧
      (HostEvent.writeReg 0 8 0 0x18000000#64 ≠ .reset ∧
        ∃ t, step { demo with
          status := { demo.status with sticky := true }
          host := [.writeReg 0 8 0 0x18000000#64] } = .next t) :=
  ⟨⟨_, rfl, by decide⟩, ⟨_, rfl, by decide⟩, by decide, ⟨_, rfl⟩⟩

theorem witness_ErrorRecordIsNeverRead : ∃ t, exec .bcRem demo = .next t := ⟨_, rfl⟩

theorem witness_UnsetUnitsFail :
    (Instr.viDec.needsCursor = true ∧ unset.status.bcValid = false) ∧
      (Instr.srMv.needsDecoder = true ∧ unset.status.adValid = false) := by decide

/-- Sum at BUF_LEN, and one past it. -/
theorem witness_BcInitSetsTheWindow :
    (3#64).toNat + (5#64).toNat ≤ demo.bufLen ∧ demo.bufLen < (4#64).toNat + (5#64).toNat := by
  decide

/-- Reads that end exactly at the window end, and a full 32-bit one. -/
theorem witness_BitReadsTakeTheirBitsInOrder :
    demo.Inv ∧ demo.status.bcValid = true ∧ demo.bc.pos.toNat + 1 ≤ bcBits demo ∧
      (29 ≤ 32 ∧ demo.bc.pos.toNat + 29 ≤ bcBits demo) ∧ demo.bc.pos.toNat + 8 ≤ bcBits demo ∧
      ((cursorAt tb 0#64).Inv ∧ 64 ≤ 64 ∧
        (cursorAt tb 0#64).bc.pos.toNat + 64 ≤ bcBits (cursorAt tb 0#64)) :=
  ⟨demo_inv, rfl, by decide, by decide, by decide, cursorAt_inv tb (by decide), by decide,
    by decide⟩

theorem witness_BitReadsFailInPriorityOrder :
    unset.status.bcValid = false ∧ (demo.status.bcValid = true ∧ 32 < 33) ∧
      (demo.status.bcValid = true ∧ 30 ≤ 32 ∧ bcBits demo < demo.bc.pos.toNat + 30) := by decide

theorem witness_SkipMovesOrFails :
    demo.Inv ∧ unset.Inv ∧
      (demo.status.bcValid = true ∧ demo.bc.pos.toNat + demo.arg0.toNat ≤ bcBits demo) ∧
      bcBits demo < demo.bc.pos.toNat + (30#64).toNat ∧ unset.status.bcValid = false :=
  ⟨demo_inv, unset_inv, by decide, by decide, rfl⟩

/-- The same two states serve BC.ALIGN, BC.POS and BC.REM, and with AD_VALID the decoder's commands. -/
theorem witness_AlignRoundsUpToAByte :
    demo.Inv ∧ demo.status.bcValid = true ∧ unset.Inv ∧ unset.status.bcValid = false :=
  ⟨demo_inv, rfl, unset_inv, rfl⟩

theorem witness_PositionAndRemainder :
    demo.Inv ∧ demo.status.bcValid = true ∧ unset.Inv ∧ unset.status.bcValid = false :=
  ⟨demo_inv, rfl, unset_inv, rfl⟩

theorem witness_BitByBitEqualsOneRead :
    demo.Inv ∧ demo.status.bcValid = true ∧ 29 ≤ 32 ∧ demo.bc.pos.toNat + 29 ≤ bcBits demo :=
  ⟨demo_inv, rfl, by decide, by decide⟩

theorem witness_CursorMovesByTheBitsConsumed :
    demo.Inv ∧ (∃ t, exec .bcAlign demo = .next t ∧ t.status.err = .ok ∧ Instr.bcAlign ≠ .bcInit) ∧
      (∃ t, exec .bcInit { demo with arg0 := 0#64 } = .next t ∧ t.status.err = .ok) ∧
      (∃ t, exec .bcInit demo = .next t ∧ t.status.err ≠ .ok) :=
  ⟨demo_inv, ⟨_, rfl, by decide, by decide⟩, ⟨_, rfl, by decide⟩, ⟨_, rfl, by decide⟩⟩

/-- One byte, eight bytes, a window that ends at once and one that ends before the eighth byte, and eight continuing
bytes. -/
theorem witness_VarintFollowsItsBytes :
    (cursorAt [0x7F#8] 0#64).Inv ∧
      (0 < 8 ∧ 0 + 8 * (0 + 1) ≤ bcBits (cursorAt [0x7F#8] 0#64) ∧
        lebByte (cursorAt [0x7F#8] 0#64) 0 < 0x80) ∧
      ((∀ j, j < 7 → 0x80 ≤ lebByte (cursorAt (List.replicate 7 0x80#8 ++ [1#8]) 0#64) j) ∧
        lebByte (cursorAt (List.replicate 7 0x80#8 ++ [1#8]) 0#64) 7 < 0x80) ∧
      (0 + 8 * 0 ≤ bcBits (cursorAt [] 0#64) ∧ bcBits (cursorAt [] 0#64) < 0 + 8 * (0 + 1)) ∧
      (bcBits (cursorAt (List.replicate 7 0x80#8) 0#64) < 0 + 8 * (7 + 1) ∧
        ∀ j, j < 7 → 0x80 ≤ lebByte (cursorAt (List.replicate 7 0x80#8) 0#64) j) ∧
      (0 + 64 ≤ bcBits (cursorAt (List.replicate 8 0x80#8) 0#64) ∧
        ∀ j, j < 8 → 0x80 ≤ lebByte (cursorAt (List.replicate 8 0x80#8) 0#64) j) ∧
      unset.Inv ∧ unset.status.bcValid = false :=
  ⟨cursorAt_inv _ (by decide), by decide +kernel, by decide +kernel, by decide, by decide +kernel,
    by decide +kernel, unset_inv, rfl⟩

/-- The spec's example, and the largest value. -/
theorem witness_VarintRoundTrip :
    (cursorAt [0xE5#8, 0x8E#8, 0x26#8] 0#64).Inv ∧ 624485 < 2 ^ 56 ∧
      0 + 8 * leb128Size 8 624485 ≤ bcBits (cursorAt [0xE5#8, 0x8E#8, 0x26#8] 0#64) ∧
      (∀ j, j < leb128Size 8 624485 → lebByte (cursorAt [0xE5#8, 0x8E#8, 0x26#8] 0#64) j =
        ((encodeUleb128 8 624485).getD j 0#8).toNat) ∧
      (∀ j, j < 8 → lebByte (cursorAt (List.replicate 7 0xFF#8 ++ [0x7F#8]) 0#64) j =
        ((encodeUleb128 8 (2 ^ 56 - 1)).getD j 0#8).toNat) :=
  ⟨cursorAt_inv _ (by decide), by decide, by decide +kernel, by decide +kernel, by decide +kernel⟩

theorem witness_AdInitStartsTheDecoder :
    (3#64).toNat + (5#64).toNat ≤ demo.bufLen ∧ demo.bufLen < (4#64).toNat + (5#64).toNat := by
  decide

theorem witness_AdPosReportsTheTilePosition :
    demo.status.adValid = true ∧ unset.status.adValid = false := ⟨rfl, rfl⟩

theorem witness_FetchTakesTheNextTileBits : 0 < 13 ∧ 12 < 13 := by decide

theorem witness_SymbolOwnsTheBucketOfV :
    (Table.uniform 16).wf 16 = true ∧ (Table.uniform 2).wf 2 = true ∧ 2 ≤ 2 ∧ 16 ≤ 16 ∧
      2 ^ 15 ≤ demo.ad.range.toNat ∧ demo.ad.value.toNat < demo.ad.range.toNat := by decide

theorem witness_RenormaliseRestoresTheRange :
    (0 < 1 ∧ 1 < 2 ^ 16 ∧ 0 < 1) ∧ (0 < 65535 ∧ 65535 < 2 ^ 16 ∧ 65534 < 65535) := by decide

theorem witness_SymbolStepKeepsTheDecoderBounds :
    (Table.uniform 16).wf 16 = true ∧ (Table.uniform 2).wf 2 = true ∧
      2 ^ 15 ≤ demo.ad.range.toNat ∧ demo.ad.value.toNat < demo.ad.range.toNat := by decide

/-- Counters 15, 16, 31 and 32, where the rate changes; the first and the last symbol. -/
theorem witness_AdaptMovesEveryEntry :
    ∀ c ∈ [15#6, 16#6, 31#6, 32#6],
      ({ Table.uniform 4 with cnt := c } : Table).wf 4 = true ∧ 2 ≤ 4 ∧ 4 ≤ 16 ∧ 0 < 4 ∧ 3 < 4 := by
  decide

theorem witness_AdaptKeepsTheTableInvariant :
    (Table.uniform 13).wf 13 = true ∧ 2 ≤ 13 ∧ 12 < 13 := by decide

theorem witness_CtxrstReloadsTheDefaults :
    (∃ t, exec (.adInit .reload) { demo with arg0 := 0#64 } = .next t ∧ t.status.err = .ok) ∧
      ∃ u, exec .srCtxrst demo = .next u := ⟨⟨_, rfl, by decide⟩, ⟨_, rfl⟩⟩

theorem witness_OneSymbolReads :
    demo.Inv ∧ demo.status.adValid = true ∧ unset.Inv ∧ unset.status.adValid = false :=
  ⟨demo_inv, rfl, unset_inv, rfl⟩

theorem witness_PartitionReads :
    (0 < 8 ∧ 7 < 8) ∧ demo.Inv ∧ (demo.status.adValid = true ∧ 0 < 3 ∧ 2 < 3) ∧ unset.Inv ∧
      unset.status.adValid = false := ⟨by decide, demo_inv, by decide, unset_inv, rfl⟩

theorem witness_EdgePartitionReads :
    demo.Inv ∧ demo.status.adValid = true ∧ (3 ≤ 3 ∧ 3 ≤ 7) ∧ (3 ≤ 7 ∧ 7 ≤ 7) :=
  ⟨demo_inv, rfl, by decide, by decide⟩

theorem witness_MvReadFollowsItsSymbols :
    demo.Inv ∧ demo.status.adValid = true ∧ unset.Inv ∧ unset.status.adValid = false :=
  ⟨demo_inv, rfl, unset_inv, rfl⟩

/-- The escape clause at a base table of five symbols, whose last one takes the escape. -/
theorem witness_DqReadFollowsItsSymbols :
    (demo.status.adValid = true ∧ demo.ad.base.toNat + demo.ad.size.toNat ≤ demo.bufLen ∧ demo.Inv) ∧
      (let s := { demo with ram := demo.ram.set .dqBase (.uniform 5) }
       s.status.adValid = true ∧ s.ad.base.toNat + s.ad.size.toNat ≤ s.bufLen) ∧
      unset.status.adValid = false :=
  ⟨⟨rfl, by decide, demo_inv⟩, ⟨rfl, by decide⟩, rfl⟩

theorem witness_TypedReadsSucceedOnceChecked :
    demo.Inv ∧ Instr.srDq.typedRead = true ∧ demo.status.adValid = true ∧
      (∀ bsl hr hc, Instr.srPart 3 true true = .srPart bsl hr hc → 3 ≤ bsl) ∧
      (Instr.srPart 2 true true = .srPart 2 true true ∧ 2 < 3) ∧ unset.Inv ∧
      unset.status.adValid = false :=
  ⟨demo_inv, rfl, rfl, fun _ _ _ h => by cases h; decide, by decide, unset_inv, rfl⟩

theorem witness_EveryCommandCompletes : demo.Inv ∧ unset.Inv := ⟨demo_inv, unset_inv⟩

theorem witness_StepKeepsTheInvariants :
    State.Inv { demo with host := [.writeReg 0 8 0 0x45000000#64] } ∧
      ∃ t, step { demo with host := [.writeReg 0 8 0 0x45000000#64] } = .next t :=
  ⟨⟨demo_inv.bufLen_lt, demo_inv.buf_wf, demo_inv.bc_window, demo_inv.bc_pos, demo_inv.tile_window,
    demo_inv.range_ge, demo_inv.value_lt, demo_inv.ram_wf, demo_inv.rom_wf⟩, _, rfl⟩

theorem witness_NoCommandWritesBufOrRom : ∃ t, exec .srSkip demo = .next t := ⟨_, rfl⟩

theorem witness_CursorAndDecoderShareNoState :
    (Instr.viDec.ofCursor = true ∧ ∃ t, exec .viDec demo = .next t) ∧
      (Instr.srMv.ofCursor = false ∧ ∃ t, exec .srMv demo = .next t) :=
  ⟨⟨rfl, _, rfl⟩, ⟨rfl, _, rfl⟩⟩

theorem witness_UnspecifiedFieldsAreNeverObserved :
    unset.status.bcValid = false ∧ unset.status.adValid = false := ⟨rfl, rfl⟩

/-- For each unit a BUF that differs from demo's right past the unit's own window: a tile byte for the Bit Cursor, the
last byte of the BC window for the typed reads, and a byte of both for AD.INIT on the last two bytes. -/
theorem witness_CommandsReadOnlyTheirWindows :
    (Instr.viDec.ofCursor = true ∧ BytesAgree demo (demo.buf.write 4 0xEE#8) demo.bc.base demo.bc.len ∧
      Memory.read (demo.buf.write 4 0xEE#8) 4 ≠ memRead demo 4) ∧
    (Instr.srMv.typedRead = true ∧
      BytesAgree demo (demo.buf.write 3 0xEE#8) demo.ad.base demo.ad.size ∧
      Memory.read (demo.buf.write 3 0xEE#8) 3 ≠ memRead demo 3) ∧
    (let s := { demo with arg0 := 6#64, arg1 := 2#64 }
     BytesAgree s ((demo.buf.write 3 0xEE#8).write 5 0xEE#8) s.arg0 s.arg1) := by
  refine ⟨⟨rfl, fun a h h' => ?_, by decide⟩, ⟨rfl, fun a h h' => ?_, by decide⟩, fun a h h' => ?_⟩ <;>
  · simp [demo] at h h'
    interval_cases a <;> decide

theorem witness_TilePositionGrowsBySymbols :
    demo.Inv ∧
      (∃ t, exec (.adInit .keep) { demo with arg0 := 0#64 } = .next t ∧ t.status.err = .ok) ∧
      (∃ t, exec .srDq demo = .next t) ∧ ∀ k, Instr.srDq ≠ .adInit k :=
  ⟨demo_inv, ⟨_, rfl, by decide⟩, ⟨_, rfl⟩, nofun⟩

theorem witness_TablesChangeOnlyByTheirReads :
    (∃ t, exec .srMv demo = .next t) ∧ TableId.skip ∉ Instr.srMv.tables := ⟨⟨_, rfl⟩, by decide⟩

end Sys2Proof.Tests
end

section
/-! SUPPORT. The state family (spec/10_state.md): how a command ends, what the ARG registers reach, and the statements about
ARG, RES and STATUS. -/

namespace Sys2Proof

/-- The commands with a result in RES0 (spec/30_encoding.md R78, column results). -/
def Instr.hasResult : Instr → Bool
  | .bcInit | .bcSkip | .bcAlign | .adInit _ | .srCtxrst => false
  | _ => true

end Sys2Proof

namespace Sys2Proof.Machine

/-! ### How a command ends -/

/-- The kinds of success: command `i` makes `t` of `s`. The two commands that set a VALID bit and VI.DEC, which alone
writes RES1, stand apart; any other command gives a result in RES0 or does not. -/
inductive Succeeds (s : State) : Instr → State → Prop
  | bcInit (bc : BitCursor) :
    Succeeds s .bcInit (succeed { s with bc := bc, status := { s.status with bcValid := true } })
  | adInit (k : CarryOver) (ad : ArithDecoder) (ram : CdfRam) :
    Succeeds s (.adInit k)
      (succeed { s with ad := ad, ram := ram, status := { s.status with adValid := true } })
  | viDec (v n pos : Word) :
    Succeeds s .viDec (succeedWith v { s with bc := { s.bc with pos := pos }, res1 := n })
  | noResult {i : Instr} (hi : i.hasResult = false) (pos : Word) (ram : CdfRam) :
    Succeeds s i (succeed { s with bc := { s.bc with pos := pos }, ram := ram })
  | result {i : Instr} (hi : i.hasResult = true) (v pos : Word) (ad : ArithDecoder)
      (ram : CdfRam) :
    Succeeds s i (succeedWith v { s with bc := { s.bc with pos := pos }, ad := ad, ram := ram })

/-- The decoding steps of a typed read and its end. -/
theorem DecodesTo.succeeds {i : Instr} {s t : State} (h : DecodesTo s t)
    (hi : i.hasResult = true) (v : Word) : Succeeds s i (succeedWith v t) := by
  rw [h]
  exact .result hi v s.bc.pos _ _

theorem bcRead_succeeds {i : Instr} {o : Order} {n limit consumed : Nat} {s t : State}
    (hi : i.hasResult = true) (h : bcRead o n limit consumed s = .next t)
    (hok : t.status.err = .ok) : Succeeds s i t := by
  rcases bcRead_cases o n limit consumed s with ⟨-, g⟩ | ⟨-, -, g⟩ | ⟨-, -, -, g⟩ |
    ⟨-, -, -, ⟨-, g⟩ | ⟨-, g⟩⟩ <;> rw [g] at h <;> cases h
  · cases hok
  · cases hok
  · cases hok
  · exact .result hi _ _ s.ad s.ram

theorem decodeInto_succeeds {i : Instr} {f : State → Reading} {s t : State}
    (hi : i.hasResult = true) (hf : DecodesTo s (f s).state)
    (h : decodeInto f s = .next t) : Succeeds s i t := by
  rcases decodeInto_cases f s with ⟨-, g⟩ | ⟨-, g⟩ <;> rw [g] at h <;> cases h
  exact hf.succeeds hi _

/-- Past a check that raises an error, when no error was recorded. -/
theorem next_past_check {c : Prop} [Decidable c] {e : Err} {off : Word} {u : OffUnit} {s t : State}
    {out : Host.Outcome State Fault Refusal} (he : e ≠ .ok)
    (h : (if c then .next (raise e off u s) else out) = .next t) (hok : t.status.err = .ok) :
    out = .next t := by
  split at h
  · cases h
    exact absurd hok he
  · exact h

theorem typedRead_succeeds {i : Instr} {f : State → Reading} {s t : State}
    (hi : i.hasResult = true) (hf : DecodesTo s (f s).state)
    (h : typedRead f s = .next t) (hok : t.status.err = .ok) : Succeeds s i t :=
  decodeInto_succeeds hi hf (next_past_check (by decide) h hok)

/-- A command that ends without an error has succeeded in one of the five ways. -/
theorem exec_succeeds {i : Instr} {s t : State} (h : exec i s = .next t)
    (hok : t.status.err = .ok) : Succeeds s i t := by
  cases i with
  | bcInit =>
    simp only [exec, execBcInit] at h
    split at h <;> cases h
    · exact .bcInit _
    · cases hok
  | bcRdbit o => exact bcRead_succeeds rfl h hok
  | bcRdbits o n => exact bcRead_succeeds rfl h hok
  | bcRdbits64 o n => exact bcRead_succeeds rfl h hok
  | bcRdbyte o => exact bcRead_succeeds rfl h hok
  | bcPeek o n => exact bcRead_succeeds rfl h hok
  | bcSkip =>
    have hvalid := next_past_check (by decide) h hok
    cases next_past_check (by decide) hvalid hok
    exact .noResult rfl _ s.ram
  | bcAlign =>
    cases next_past_check (by decide) h hok
    exact .noResult rfl _ s.ram
  | bcPos =>
    cases next_past_check (by decide) h hok
    exact .result rfl _ s.bc.pos s.ad s.ram
  | bcRem =>
    cases next_past_check (by decide) h hok
    exact .result rfl _ s.bc.pos s.ad s.ram
  | viDec =>
    have hvalid := next_past_check (by decide) h hok
    split_ifs at hvalid
    split at hvalid <;> cases hvalid
    · exact .viDec _ _ _
    · cases hok
    · cases hok
  | adInit k =>
    simp only [exec, execAdInit, adInit_steps_leave] at h
    split at h <;> cases h
    · exact .adInit k _ _
    · cases hok
  | adPos =>
    cases next_past_check (by decide) h hok
    exact .result rfl _ s.bc.pos s.ad s.ram
  | srCtxrst =>
    cases h
    exact .noResult rfl s.bc.pos _
  | srPart bsl hr hc =>
    have hvalid := next_past_check (by decide) h hok
    have hread := next_past_check (by decide) hvalid hok
    match hr, hc with
    | true, true => exact decodeInto_succeeds rfl (readSymbol_decodesTo _ s) hread
    | false, true => exact decodeInto_succeeds rfl (readEdge_decodesTo _ _ s) hread
    | true, false => exact decodeInto_succeeds rfl (readEdge_decodesTo _ _ s) hread
    | false, false =>
      cases hread
      exact .result rfl _ s.bc.pos s.ad s.ram
  | srSkip => exact typedRead_succeeds rfl (readSymbol_decodesTo _ s) h hok
  | srIntra => exact typedRead_succeeds rfl (readSymbol_decodesTo _ s) h hok
  | srInter => exact typedRead_succeeds rfl (readSymbol_decodesTo _ s) h hok
  | srMv => exact typedRead_succeeds rfl (readMv_decodesTo s) h hok
  | srDq => exact typedRead_succeeds rfl (readDq_decodesTo s) h hok

/-- A command that completes fails by one `raise`, or succeeds in one of the five ways: `exec_cases` with what each
command writes. -/
theorem exec_ends {i : Instr} {s t : State} (h : exec i s = .next t) :
    (∃ e off u, e ≠ .ok ∧ t = raise e off u s) ∨ Succeeds s i t := by
  rcases exec_cases h with hraise | hs
  · exact .inl hraise
  · exact .inr (exec_succeeds h (congrArg (·.status.err) hs))

/-- A successful command records no error and leaves the record of the last one. -/
theorem Succeeds.errorRecord {i : Instr} {s t : State} (h : Succeeds s i t) :
    t.status.err = .ok ∧ t.status.sticky = s.status.sticky ∧
    t.status.errUnit = s.status.errUnit ∧ t.erroff = s.erroff := by
  cases h <;> exact ⟨rfl, rfl, rfl, rfl⟩

/-- RES0 keeps its value through a command without a result. -/
theorem Succeeds.res0 {i : Instr} {s t : State} (h : Succeeds s i t)
    (hi : i.hasResult = false) : t.res0 = s.res0 := by
  cases h with
  | bcInit | adInit | noResult => rfl
  | viDec => cases hi
  | result hi' => exact absurd (hi.symm.trans hi') Bool.false_ne_true

/-- RES1 keeps its value through every command but VI.DEC. -/
theorem Succeeds.res1 {i : Instr} {s t : State} (h : Succeeds s i t) (hi : i ≠ .viDec) :
    t.res1 = s.res1 := by
  cases h with
  | bcInit | adInit | noResult | result => rfl
  | viDec => exact absurd rfl hi

/-- BC_VALID changes only at BC.INIT, and only to 1. -/
theorem Succeeds.bcValid {i : Instr} {s t : State} (h : Succeeds s i t) :
    t.status.bcValid = s.status.bcValid ∨ (i = .bcInit ∧ t.status.bcValid = true) := by
  cases h with
  | bcInit => exact .inr ⟨rfl, rfl⟩
  | adInit | viDec | noResult | result => exact .inl rfl

/-- AD_VALID changes only at AD.INIT, and only to 1. -/
theorem Succeeds.adValid {i : Instr} {s t : State} (h : Succeeds s i t) :
    t.status.adValid = s.status.adValid ∨
      ((∃ k, i = .adInit k) ∧ t.status.adValid = true) := by
  cases h with
  | adInit k => exact .inr ⟨⟨k, rfl⟩, rfl⟩
  | bcInit | viDec | noResult | result => exact .inl rfl

/-! ### What the ARG registers reach -/

/-- `s` with other values in ARG0 and ARG1. -/
def withArgs (a b : Word) (s : State) : State := { s with arg0 := a, arg1 := b }

/-- A branch on one condition on both sides of a map: it is enough that the map carries each branch over. -/
theorem ite_eq_apply_ite {α β : Type} {c : Prop} [Decidable c] (F : α → β) {x y : α} {x' y' : β}
    (hx : x' = F x) (hy : y' = F y) : (if c then x' else y') = F (if c then x else y) := by
  rw [hx, hy, apply_ite F]

theorem bcReadCheck_withArgs (n limit : Nat) (a b : Word) (s : State) :
    bcReadCheck n limit (withArgs a b s) = (bcReadCheck n limit s).map (withArgs a b) :=
  ite_eq_apply_ite (Option.map (withArgs a b)) rfl
    (ite_eq_apply_ite _ rfl (ite_eq_apply_ite _ rfl rfl))

theorem bcRead_withArgs (o : Order) (n limit consumed : Nat) (a b : Word) (s : State) :
    bcRead o n limit consumed (withArgs a b s) =
      mapNext (withArgs a b) (bcRead o n limit consumed s) := by
  unfold bcRead
  rw [bcReadCheck_withArgs]
  cases bcReadCheck n limit s with
  | some failed => rfl
  | none => exact ite_eq_apply_ite _ rfl rfl

theorem lebLoop_withArgs (fuel i p v : Nat) (a b : Word) (s : State) :
    lebLoop (withArgs a b s) fuel i p v = lebLoop s fuel i p v := by
  induction fuel generalizing i p v with
  | zero => rfl
  | succ fuel ih =>
    simp only [lebLoop, ih]
    rfl

theorem execViDec_withArgs (a b : Word) (s : State) :
    execViDec (withArgs a b s) = mapNext (withArgs a b) (execViDec s) := by
  refine ite_eq_apply_ite _ rfl (ite_eq_apply_ite _ ?_ rfl)
  have hbc : (withArgs a b s).bc = s.bc := rfl
  rw [lebLoop_withArgs, hbc]
  cases lebLoop s Config.leb128MaxBytes 0 s.bc.pos.toNat 0 <;> rfl

/-- The decoding steps look at no register, so they carry other ARG values along. -/
theorem ReadsAlike.read_withArgs {f : State → Reading} (hf : ReadsAlike f)
    (hd : ∀ s, DecodesTo s (f s).state) (a b : Word) (s : State) :
    f (withArgs a b s) = ⟨(f s).value, withArgs a b (f s).state⟩ := by
  rw [hf s (withArgs a b s) ⟨rfl, rfl, fun _ _ _ => rfl⟩, hd s]
  rfl

theorem decodeInto_withArgs {f : State → Reading} (hf : ReadsAlike f)
    (hd : ∀ s, DecodesTo s (f s).state) (a b : Word) (s : State) :
    decodeInto f (withArgs a b s) = mapNext (withArgs a b) (decodeInto f s) := by
  refine ite_eq_apply_ite _ ?_ rfl
  rw [hf.read_withArgs hd]
  rfl

theorem typedRead_withArgs {f : State → Reading} (hf : ReadsAlike f)
    (hd : ∀ s, DecodesTo s (f s).state) (a b : Word) (s : State) :
    typedRead f (withArgs a b s) = mapNext (withArgs a b) (typedRead f s) :=
  ite_eq_apply_ite _ rfl (decodeInto_withArgs hf hd a b s)

theorem execSrPart_withArgs (bsl : Nat) (hr hc : Bool) (a b : Word) (s : State) :
    execSrPart bsl hr hc (withArgs a b s) =
      mapNext (withArgs a b) (execSrPart bsl hr hc s) := by
  refine ite_eq_apply_ite _ rfl (ite_eq_apply_ite _ rfl ?_)
  match hr, hc with
  | true, true => exact decodeInto_withArgs (readSymbol_alike _) (readSymbol_decodesTo _) a b s
  | false, true => exact decodeInto_withArgs (readEdge_alike _ _) (readEdge_decodesTo _ _) a b s
  | true, false => exact decodeInto_withArgs (readEdge_alike _ _) (readEdge_decodesTo _ _) a b s
  | false, false => rfl

/-- Every command but the three with 64-bit operands does the same whatever ARG0 and ARG1 hold. -/
theorem exec_withArgs {i : Instr} (hbc : i ≠ .bcInit) (had : ∀ k, i ≠ .adInit k)
    (hskip : i ≠ .bcSkip) (a b : Word) (s : State) :
    exec i (withArgs a b s) = mapNext (withArgs a b) (exec i s) := by
  cases i with
  | bcInit => exact absurd rfl hbc
  | adInit k => exact absurd rfl (had k)
  | bcSkip => exact absurd rfl hskip
  | bcRdbit o => exact bcRead_withArgs o 1 1 1 a b s
  | bcRdbits o n => exact bcRead_withArgs o n 32 n a b s
  | bcRdbits64 o n => exact bcRead_withArgs o n 64 n a b s
  | bcRdbyte o => exact bcRead_withArgs o 8 8 8 a b s
  | bcPeek o n => exact bcRead_withArgs o n 32 0 a b s
  | bcAlign => exact ite_eq_apply_ite _ rfl rfl
  | bcPos => exact ite_eq_apply_ite _ rfl rfl
  | bcRem => exact ite_eq_apply_ite _ rfl rfl
  | viDec => exact execViDec_withArgs a b s
  | adPos => exact ite_eq_apply_ite _ rfl rfl
  | srCtxrst => rfl
  | srPart bsl hr hc => exact execSrPart_withArgs bsl hr hc a b s
  | srSkip => exact typedRead_withArgs (readSymbol_alike _) (readSymbol_decodesTo _) a b s
  | srIntra => exact typedRead_withArgs (readSymbol_alike _) (readSymbol_decodesTo _) a b s
  | srInter => exact typedRead_withArgs (readSymbol_alike _) (readSymbol_decodesTo _) a b s
  | srMv => exact typedRead_withArgs readMv_alike readMv_decodesTo a b s
  | srDq => exact typedRead_withArgs readDq_alike readDq_decodesTo a b s

/-- BC.SKIP does the same whatever ARG1 holds. -/
theorem exec_bcSkip_arg1 (b : Word) (s : State) :
    exec .bcSkip { s with arg1 := b } =
      mapNext (fun t => { t with arg1 := b }) (exec .bcSkip s) :=
  ite_eq_apply_ite _ rfl (ite_eq_apply_ite _ rfl rfl)

/-- No command writes ARG0 or ARG1. -/
theorem exec_leaves_args {i : Instr} {s t : State} (h : exec i s = .next t) :
    t.arg0 = s.arg0 ∧ t.arg1 = s.arg1 := by
  rcases exec_cases h with ⟨e, off, u, -, rfl⟩ | hs
  · exact ⟨rfl, rfl⟩
  · exact ⟨by rw [hs], by rw [hs]⟩

/-- BC.INIT takes the window from ARG0 and ARG1. -/
theorem exec_bcInit_of_fits {s : State} (h : s.arg0.toNat + s.arg1.toNat ≤ s.bufLen) :
    exec .bcInit s = .next (succeed { s with
      bc := { base := s.arg0, len := s.arg1, pos := 0#64 }
      status := { s.status with bcValid := true } }) :=
  if_pos (decide_eq_true h)

/-- AD.INIT takes the tile from ARG0 and ARG1. -/
theorem exec_adInit_of_fits {s : State} (k : CarryOver)
    (h : s.arg0.toNat + s.arg1.toNat ≤ s.bufLen) :
    exec (.adInit k) s =
      .next (succeed (carryOver k (startDecoder (placeTile s.arg0 s.arg1 s)))) :=
  if_pos (decide_eq_true h)

/-- BC.SKIP takes its bit count from ARG0. -/
theorem exec_bcSkip_of_fits {s : State} (hv : s.status.bcValid = true)
    (h : s.bc.pos.toNat + s.arg0.toNat ≤ bcBits s) :
    exec .bcSkip s = .next (succeed (advanceCursor s.arg0.toNat s)) := by
  simp only [exec, execBcSkip]
  rw [if_neg (by simp [hv]), if_neg (by omega)]

/-! ### STATUS as a word -/

/-- ERR is the lowest four bits of STATUS. -/
theorem Status.word_mod_16 (st : Status) : st.word.toNat % 16 = errNumber st.err := by
  have herr : st.word.setWidth 4 = st.err.code := BitVec.setWidth_append_eq_right
  have hmod : (st.word.setWidth 4).toNat = st.word.toNat % 16 := BitVec.toNat_setWidth 4 st.word
  rw [← hmod, herr]
  cases st.err <;> rfl

/-- A bit of STATUS as a bit of the appended fields, at the width their lengths add up to (which the library's rule for
a bit of an append asks for). -/
theorem Status.word_getLsbD (st : Status) (j : Nat) :
    st.word.getLsbD j = BitVec.getLsbD (w := 54 + 1 + 1 + 2 + 1 + 1 + 4)
      (0#54 ++ BitVec.ofBool st.adValid ++ BitVec.ofBool st.bcValid ++ 0#2
        ++ st.errUnit.code ++ BitVec.ofBool st.sticky ++ st.err.code) j := rfl

/-- The bits of STATUS above ERR that hold a field, and the two reserved ones between them. -/
theorem Status.word_fields (st : Status) :
    st.word.getLsbD 4 = st.sticky ∧ st.word.getLsbD 5 = st.errUnit.code.getLsbD 0 ∧
    st.word.getLsbD 6 = false ∧ st.word.getLsbD 7 = false ∧
    st.word.getLsbD 8 = st.bcValid ∧ st.word.getLsbD 9 = st.adValid := by
  simp only [Status.word_getLsbD, BitVec.getLsbD_append]
  simp

/-- Every bit of STATUS above AD_VALID is reserved. -/
theorem Status.word_high (st : Status) {j : Nat} (hj : 10 ≤ j) : st.word.getLsbD j = false := by
  obtain ⟨k, rfl⟩ := Nat.exists_eq_add_of_le' hj
  simp only [Status.word_getLsbD, BitVec.getLsbD_append]
  simp

theorem OffUnit.code_eq_one_iff (u : OffUnit) : u.code.getLsbD 0 = true ↔ u = .byte := by
  cases u <;> decide

/-- STATUS after reset. -/
theorem Status.word_reset : Status.word ⟨.ok, false, .bit, false, false⟩ = 0#64 := by decide

/-! ### Register accesses by the one host -/

/-- A register write by the host that drives the block, or by the first one. -/
theorem step_writeReg_of_driver {s : State} {h : Nat} (hd : s.driver = none ∨ s.driver = some h)
    (r : Reg) (v : Word) (rest : List HostEvent) :
    step { s with host := .writeReg h 8 r.offset v :: rest } =
      writeReg r v { s with host := rest, driver := some h } := by
  rw [step_writeReg, if_pos hd]

/-- A register read by the host that drives the block, or by the first one. -/
theorem step_readReg_of_driver {s : State} {h : Nat} (hd : s.driver = none ∨ s.driver = some h)
    (r : Reg) (rest : List HostEvent) :
    step { s with host := .readReg h 8 r.offset :: rest } =
      .next { s with host := rest, driver := some h, readData := readReg s r } := by
  rw [step_readReg, if_pos hd]

/-! ### The three statements -/

/-- Settles O7: other ARG values are carried through each command, since its checks, its bits of BUF and its decoding
steps do not look at them. -/
theorem argumentRegistersAreTheHosts : Obligations.ArgumentRegistersAreTheHosts := by
  refine ⟨fun s h rest v hd => ?_, fun i s t => exec_leaves_args, fun s hfit => ?_,
    fun s hv hfit => ?_, fun i s a b hbc had hskip => exec_withArgs hbc had hskip a b s,
    fun s b => exec_bcSkip_arg1 b s⟩
  · exact ⟨step_writeReg_of_driver hd .arg0 v rest, step_writeReg_of_driver hd .arg1 v rest,
      step_readReg_of_driver hd .arg0 rest, step_readReg_of_driver hd .arg1 rest⟩
  · refine ⟨⟨_, exec_bcInit_of_fits hfit, rfl, rfl⟩,
      fun k => ⟨_, exec_adInit_of_fits k hfit, ?_, ?_⟩⟩
    · rw [adInit_steps_leave]
      rfl
    · rw [adInit_steps_leave]
      rfl
  · refine ⟨_, exec_bcSkip_of_fits hv hfit, ?_⟩
    simp [BitVec.ofNat_add]

/-- Settles O8, by the ways a command can end: one `raise`, or a success that names the results it writes. -/
theorem resultRegistersHoldTheLastResult : Obligations.ResultRegistersHoldTheLastResult := by
  refine ⟨fun i s t h => ?_, fun s h rest v hd =>
    ⟨step_writeReg_of_driver hd .res0 v rest, step_writeReg_of_driver hd .res1 v rest⟩⟩
  rcases exec_ends h with ⟨e, off, u, -, rfl⟩ | hs
  · exact ⟨fun _ => ⟨rfl, rfl⟩, fun _ => rfl, fun _ => rfl⟩
  · refine ⟨fun hne => absurd hs.errorRecord.1 hne, fun hi => hs.res0 ?_, hs.res1⟩
    rcases hi with rfl | rfl | rfl | ⟨k, rfl⟩ | rfl <;> rfl

/-- Settles O9: the places of the fields from the append that STATUS is, who writes them from the ways a command can
end. -/
theorem statusRegisterFields : Obligations.StatusRegisterFields := by
  refine ⟨fun st => ?_, fun s h rest v hd => step_writeReg_of_driver hd .status v rest,
    fun i s t h => ?_, fun s rest => ⟨_, rfl, Status.word_reset⟩⟩
  · obtain ⟨hsticky, hunit, h6, h7, hbc, had⟩ := st.word_fields
    exact ⟨st.word_mod_16, hsticky, hunit ▸ st.errUnit.code_eq_one_iff, h6, h7, hbc, had,
      fun j hj => st.word_high hj⟩
  · rcases exec_ends h with ⟨e, off, u, he, rfl⟩ | hs
    · exact ⟨fun hok => absurd hok he, fun _ => rfl, .inl rfl, .inl rfl⟩
    · obtain ⟨hok, hrecord⟩ := hs.errorRecord
      exact ⟨fun _ => hrecord, fun hne => absurd hok hne, hs.bcValid, hs.adValid⟩

end Sys2Proof.Machine
end

section
/-! SUPPORT. The encoding family (spec/30_encoding.md): which CMD values spell a command, how a program's lines run, and the
statements about illegal words and pseudo-instructions. -/

namespace Sys2Proof

/-! ### The rows of the opcode table -/

/-- Every row fixes bits 31:24, and its pattern is 0 below them (spec/30_encoding.md R71, R73). -/
theorem OpcodeRow.fixed_bits : ∀ r ∈ opcodeRows,
    fieldOpc r.mask = 0xFF#8 ∧ r.pattern.extractLsb' 0 24 = 0#24 := by
  decide

/-- The listed values of OPC (spec/30_encoding.md R78). -/
theorem OpcodeRow.opc_listed : ∀ r ∈ opcodeRows, let opc := (fieldOpc r.pattern).toNat
    (0x10 ≤ opc ∧ opc ≤ 0x19) ∨ opc = 0x20 ∨ (0x30 ≤ opc ∧ opc ≤ 0x31) ∨
      (0x40 ≤ opc ∧ opc ≤ 0x46) := by
  decide

/-- No two rows have the same OPC. -/
theorem OpcodeRow.eq_of_opc_eq {r q : OpcodeRow} (hr : r ∈ opcodeRows) (hq : q ∈ opcodeRows)
    (h : fieldOpc r.pattern = fieldOpc q.pattern) : r = q := by
  have hnodup : (opcodeRows.map fun r => fieldOpc r.pattern).Nodup := by decide
  exact List.inj_on_of_nodup_map hnodup hr hq h

theorem OpcodeRow.spells_iff {r : OpcodeRow} {c : CmdWord} :
    r.spells c = true ↔ c &&& r.mask = r.pattern := beq_iff_eq

/-- A word has the OPC of the row it spells. -/
theorem OpcodeRow.opc_of_spells {r : OpcodeRow} {c : CmdWord} (hr : r ∈ opcodeRows)
    (hs : r.spells c = true) : fieldOpc c = fieldOpc r.pattern := by
  have hand : fieldOpc (c &&& r.mask) = fieldOpc c &&& fieldOpc r.mask := BitVec.extractLsb'_and
  rw [← OpcodeRow.spells_iff.mp hs, hand, (OpcodeRow.fixed_bits r hr).1]
  exact (BitVec.and_allOnes (x := fieldOpc c)).symm

/-- A word that spells a row has none of the row's reserved bits set. -/
theorem OpcodeRow.reserved_bit_of_spells {r : OpcodeRow} {c : CmdWord} (hr : r ∈ opcodeRows)
    (hs : r.spells c = true) {j : Nat} (hj : j < 24) (hmask : r.mask.getLsbD j = true) :
    c.getLsbD j = false := by
  have hpattern : r.pattern.getLsbD j = false := by
    have hlow := congrArg (·.getLsbD j) (OpcodeRow.fixed_bits r hr).2
    simpa [BitVec.getLsbD_extractLsb', hj] using hlow
  rw [← OpcodeRow.spells_iff.mp hs, BitVec.getLsbD_and, hmask, Bool.and_true] at hpattern
  exact hpattern

/-! ### What the decoder accepts -/

/-- A word decodes to what the row it spells builds, and it spells no other row. -/
theorem decodeWord_eq_instr_iff {c : CmdWord} {i : Instr} :
    decodeWord c = .instr i ↔ ∃ r ∈ opcodeRows, r.spells c = true ∧ r.build c = i := by
  unfold decodeWord
  cases hfind : opcodeRows.find? (fun r => r.spells c) with
  | none =>
    have hnone := List.find?_eq_none.mp hfind
    constructor
    · intro h
      split_ifs at h
    · rintro ⟨r, hr, hs, -⟩
      exact absurd hs (hnone r hr)
  | some q =>
    have hq := List.mem_of_find?_eq_some hfind
    have hqs : q.spells c = true := List.find?_some (p := fun r : OpcodeRow => r.spells c) hfind
    constructor
    · intro h
      cases h
      exact ⟨q, hq, hqs, rfl⟩
    · rintro ⟨r, hr, hs, rfl⟩
      have hopc := (OpcodeRow.opc_of_spells hq hqs).symm.trans (OpcodeRow.opc_of_spells hr hs)
      rw [OpcodeRow.eq_of_opc_eq hq hr hopc]

/-- A CMD value decodes to a command exactly when its upper half is 0 and its lower half spells the command's row. -/
theorem decode_eq_instr_iff {w : Word} {i : Instr} :
    decode w = .instr i ↔ w.extractLsb' 32 32 = 0#32 ∧
      ∃ r ∈ opcodeRows, r.spells (w.extractLsb' 0 32) = true ∧ r.build (w.extractLsb' 0 32) = i := by
  unfold decode
  split
  · next h => simp only [h, true_and, decodeWord_eq_instr_iff]
  · next h => exact ⟨nofun, fun hd => absurd hd.1 h⟩

/-- CMD[63:32] of a command's value is 0 and CMD[31:0] is its word, so only the word is decoded. -/
theorem decode_encodeCmd_eq (i : Instr) : decode (encodeCmd i) = decodeWord (encode i) := by
  have hhigh : (encodeCmd i).extractLsb' 32 32 = 0#32 := by
    ext j hj
    simp [encodeCmd]
  have hlow : (encodeCmd i).extractLsb' 0 32 = encode i :=
    (BitVec.extractLsb'_setWidth_of_le (by decide)).trans BitVec.extractLsb'_eq_self
  unfold decode
  rw [if_pos hhigh, hlow]

/-- Field O of a format ON word. -/
theorem fieldO_encodeON {p : CmdWord} (hp : p[16] = false) (o : Order) (n : Nat) :
    fieldO (encodeON p o n) = o := by
  cases o <;> simp [fieldO, fieldBit16, encodeON, Order.bits, hp]

/-- Field N of a format ON word. -/
theorem fieldN_encodeON {p : CmdWord} (hp : p.extractLsb' 0 7 = 0#7) (o : Order) {n : Nat}
    (hn : n < 128) : fieldN (encodeON p o n) = n := by
  have hbits : (encodeON p o n).extractLsb' 0 7 = BitVec.ofNat 7 n := by
    have ho : o.bits.extractLsb' 0 7 = 0#7 := by cases o <;> rfl
    unfold encodeON
    rw [BitVec.extractLsb'_or, BitVec.extractLsb'_or, hp, ho]
    simp [BitVec.extractLsb'_setWidth_of_le, BitVec.extractLsb'_eq_self]
  unfold fieldN
  rw [hbits, BitVec.toNat_ofNat, Nat.mod_eq_of_lt hn]

theorem decode_encodeCmd_bcRdbits (o : Order) {n : Nat} (hn : n < 128) :
    decode (encodeCmd (.bcRdbits o n)) = .instr (.bcRdbits o n) := by
  rw [decode_encodeCmd_eq, decodeWord_eq_instr_iff]
  refine ⟨_, .tail _ (.tail _ (.head _)),
    OpcodeRow.spells_iff.mpr (Laws.Encoding.spells_encodeON _ (by simp) o n), ?_⟩
  have ho : fieldO (encode (.bcRdbits o n)) = o := fieldO_encodeON rfl o n
  have hcount : fieldN (encode (.bcRdbits o n)) = n := fieldN_encodeON rfl o hn
  show Instr.bcRdbits _ _ = _
  rw [ho, hcount]

end Sys2Proof

namespace Sys2Proof.Machine

/-! ### Illegal words -/

/-- OPC of a CMD value's lower half, as a number. -/
theorem toNat_fieldOpc_low (w : Word) :
    (fieldOpc (w.extractLsb' 0 32)).toNat = (w.toNat / 2 ^ 24) % 2 ^ 8 := by
  simp only [fieldOpc, BitVec.extractLsb'_toNat, Nat.shiftRight_eq_div_pow]
  omega

/-- What R72 and R79 call illegal spells no row. -/
theorem IllegalWord.decode_ne_instr {w : Word} (h : IllegalWord w) (i : Instr) :
    decode w ≠ .instr i := by
  intro hd
  obtain ⟨hupper, r, hr, hs, -⟩ := decode_eq_instr_iff.mp hd
  have hopc : (w.toNat / 2 ^ 24) % 2 ^ 8 = (fieldOpc r.pattern).toNat := by
    rw [← toNat_fieldOpc_low, OpcodeRow.opc_of_spells hr hs]
  rcases h with hset | hreserved | ⟨q, hq, hqopc, j, hj, hmask, hbit⟩
  · have hzero := congrArg BitVec.toNat hupper
    simp only [BitVec.extractLsb'_toNat, Nat.shiftRight_eq_div_pow, BitVec.toNat_ofNat] at hzero
    omega
  · have hlisted := OpcodeRow.opc_listed r hr
    simp only [← hopc] at hlisted
    omega
  · have hqfield : (fieldOpc q.pattern).toNat = q.pattern.toNat / 2 ^ 24 := by
      simp only [fieldOpc, BitVec.extractLsb'_toNat, Nat.shiftRight_eq_div_pow]
      omega
    have hrow : q = r :=
      OpcodeRow.eq_of_opc_eq hq hr (BitVec.eq_of_toNat_eq (hqfield.trans (hqopc.trans hopc)))
    subst hrow
    have hclear := OpcodeRow.reserved_bit_of_spells hr hs hj hmask
    simp [BitVec.getLsbD_extractLsb', hbit] at hclear
    omega

theorem illegalWord_zero : IllegalWord 0#64 := .inr (.inl (.inl (by decide)))

/-- A CMD write that spells no command is one `raise`. -/
theorem writeCmd_of_decode_ne {w : Word} (h : ∀ i, decode w ≠ .instr i) (s : State) :
    writeCmd w s = .next (raise .illegalCommand 0#64 .bit s) := by
  unfold writeCmd
  cases hd : decode w with
  | instr i => exact absurd hd (h i)
  | illegal _ => rfl

/-- Settles O4: an illegal word spells no row of the opcode table, the all-zero word having the reserved OPC 0. -/
theorem illegalCmdWriteOnlyRecordsTheError : Obligations.IllegalCmdWriteOnlyRecordsTheError := by
  intro w s h
  have hillegal : IllegalWord w := h.elim id fun hw => hw ▸ illegalWord_zero
  exact writeCmd_of_decode_ne hillegal.decode_ne_instr s

/-! ### Running the lines of a program -/

section

variable {s : State} {h : Nat} (hd : s.driver = none ∨ s.driver = some h)
include hd

/-- A `wr` line, and the run of the lines after it. -/
theorem run_wr (k : Nat) {r : Reg} {v : Word} {lines : List AsmLine} {t : State}
    (hw : writeReg r v { s with host := asmEvents h lines, driver := some h } = .next t) :
    Sys2Proof.core.run (k + 1) { s with host := asmEvents h (.wr r v :: lines) } =
      Sys2Proof.core.run k t :=
  run_of_step k ((step_writeReg_of_driver hd r v (asmEvents h lines)).trans hw)

/-- A last line that is a command runs that command. -/
theorem run_command {i : Instr} (hi : decode (encodeCmd i) = .instr i) :
    Sys2Proof.core.run 1 { s with host := asmEvents h [.cmd i] } =
      exec i { s with host := [], driver := some h } := by
  rw [run_one]
  refine (step_writeReg_of_driver hd .cmd (encodeCmd i) []).trans ?_
  show writeCmd _ _ = _
  unfold writeCmd
  rw [hi]

/-- The shape of the three window pseudo-instructions: both ARG writes, then the command. -/
theorem run_wr_args_command {i : Instr} (hi : decode (encodeCmd i) = .instr i) (a b : Word) :
    Sys2Proof.core.run 3 { s with host := asmEvents h [.wr .arg0 a, .wr .arg1 b, .cmd i] } =
      exec i { s with host := [], driver := some h, arg0 := a, arg1 := b } :=
  (run_wr hd 2 rfl).trans
    ((run_wr (s := { s with driver := some h, arg0 := a }) (.inr rfl) 1 rfl).trans
      (run_command (s := { s with driver := some h, arg0 := a, arg1 := b }) (.inr rfl) hi))

end

/-- Settles O17, line by line: each ARG write stores its value, and the command's word decodes to the command. -/
theorem pseudoInstructionsRunTheirExpansions : Obligations.PseudoInstructionsRunTheirExpansions := by
  intro s h a b n hd hn
  refine ⟨run_wr_args_command hd rfl a b, run_wr_args_command hd rfl a b, run_wr_args_command hd rfl a b,
    (run_wr hd 1 rfl).trans
      (run_command (s := { s with driver := some h, arg0 := a }) (.inr rfl) rfl),
    run_command hd (decode_encodeCmd_bcRdbits .msb hn), run_command hd rfl⟩

end Sys2Proof.Machine
end

section
/-! SUPPORT. The Bit Cursor family (spec/40_bit_cursor.md): how each check ends a command, what BC.INIT, BC.SKIP, BC.POS
and BC.REM do past their checks, and the statements about them. -/

namespace Sys2Proof.Machine

/-! ### The checks -/

/-- A Bit Cursor read with no window set (R104, first check). -/
theorem bcRead_of_unset {s : State} (hv : s.status.bcValid = false) (o : Order)
    (n limit consumed : Nat) :
    bcRead o n limit consumed s = .next (raise .notInitialised 0#64 .bit s) := by
  rw [bcRead, bcReadCheck, if_pos hv]

/-- A Bit Cursor read of more bits than its limit (R104, second check). -/
theorem bcRead_of_limit_lt {s : State} (hv : s.status.bcValid = true) {n limit : Nat}
    (hn : limit < n) (o : Order) (consumed : Nat) :
    bcRead o n limit consumed s = .next (raise .parse s.bc.pos .bit s) := by
  rw [bcRead, bcReadCheck, if_neg (by simp [hv]), if_pos hn]

/-- A Bit Cursor read past the window end (R104, third check). -/
theorem bcRead_of_past_end {s : State} (hv : s.status.bcValid = true) {n limit : Nat}
    (hn : n ≤ limit) (hend : bcBits s < s.bc.pos.toNat + n) (o : Order) (consumed : Nat) :
    bcRead o n limit consumed s = .next (raise .unexpectedEof s.bc.pos .bit s) := by
  rw [bcRead, bcReadCheck, if_neg (by simp [hv]), if_neg (by omega), if_pos hend]

/-- Every Bit Cursor read makes the read check of its own count and limit. -/
theorem bcRead_failsReadCheck (o : Order) (n limit consumed : Nat) (s : State) :
    FailsReadCheck n limit s (bcRead o n limit consumed s) :=
  ⟨fun hv => bcRead_of_unset hv o n limit consumed,
    fun hv hn => bcRead_of_limit_lt hv hn o consumed,
    fun hv hn hend => bcRead_of_past_end hv hn hend o consumed⟩

/-- The commands of the cursor when BC_VALID = 0 (R114): the reads by their read check, the others by their own. -/
theorem exec_of_cursor_unset {i : Instr} {s : State} (hi : i.needsCursor = true)
    (hv : s.status.bcValid = false) : exec i s = .next (raise .notInitialised 0#64 .bit s) := by
  cases i with
  | bcRdbit | bcRdbits | bcRdbits64 | bcRdbyte | bcPeek => exact bcRead_of_unset hv _ _ _ _
  | bcSkip | bcAlign | bcPos | bcRem | viDec => exact if_pos hv
  | bcInit | adInit | adPos | srCtxrst | srPart | srSkip | srIntra | srInter | srMv | srDq => cases hi

/-- The commands of the decoder when AD_VALID = 0 (spec/42_arith_decoder.md R164). -/
theorem exec_of_decoder_unset {i : Instr} {s : State} (hi : i.needsDecoder = true)
    (hv : s.status.adValid = false) : exec i s = .next (raise .notInitialised 0#64 .bit s) := by
  cases i with
  | adPos | srPart | srSkip | srIntra | srInter | srMv | srDq => exact if_pos hv
  | bcInit | bcRdbit | bcRdbits | bcRdbits64 | bcRdbyte | bcSkip | bcAlign | bcPeek | bcPos | bcRem
  | viDec | adInit | srCtxrst => cases hi

/-- BC.INIT with a window past BUF_LEN. -/
theorem exec_bcInit_of_past_bufLen {s : State} (h : s.bufLen < s.arg0.toNat + s.arg1.toNat) :
    exec .bcInit s = .next (raise .unexpectedEof (windowEnd s.arg0 s.arg1) .byte s) :=
  if_neg (by simpa [windowFits] using h)

/-- BC.SKIP past the window end. -/
theorem exec_bcSkip_of_past_end {s : State} (hv : s.status.bcValid = true)
    (h : bcBits s < s.bc.pos.toNat + s.arg0.toNat) :
    exec .bcSkip s = .next (raise .unexpectedEof s.bc.pos .bit s) := by
  simp only [exec, execBcSkip]
  rw [if_neg (by simp [hv]), if_pos h]

/-! ### Past the checks -/

theorem exec_bcPos_of_valid {s : State} (hv : s.status.bcValid = true) :
    exec .bcPos s = .next (succeedWith s.bc.pos s) :=
  if_neg (by simp [hv])

theorem exec_bcRem_of_valid {s : State} (hv : s.status.bcValid = true) :
    exec .bcRem s = .next (succeedWith (sext64 ((bcBits s : Int) - s.bc.pos.toNat)) s) :=
  if_neg (by simp [hv])

/-- Every bit position of the window, its end included, fits the 64 bits of BC_POS (spec/00_scope.md R7). -/
theorem State.Inv.bcBits_lt {s : State} (hs : s.Inv) (hv : s.status.bcValid = true) :
    bcBits s < 2 ^ 64 := by
  have hlen : s.bufLen < 2 ^ 61 := hs.bufLen_lt
  have hwindow := hs.bc_window hv
  unfold bcBits
  omega

/-- A difference that is not negative needs no sign extension. -/
theorem sext64_sub {a b : Nat} (h : b ≤ a) : sext64 ((a : Int) - b) = zext64 (a - b) := by
  rw [← Int.natCast_sub h]
  exact BitVec.ofInt_natCast 64 (a - b)

/-- A count below 2^64 is the value of the result that holds it. -/
theorem toNat_zext64 {v : Nat} (h : v < 2 ^ 64) : (zext64 v).toNat = v := by
  rw [zext64, BitVec.toNat_ofNat, Nat.mod_eq_of_lt h]

/-- BC_POS moves by exactly the bits consumed when they end inside the window. -/
theorem advanceCursor_pos_toNat {s : State} (hs : s.Inv) (hv : s.status.bcValid = true) {n : Nat}
    (hn : s.bc.pos.toNat + n ≤ bcBits s) :
    (advanceCursor n s).bc.pos.toNat = s.bc.pos.toNat + n :=
  toNat_zext64 (hn.trans_lt (hs.bcBits_lt hv))

/-! ### The five statements -/

/-- Settles O22: each command of a unit checks that unit's VALID bit before anything else. -/
theorem unsetUnitsFail : Obligations.UnsetUnitsFail := by
  rintro i s (⟨hi, hv⟩ | ⟨hi, hv⟩)
  · exact exec_of_cursor_unset hi hv
  · exact exec_of_decoder_unset hi hv

/-- Settles O24, by the two sides of WindowCheck. -/
theorem bcInitSetsTheWindow : Obligations.BcInitSetsTheWindow :=
  ⟨rfl, fun _ => ⟨exec_bcInit_of_fits, exec_bcInit_of_past_bufLen⟩⟩

/-- Settles O26: each of the five is one Bit Cursor read, with its count and its limit. -/
theorem bitReadsFailInPriorityOrder : Obligations.BitReadsFailInPriorityOrder := fun s o n =>
  ⟨bcRead_failsReadCheck o 1 1 1 s, bcRead_failsReadCheck o n 32 n s,
    bcRead_failsReadCheck o n 64 n s, bcRead_failsReadCheck o 8 8 8 s,
    bcRead_failsReadCheck o n 32 0 s⟩

/-- Settles O27: a skip that ends inside the window does not wrap BC_POS, by the bound on BUF_LEN. -/
theorem skipMovesOrFails : Obligations.SkipMovesOrFails := by
  refine ⟨rfl, fun s hs => ⟨fun hv hfit => ?_, exec_bcSkip_of_past_end, exec_of_cursor_unset rfl⟩⟩
  exact ⟨_, exec_bcSkip_of_fits hv hfit, advanceCursor_pos_toNat hs hv hfit, rfl⟩

/-- Settles O29: the remainder is not negative and fits RES0, since BC_POS is at most BC_W. -/
theorem positionAndRemainder : Obligations.PositionAndRemainder := by
  refine ⟨rfl, rfl, fun s hs => ⟨fun hv => ⟨exec_bcPos_of_valid hv, ?_⟩, fun hv i hi => ?_⟩⟩
  · refine ⟨_, exec_bcRem_of_valid hv, ?_, rfl⟩
    rw [succeedWith_res0, sext64_sub (hs.bc_pos hv)]
    exact toNat_zext64 ((Nat.sub_le _ _).trans_lt (hs.bcBits_lt hv))
  · rcases hi with rfl | rfl <;> exact exec_of_cursor_unset rfl hv

end Sys2Proof.Machine
end

section
/-! SUPPORT. The Varint family (spec/41_varint.md): which end the bytes at BC_POS lead VI.DEC's loop to, what the command
does at each end, and the statement about it. -/

namespace Sys2Proof.Machine

/-! ### The value of the bytes -/

/-- The value of the first `n` bytes at BC_POS, the lowest 7-bit group first (R141). -/
def lebValue (s : State) (n : Nat) : Nat :=
  ((List.range n).map fun j => (lebByte s j % 0x80) <<< (7 * j)).sum

theorem lebValue_succ (s : State) (n : Nat) :
    lebValue s (n + 1) = lebValue s n + (lebByte s n % 0x80) <<< (7 * n) := by
  simp [lebValue, List.range_succ]

/-- `n` groups of 7 bits give a value below 2^(7n) (R143). -/
theorem lebValue_lt (s : State) (n : Nat) : lebValue s n < 2 ^ (7 * n) := by
  induction n with
  | zero => simp [lebValue]
  | succ n ih =>
    have hgroup : (lebByte s n % 0x80 + 1) * 2 ^ (7 * n) ≤ 0x80 * 2 ^ (7 * n) :=
      Nat.mul_le_mul_right _ (Nat.mod_lt _ (by decide))
    rw [Nat.add_one_mul] at hgroup
    rw [lebValue_succ, Nat.shiftLeft_eq, Nat.mul_succ, Nat.pow_add]
    omega

/-! ### How the byte loop ends -/

/-- The loop of VI.DEC from BC_POS, with all of its bytes allowed. -/
def lebDecode (s : State) : LebEnd := lebLoop s Config.leb128MaxBytes 0 s.bc.pos.toNat 0

/-- Byte `k` is the first without the continuation bit, and it ends inside the window. -/
theorem lebDecode_of_terminated {s : State} {k : Nat} (hk : k < 8)
    (hfit : s.bc.pos.toNat + 8 * (k + 1) ≤ bcBits s) (hcont : ∀ j, j < k → 0x80 ≤ lebByte s j)
    (hterm : lebByte s k < 0x80) :
    lebDecode s = .done (lebValue s (k + 1)) (k + 1) (s.bc.pos.toNat + 8 * (k + 1)) := by
  rcases lebLoop_cases s 8 0 s.bc.pos.toNat 0 with
    ⟨n, -, hcont', -, -, hterm', hdone⟩ | ⟨n, -, hcont', -, hend, -⟩ | ⟨hcont', -, -⟩
  · have hle : n ≤ k := Nat.le_of_not_lt fun hlt => (hcont' k hlt).not_gt hterm
    have hge : k ≤ n := Nat.le_of_not_lt fun hlt => (hcont n hlt).not_gt hterm'
    obtain rfl := Nat.le_antisymm hle hge
    refine hdone.trans ?_
    simp [lebValue, lebByte, Nat.shiftLeft_eq]
  · have hle : n ≤ k := Nat.le_of_not_lt fun hlt => (hcont' k hlt).not_gt hterm
    omega
  · exact absurd hterm (hcont' k hk).not_gt

/-- The window ends inside byte `k`, and every byte before that continues. -/
theorem lebDecode_of_past_end {s : State} {k : Nat} (hk : k < 8)
    (hfit : s.bc.pos.toNat + 8 * k ≤ bcBits s) (hend : bcBits s < s.bc.pos.toNat + 8 * (k + 1))
    (hcont : ∀ j, j < k → 0x80 ≤ lebByte s j) :
    lebDecode s = .eof (s.bc.pos.toNat + 8 * k) := by
  rcases lebLoop_cases s 8 0 s.bc.pos.toNat 0 with
    ⟨n, -, -, -, hfit', hterm, -⟩ | ⟨n, -, -, hfit', hend', heof⟩ | ⟨-, hfit', -⟩
  · have hge : k ≤ n := Nat.le_of_not_lt fun hlt => (hcont n hlt).not_gt hterm
    omega
  · have hle : n ≤ k := Nat.le_of_not_lt fun hlt => (hfit' k hlt).not_gt hend
    have heq : n = k := by omega
    exact heq ▸ heof
  · exact absurd hend (hfit' k hk).not_gt

/-- All eight bytes are in the window and continue. -/
theorem lebDecode_of_all_continue {s : State} (hfit : s.bc.pos.toNat + 64 ≤ bcBits s)
    (hcont : ∀ j, j < 8 → 0x80 ≤ lebByte s j) : lebDecode s = .tooLong := by
  rcases lebLoop_cases s 8 0 s.bc.pos.toNat 0 with
    ⟨n, hn, -, -, -, hterm, -⟩ | ⟨n, hn, -, -, hend, -⟩ | ⟨-, -, htooLong⟩
  · exact absurd hterm (hcont n hn).not_gt
  · omega
  · exact htooLong

/-! ### What VI.DEC does at each end -/

/-- The state VI.DEC leaves at an end of its loop. -/
def endViDec (s : State) : LebEnd → State
  | .done value count pos =>
    succeedWith (zext64 value)
      { s with bc := { s.bc with pos := BitVec.ofNat 64 pos }, res1 := zext64 count }
  | .eof pos => raise .unexpectedEof (zext64 pos) .bit s
  | .tooLong => raise .decode s.bc.pos .bit s

theorem exec_viDec_of_valid {s : State} (hs : s.Inv) (hv : s.status.bcValid = true) :
    exec .viDec s = .next (endViDec s (lebDecode s)) := by
  have hwindow : bcWindowInBuf s = true := decide_eq_true (hs.bc_window hv)
  simp only [exec, execViDec]
  rw [if_neg (by simp [hv]), if_pos hwindow, lebDecode]
  cases lebLoop s Config.leb128MaxBytes 0 s.bc.pos.toNat 0 <;> rfl

/-- Settles O32: the bytes at BC_POS decide the end of the loop, and value, count and position fit their 64 bits, by R143
and the bound on BUF_LEN. -/
theorem varintFollowsItsBytes : Obligations.VarintFollowsItsBytes := by
  refine ⟨rfl, fun s hs => ⟨fun hv k hk hfit hcont hterm => ?_, fun hv k hk hfit hend hcont => ?_,
    fun hv hfit hcont => ?_, exec_of_cursor_unset rfl⟩⟩
  · have hexec := exec_viDec_of_valid hs hv
    rw [lebDecode_of_terminated hk hfit hcont hterm] at hexec
    have hvalue : lebValue s (k + 1) < 2 ^ 64 :=
      (lebValue_lt s (k + 1)).trans_le (Nat.pow_le_pow_right (by decide) (by omega))
    exact ⟨_, hexec, toNat_zext64 hvalue, toNat_zext64 (by omega),
      toNat_zext64 (hfit.trans_lt (hs.bcBits_lt hv)), rfl⟩
  · rw [exec_viDec_of_valid hs hv, lebDecode_of_past_end hk hfit hend hcont]
    rfl
  · rw [exec_viDec_of_valid hs hv, lebDecode_of_all_continue hfit hcont]
    rfl

end Sys2Proof.Machine
end

section
/-! SUPPORT. The arithmetic decoder family (spec/42_arith_decoder.md): what AD.POS does past its check, and the statement
about it. -/

namespace Sys2Proof.Machine

/-- AD.POS past its check (R163). -/
theorem exec_adPos_of_valid {s : State} (hv : s.status.adValid = true) :
    exec .adPos s = .next (succeedWith (zext64 s.ad.bitpos) s) :=
  if_neg (by simp [hv])

/-- Settles O35: AD.POS is past its check when AD_VALID = 1, and fails by that check when AD_VALID = 0. -/
theorem adPosReportsTheTilePosition : Obligations.AdPosReportsTheTilePosition :=
  ⟨rfl, fun _ => ⟨exec_adPos_of_valid, exec_of_decoder_unset rfl⟩⟩

end Sys2Proof.Machine
end

section
/-! SUPPORT. The tables of the Symbol Router (spec/43_symbol_router.md R202, R203): the DEFAULT_CDF check by index, the
reload, and the statements about both. -/

namespace Sys2Proof.Machine

/-! ### The DEFAULT_CDF check -/

/-- The strict check as an order on the list: from `lo` on every entry lies above all before it, and the last one
is 32768. -/
theorem risesStrictlyFrom_iff {lo : Nat} (hlo : lo < 32768) {cs : List Half} :
    risesStrictlyFrom lo cs = true ↔
      (cs.map BitVec.toNat).getLast? = some 32768 ∧
      (lo :: cs.map BitVec.toNat).Pairwise (· < ·) := by
  induction cs generalizing lo with
  | nil => simp [risesStrictlyFrom]
  | cons c cs ih =>
    cases cs with
    | nil =>
      simp only [risesStrictlyFrom, beq_iff_eq, List.map_cons, List.map_nil,
        List.getLast?_singleton, Option.some.injEq, List.pairwise_pair]
      omega
    | cons d cs =>
      have hsplit : (lo :: (c :: d :: cs).map BitVec.toNat).Pairwise (· < ·) ↔
          lo < c.toNat ∧ (c.toNat :: (d :: cs).map BitVec.toNat).Pairwise (· < ·) := by
        rw [← List.isChain_iff_pairwise, ← List.isChain_iff_pairwise]
        exact List.isChain_cons_cons
      have hlast : ((c :: d :: cs).map BitVec.toNat).getLast? =
          ((d :: cs).map BitVec.toNat).getLast? := List.getLast?_cons_cons
      rw [hsplit, hlast]
      simp only [risesStrictlyFrom, Bool.and_eq_true, decide_eq_true_eq]
      constructor
      · rintro ⟨⟨hc, hlt⟩, hrises⟩
        obtain ⟨h32768, hpair⟩ := (ih hlt).mp hrises
        exact ⟨h32768, hc, hpair⟩
      · rintro ⟨h32768, hc, hpair⟩
        have hlt : c.toNat < 32768 :=
          (List.pairwise_cons.mp hpair).1 _ (List.mem_of_getLast? h32768)
        exact ⟨⟨hc, hlt⟩, (ih hlt).mpr ⟨h32768, hpair⟩⟩

theorem getLast?_toNat_eq_iff {cs : List Half} (h : 0 < cs.length) {v : Nat} :
    (cs.map BitVec.toNat).getLast? = some v ↔ (cs.getD (cs.length - 1) 0#16).toNat = v := by
  rw [List.getD_eq_getElem _ _ (by omega), List.getLast?_eq_getElem?, List.length_map,
    List.getElem?_map, List.getElem?_eq_getElem (by omega), Option.map_some, Option.some.injEq]

theorem pairwise_toNat_lt_iff {cs : List Half} :
    cs.Pairwise (fun c d => c.toNat < d.toNat) ↔ ∀ i j, i < j → j < cs.length →
      (cs.getD i 0#16).toNat < (cs.getD j 0#16).toNat := by
  rw [List.pairwise_iff_getElem]
  constructor
  · intro h i j hij hj
    rw [List.getD_eq_getElem _ _ (hij.trans hj), List.getD_eq_getElem _ _ hj]
    exact h i j _ hj hij
  · intro h i j hi hj hij
    rw [← List.getD_eq_getElem _ 0#16 hi, ← List.getD_eq_getElem _ 0#16 hj]
    exact h i j hij hj

/-- The DEFAULT_CDF check of one table, entry by entry. -/
theorem Table.wfDefault_iff {n : Nat} (hn : 0 < n) {t : Table} :
    t.wfDefault n = true ↔
      t.cdf.length = n ∧ 0 < (t.cdf.getD 0 0#16).toNat ∧
      (∀ i j, i < j → j < n → (t.cdf.getD i 0#16).toNat < (t.cdf.getD j 0#16).toNat) ∧
      (t.cdf.getD (n - 1) 0#16).toNat = 32768 ∧ t.cnt = 0#6 := by
  simp only [Table.wfDefault, Bool.and_eq_true, beq_iff_eq,
    risesStrictlyFrom_iff (by decide : 0 < 32768), List.pairwise_cons, List.pairwise_map,
    List.forall_mem_map, pairwise_toNat_lt_iff]
  by_cases hlen : t.cdf.length = n
  case neg => simp [hlen]
  subst hlen
  rw [getLast?_toNat_eq_iff hn]
  constructor
  · rintro ⟨⟨-, h32768, hpos, hrises⟩, hcnt⟩
    refine ⟨rfl, ?_, hrises, h32768, hcnt⟩
    rw [List.getD_eq_getElem _ _ hn]
    exact hpos _ (List.getElem_mem hn)
  · rintro ⟨-, hpos, hrises, h32768, hcnt⟩
    refine ⟨⟨rfl, h32768, fun c hc => ?_, hrises⟩, hcnt⟩
    obtain ⟨i, hi, rfl⟩ := List.mem_iff_getElem.mp hc
    rw [← List.getD_eq_getElem _ 0#16 hi]
    cases i with
    | zero => exact hpos
    | succ i => exact hpos.trans (hrises 0 (i + 1) i.succ_pos hi)

/-- The check of all tables is R202's, entry by entry. -/
theorem CdfRam.wfDefault_iff_passes (rom : CdfRam) :
    rom.wfDefault = true ↔ PassesDefaultCheck rom := by
  rw [CdfRam.wfDefault_iff]
  exact forall_congr' fun t => Table.wfDefault_iff (Nat.zero_lt_of_lt t.symbols_range.1)

/-! ### The reload -/

theorem exec_srCtxrst (s : State) : exec .srCtxrst s = .next (succeed (cdfReload s)) := rfl

/-- AD.INIT with a tile past BUF_LEN. -/
theorem exec_adInit_of_past_bufLen {s : State} (k : CarryOver)
    (h : s.bufLen < s.arg0.toNat + s.arg1.toNat) :
    exec (.adInit k) s = .next (raise .unexpectedEof (windowEnd s.arg0 s.arg1) .byte s) :=
  if_neg (by simpa [windowFits] using h)

/-- A successful AD.INIT with K = 0 leaves the default tables (spec/42_arith_decoder.md R162). -/
theorem exec_adInit_reload_ram {s t : State} (h : exec (.adInit .reload) s = .next t)
    (hok : t.status.err = .ok) : t.ram = s.rom.reload := by
  by_cases hfit : s.arg0.toNat + s.arg1.toNat ≤ s.bufLen
  · rw [exec_adInit_of_fits _ hfit, adInit_steps_leave] at h
    cases h
    rfl
  · rw [exec_adInit_of_past_bufLen _ (Nat.lt_of_not_le hfit)] at h
    cases h
    cases hok

/-! ### The two statements -/

/-- Settles O16: the block is built exactly from contents that pass the check, and the check is R202's by index. -/
theorem defaultCdfIsChecked : Obligations.DefaultCdfIsChecked := by
  intro rom
  rw [← rom.wfDefault_iff_passes]
  exact ⟨fun h => ⟨_, if_pos h, rfl⟩, fun h => if_neg h⟩

/-- Settles O42: the reload gives each table the ROM's entries, and a successful AD.INIT with K = 0 reloads too. -/
theorem ctxrstReloadsTheDefaults : Obligations.CtxrstReloadsTheDefaults := by
  refine ⟨rfl, fun s => ⟨_, exec_srCtxrst s, fun id => ?_, rfl⟩, fun s t u ht hok hu => ?_⟩
  · simp
  · rw [exec_srCtxrst] at hu
    cases hu
    exact exec_adInit_reload_ram ht hok

end Sys2Proof.Machine
end

section
/-! SUPPORT. What a decoding step keeps (spec/42_arith_decoder.md R171, R172): the bounds of V and R, and the CDF RAM
invariant. -/

namespace Sys2Proof.Machine

/-! ### DecodeSymbol -/

/-- What a typed read needs of the state and each of its decoding steps keeps: R and V in their bounds
(spec/10_state.md R32), every table in order (R36). -/
structure DecoderReady (s : State) : Prop where
  range_ge : 2 ^ 15 ≤ s.ad.range.toNat
  value_lt : s.ad.value.toNat < s.ad.range.toNat
  ram_wf   : s.ram.wf = true

theorem State.Inv.decoderReady {s : State} (hs : s.Inv) (hv : s.status.adValid = true) :
    DecoderReady s :=
  ⟨hs.range_ge hv, hs.value_lt hv, hs.ram_wf⟩

theorem DecoderReady.table_wf {s : State} (hs : DecoderReady s) (id : TableId) :
    (s.ram.get id).wf id.symbols = true :=
  (CdfRam.wf_iff _).mp hs.ram_wf id

/-- No bound of a legal table lies above R, with the bound before it read as R at the first. -/
theorem bucketBound_prev_le {r n : Nat} {t : Table} (hw : t.wf n = true) (h2 : 2 ≤ n) (h16 : n ≤ 16)
    (hr : 2 ^ 15 ≤ r) {k : Nat} (hk : k < n) :
    (if k = 0 then r else bucketBound r n (k - 1) (t.cdf.getD (k - 1) 0#16)) ≤ r := by
  induction k with
  | zero => simp
  | succ k ih =>
    have hstep := (bucketBound_narrows hw h2 h16 hr).1 k (by omega)
    have hprev := ih (by omega)
    simp only [Nat.add_one_ne_zero, if_false, Nat.add_sub_cancel]
    omega

/-- The bucket of V in a legal table: a symbol of the table, at least 4 wide, V inside it, inside R. -/
theorem selectBucket_bounds {s : State} {t : Table} {n : Nat} (hw : t.wf n = true) (h2 : 2 ≤ n)
    (h16 : n ≤ 16) (hr : 2 ^ 15 ≤ s.ad.range.toNat) (hv : s.ad.value.toNat < s.ad.range.toNat) :
    (selectBucket s t.cdf).sym < n ∧
    (selectBucket s t.cdf).cur ≤ s.ad.value.toNat ∧
    s.ad.value.toNat < (selectBucket s t.cdf).prev ∧
    (selectBucket s t.cdf).cur + 4 ≤ (selectBucket s t.cdf).prev ∧
    (selectBucket s t.cdf).prev ≤ s.ad.range.toNat := by
  obtain ⟨hlen, hn, -⟩ := Table.wf_iff.mp hw
  obtain ⟨hnarrow, hlast⟩ := bucketBound_narrows hw h2 h16 hr
  have hreached : ∃ k, k < t.cdf.length ∧
      bucketBound s.ad.range.toNat n (0 + k) (t.cdf.getD k 0#16) ≤ s.ad.value.toNat :=
    ⟨n - 1, by omega, by rw [Nat.zero_add, hlast]; exact Nat.zero_le _⟩
  obtain ⟨k, hk, hsym, hcur, hle, habove, hprev⟩ :=
    findBucket_spec _ _ _ _ _ s.ad.range.toNat hreached
  simp only [Nat.zero_add] at hsym hcur habove hprev
  rw [selectBucket, hlen]
  rw [hlen] at hk
  refine ⟨hsym ▸ hk, hle, ?_, ?_, ?_⟩
  · rw [hprev]
    split
    · exact hv
    · next h0 => exact habove (k - 1) (by omega)
  · rw [hcur, hprev]
    exact hnarrow k hk
  · rw [hprev]
    exact bucketBound_prev_le hw h2 h16 hr hk

/-- R after Renormalise is the narrowed range at the top of its 16 bits. -/
theorem renormalise_range_toNat {r : Nat} (h0 : 0 < r) (h : r < 2 ^ 16) (v : Nat) (s : State) :
    (renormalise r v s).ad.range.toNat = r * 2 ^ renormShift r := by
  have hspec := renormShift_spec h0 h
  rw [(renormalise_ad r v s).2.2.2.1, BitVec.toNat_ofNat, Nat.shiftLeft_eq,
    Nat.mod_eq_of_lt hspec.2.2]

/-- V after Renormalise, as the subtraction that section 4 of spec/42_arith_decoder.md gives. -/
theorem renormalise_value_toNat {r v : Nat} (h : r < 2 ^ 16) (hv : v < r) (s : State) :
    (renormalise r v s).ad.value.toNat =
      (v + 1) * 2 ^ renormShift r - 1 - fetchValue s (renormShift r) := by
  have hspec := renormShift_spec (Nat.zero_lt_of_lt hv) h
  have hle : (v + 1) * 2 ^ renormShift r ≤ r * 2 ^ renormShift r := Nat.mul_le_mul_right _ hv
  rw [(renormalise_ad r v s).2.2.2.2, BitVec.toNat_ofNat,
    ones_xor_eq_sub _ _ _ (fetchValue_lt _ _), Nat.mod_eq_of_lt (by omega)]

/-- Renormalise restores the bounds of R and V. -/
theorem renormalise_bounds {r v : Nat} (h : r < 2 ^ 16) (hv : v < r) (s : State) :
    2 ^ 15 ≤ (renormalise r v s).ad.range.toNat ∧
    (renormalise r v s).ad.value.toNat < (renormalise r v s).ad.range.toNat := by
  have h0 := Nat.zero_lt_of_lt hv
  have hspec := renormShift_spec h0 h
  have hle : (v + 1) * 2 ^ renormShift r ≤ r * 2 ^ renormShift r := Nat.mul_le_mul_right _ hv
  rw [renormalise_range_toNat h0 h, renormalise_value_toNat h hv]
  exact ⟨hspec.2.1, by omega⟩

/-- One DecodeSymbol on a legal table: a symbol of the table, and R and V back in their bounds (R171). -/
theorem decodeSymbol_bounds {s : State} {t : Table} {n : Nat} (hw : t.wf n = true) (h2 : 2 ≤ n)
    (h16 : n ≤ 16) (hr : 2 ^ 15 ≤ s.ad.range.toNat) (hv : s.ad.value.toNat < s.ad.range.toNat) :
    (decodeSymbol t.cdf s).sym < n ∧
    2 ^ 15 ≤ (decodeSymbol t.cdf s).state.ad.range.toNat ∧
    (decodeSymbol t.cdf s).state.ad.value.toNat <
      (decodeSymbol t.cdf s).state.ad.range.toNat := by
  obtain ⟨hsym, hcur, hprev, -, hle⟩ := selectBucket_bounds hw h2 h16 hr hv
  have hr16 := s.ad.range.isLt
  exact ⟨hsym, renormalise_bounds (by omega) (by omega) s⟩

/-! ### Adapt -/

/-- A quotient grows by no more than its dividend. -/
theorem add_div_le_div_add (a d k : Nat) (hk : 0 < k) : (a + d) / k ≤ a / k + d :=
  calc (a + d) / k ≤ (a + d * k) / k :=
        Nat.div_le_div_right (Nat.add_le_add_left (Nat.le_mul_of_pos_right d hk) a)
    _ = a / k + d := Nat.add_mul_div_right a d hk

/-- Adapt drives no entry to 0 or to 32768. -/
theorem adaptEntry_bounds {rate : Nat} (hrate : 0 < rate) (sym i : Nat) {e : Half}
    (h1 : 1 ≤ e.toNat) (he : e.toNat < 32768) :
    1 ≤ (adaptEntry rate sym i e).toNat ∧ (adaptEntry rate sym i e).toNat < 32768 := by
  have hk : 2 ≤ 2 ^ rate := Nat.le_self_pow hrate.ne' 2
  have hdown : e.toNat / 2 ^ rate ≤ e.toNat / 2 := Nat.div_le_div_left hk (by decide)
  have hup : (2 ^ 15 - e.toNat) / 2 ^ rate ≤ (2 ^ 15 - e.toNat) / 2 :=
    Nat.div_le_div_left hk (by decide)
  rw [adaptEntry_toNat _ _ _ _ he]
  generalize e.toNat / 2 ^ rate = down at *
  generalize (2 ^ 15 - e.toNat) / 2 ^ rate = up at *
  split <;> omega

/-- Adapt keeps two entries in their order, on the same side of the symbol or on both. -/
theorem adaptEntry_le_succ (rate sym i : Nat) {e f : Half} (hf : f.toNat < 32768)
    (hef : e.toNat ≤ f.toNat) :
    (adaptEntry rate sym i e).toNat ≤ (adaptEntry rate sym (i + 1) f).toNat := by
  have hk : 0 < 2 ^ rate := Nat.two_pow_pos rate
  have hdown := add_div_le_div_add e.toNat (f.toNat - e.toNat) _ hk
  have hup := add_div_le_div_add (2 ^ 15 - f.toNat) (f.toNat - e.toNat) _ hk
  rw [show e.toNat + (f.toNat - e.toNat) = f.toNat by omega] at hdown
  rw [show 2 ^ 15 - f.toNat + (f.toNat - e.toNat) = 2 ^ 15 - e.toNat by omega] at hup
  have hfdiv := Nat.div_le_self f.toNat (2 ^ rate)
  rw [adaptEntry_toNat _ _ _ _ (hef.trans_lt hf), adaptEntry_toNat _ _ _ _ hf]
  generalize e.toNat / 2 ^ rate = downE at *
  generalize f.toNat / 2 ^ rate = downF at *
  generalize (2 ^ 15 - e.toNat) / 2 ^ rate = upE at *
  generalize (2 ^ 15 - f.toNat) / 2 ^ rate = upF at *
  split <;> split <;> omega

/-- Adapt keeps the CDF RAM invariant of its table. -/
theorem Table.adapt_wf {t : Table} {n : Nat} (hw : t.wf n = true) (sym : Nat) :
    (t.adapt sym).wf n = true := by
  obtain ⟨hlen, hn, hcnt, hlast, hrise⟩ := Table.wf_iff.mp hw
  have hrate : 0 < adaptRate t.cdf.length t.cnt.toNat := by unfold adaptRate; omega
  have hget : ∀ k, k < n → (t.adapt sym).cdf.getD k 0#16 =
      if k + 1 < n then adaptEntry (adaptRate t.cdf.length t.cnt.toNat) sym k (t.cdf.getD k 0#16)
      else t.cdf.getD k 0#16 := fun k hk => by
    rw [Table.adapt, adaptEntries_getD _ _ _ _ _ (hlen ▸ hk), hlen, Nat.zero_add]
  have hlast' : (t.adapt sym).cdf.getD (n - 1) 0#16 = 32768#16 := by
    rw [hget _ (by omega), if_neg (by omega), hlast]
  refine Table.wf_iff.mpr ⟨by rw [Table.adapt, adaptEntries_length, hlen], hn, ?_, hlast', ?_⟩
  · rw [t.adapt_cnt sym hcnt]
    exact Nat.min_le_right _ _
  · intro i hi
    obtain ⟨hpos, hlt, hle⟩ := hrise i hi
    obtain ⟨hpos', hlt'⟩ := adaptEntry_bounds hrate sym i hpos hlt
    rw [hget i (by omega), if_pos hi]
    refine ⟨hpos', hlt', ?_⟩
    by_cases hnext : i + 1 + 1 < n
    · rw [hget (i + 1) hi, if_pos hnext]
      exact adaptEntry_le_succ _ _ _ (hrise (i + 1) hnext).2.1 hle
    · rw [show i + 1 = n - 1 by omega, hlast']
      exact hlt'.le

/-- Replacing one table by a legal one keeps all of them legal. -/
theorem CdfRam.wf_set {c : CdfRam} (hc : c.wf = true) {id : TableId} {x : Table}
    (hx : x.wf id.symbols = true) : (c.set id x).wf = true := by
  rw [CdfRam.wf_iff] at hc ⊢
  intro u
  rw [CdfRam.get_set]
  split
  · next h => exact h ▸ hx
  · exact hc u

/-! ### Every decoding step -/

/-- A decode from a legal table, not adapted. -/
theorem DecoderReady.decodeSymbol_keeps {s : State} (hs : DecoderReady s) {t : Table} {n : Nat}
    (hw : t.wf n = true) (h2 : 2 ≤ n) (h16 : n ≤ 16) :
    (decodeSymbol t.cdf s).sym < n ∧ DecoderReady (decodeSymbol t.cdf s).state := by
  obtain ⟨hsym, hrange, hvalue⟩ := decodeSymbol_bounds hw h2 h16 hs.range_ge hs.value_lt
  exact ⟨hsym, hrange, hvalue, hs.ram_wf⟩

/-- One adaptive symbol: in its table, with the decoder ready for the next. -/
theorem DecoderReady.decodeAdaptive_keeps {s : State} (hs : DecoderReady s) (id : TableId) :
    (decodeAdaptive id s).sym < id.symbols ∧ DecoderReady (decodeAdaptive id s).state := by
  obtain ⟨h2, h16⟩ := id.symbols_range
  obtain ⟨hsym, hready⟩ := hs.decodeSymbol_keeps (hs.table_wf id) h2 h16
  exact ⟨hsym, hready.range_ge, hready.value_lt,
    CdfRam.wf_set hs.ram_wf (Table.adapt_wf (hs.table_wf id) _)⟩

/-- One fixed bool: 0 or 1. -/
theorem DecoderReady.decodeFixedBool_keeps {s : State} (hs : DecoderReady s) :
    (decodeFixedBool s).sym ≤ 1 ∧ DecoderReady (decodeFixedBool s).state := by
  have hw : (⟨Config.fixedBool, 0#6⟩ : Table).wf 2 = true := by decide
  obtain ⟨hsym, hready⟩ := hs.decodeSymbol_keeps hw (by decide) (by decide)
  exact ⟨Nat.le_of_lt_succ hsym, hready⟩

end Sys2Proof.Machine
end

section
/-! SUPPORT. The typed reads of the Symbol Router (spec/43_symbol_router.md R205, R212 to R217): a read past its checks,
one adaptive symbol as a result, the parts of SR.MV and their bounds, and the statements about them. -/

namespace Sys2Proof.Machine

/-! ### A typed read past its checks -/

theorem typedRead_of_valid {s : State} (hv : s.status.adValid = true) (f : State → Reading) :
    typedRead f s = decodeInto f s :=
  if_neg (by simp [hv])

/-- The tile of a valid decoder lies inside BUF, so the decoding runs. -/
theorem State.Inv.decodeInto_eq {s : State} (hs : s.Inv) (hv : s.status.adValid = true)
    (f : State → Reading) :
    decodeInto f s = .next (succeedWith (f s).value (f s).state) :=
  if_pos (decide_eq_true (hs.tile_window hv))

/-- The end of a typed read's decoding steps stays within its frame (R205). -/
theorem DecodesTo.afterTypedRead {s t : State} (h : DecodesTo s t) (v : Word) :
    AfterTypedRead s (succeedWith v t) := by
  rw [h]
  exact ⟨rfl, rfl⟩

/-- The decoding of one adaptive symbol of any table as a result (R206). -/
theorem decodeInto_readsOneSymbol {s : State} (hs : s.Inv) (hv : s.status.adValid = true)
    (id : TableId) : ReadsOneSymbol id s (decodeInto (readSymbol id) s) := by
  have hsym := ((hs.decoderReady hv).decodeAdaptive_keeps id).1
  have hres : (zext64 (decodeAdaptive id s).sym).toNat = (decodeAdaptive id s).sym :=
    toNat_zext64 (by have := id.symbols_range; omega)
  refine ⟨_, hs.decodeInto_eq hv _, (readSymbol_decodesTo id s).afterTypedRead _, ?_, hres, rfl, ?_,
    fun u hu => CdfRam.get_set_of_ne _ _ hu⟩
  · exact hres.trans_lt hsym
  · rw [succeedWith_res0]
    exact (CdfRam.get_set_same ..).trans (congrArg _ hres.symm)

/-! ### The magnitude of SR.MV -/

/-- The decoder is ready after any number of magnitude bits. -/
theorem DecoderReady.mvBitsAfter_keeps {s : State} (hs : DecoderReady s) (k : Nat) :
    DecoderReady (mvBitsAfter k s) := by
  induction k with
  | zero => exact hs
  | succ k ih => exact (ih.decodeAdaptive_keeps .mvBits).2

/-- `k` magnitude bits take `k` places below `extra`. -/
theorem readMvBits_sym_lt {s : State} (hs : DecoderReady s) (k extra : Nat) :
    (readMvBits k extra s).sym < (extra + 1) * 2 ^ k := by
  induction k generalizing extra s with
  | zero => simp [readMvBits]
  | succ k ih =>
    obtain ⟨hbit, hready⟩ := hs.decodeAdaptive_keeps .mvBits
    have hbit2 : (decodeAdaptive .mvBits s).sym < 2 := hbit
    calc (readMvBits (k + 1) extra s).sym
        < (2 * extra + (decodeAdaptive .mvBits s).sym + 1) * 2 ^ k := ih hready _
      _ ≤ ((extra + 1) * 2) * 2 ^ k := Nat.mul_le_mul_right _ (by omega)
      _ = (extra + 1) * 2 ^ (k + 1) := by rw [Nat.mul_assoc, Nat.pow_succ']

/-- The magnitude bits of class `c` from state `s` as one number, the first the most significant (R216). -/
def mvExtra (c : Nat) (s : State) : Nat :=
  ((List.range (c - 1)).map fun j =>
    (decodeAdaptive .mvBits (mvBitsAfter j s)).sym <<< (c - 2 - j)).sum

theorem readMvBits_sym_eq_mvExtra (c : Nat) (s : State) :
    (readMvBits (c - 1) 0 s).sym = mvExtra c s := by
  rw [readMvBits_sym, Nat.zero_mul, Nat.zero_add, mvExtra]
  rfl

theorem mvExtra_lt {s : State} (hs : DecoderReady s) (c : Nat) : mvExtra c s < 2 ^ (c - 1) := by
  rw [← readMvBits_sym_eq_mvExtra]
  simpa using readMvBits_sym_lt hs (c - 1) 0

/-- The magnitude of class `c` with the bits read from state `s` (R215). -/
def mvMagnitude (c : Nat) (s : State) : Nat := if c = 0 then 0 else 2 ^ (c - 1) + mvExtra c s

/-- A class of the table gives a magnitude of at most 2047 (R217). -/
theorem mvMagnitude_le {s : State} (hs : DecoderReady s) {c : Nat} (hc : c ≤ 11) :
    mvMagnitude c s ≤ 2047 := by
  have hextra := mvExtra_lt hs c
  have hpow : 2 ^ (c - 1) ≤ 2 ^ 10 := Nat.pow_le_pow_right (by decide) (by omega)
  unfold mvMagnitude
  split <;> omega

theorem readMvMagnitude_eq (s : State) :
    readMvMagnitude s =
      ⟨mvMagnitude (decodeAdaptive .mvClass s).sym (decodeAdaptive .mvClass s).state,
        mvBitsAfter ((decodeAdaptive .mvClass s).sym - 1) (decodeAdaptive .mvClass s).state⟩ := by
  unfold readMvMagnitude mvMagnitude
  dsimp only
  split
  · next h0 => rw [h0]; rfl
  · rw [readMvBits_sym_eq_mvExtra, readMvBits_state]

/-! ### Sign and result -/

/-- A sign symbol read from a two-symbol table, or the 0 of a magnitude 0. -/
theorem DecoderReady.readSign_keeps {s : State} (hs : DecoderReady s) {id : TableId}
    (hid : id.symbols = 2) (mag : Nat) :
    (readSign id mag s).sym ≤ 1 ∧ DecoderReady (readSign id mag s).state := by
  unfold readSign
  split
  · exact ⟨Nat.zero_le 1, hs⟩
  · obtain ⟨hsym, hready⟩ := hs.decodeAdaptive_keeps id
    exact ⟨by omega, hready⟩

theorem signed_bounds (neg m : Nat) : -(m : Int) ≤ signed neg m ∧ signed neg m ≤ m := by
  unfold signed
  split <;> omega

/-- A result that fits 64 bits is the value of the register that holds it. -/
theorem toInt_sext64 {v : Int} (hlo : -2 ^ 63 ≤ v) (hhi : v < 2 ^ 63) : (sext64 v).toInt = v :=
  BitVec.toInt_ofInt_eq_self (by decide) hlo hhi

/-- RES0 of SR.MV: the signed value in quarter-pel units, from -8191 to 8191 (R216, R217). -/
theorem mvResult_bounds (neg : Nat) {mag hp qp : Nat} (hmag : mag ≤ 2047) (hhp : hp ≤ 1)
    (hqp : qp ≤ 1) :
    let res := (sext64 (signed neg (mag * 4 + (hp * 2 + qp)))).toInt
    let v : Int := (mag : Int) * 4 + ((hp : Int) * 2 + qp)
    res = (if neg = 1 then -v else v) ∧ -8191 ≤ res ∧ res ≤ 8191 := by
  intro res v
  obtain ⟨hlo, hhi⟩ := signed_bounds neg (mag * 4 + (hp * 2 + qp))
  have hcast : ((mag * 4 + (hp * 2 + qp) : Nat) : Int) = v := by push_cast; rfl
  have hres : res = signed neg (mag * 4 + (hp * 2 + qp)) := toInt_sext64 (by omega) (by omega)
  rw [hres, ← hcast]
  exact ⟨rfl, by omega, by omega⟩

/-! ### The two statements -/

/-- Settles O43: each of the three is the shared read of one adaptive symbol, with its own table. -/
theorem oneSymbolReads : Obligations.OneSymbolReads := by
  refine ⟨rfl, rfl, rfl, fun s hs => ⟨fun hv => ?_, fun hv i hi => ?_⟩⟩
  · have hread (id : TableId) : ReadsOneSymbol id s (typedRead (readSymbol id) s) := by
      rw [typedRead_of_valid hv]
      exact decodeInto_readsOneSymbol hs hv id
    exact ⟨hread .skip, hread .intra, hread .inter⟩
  · rcases hi with rfl | rfl | rfl <;> exact exec_of_decoder_unset rfl hv

/-- Settles O46: the decoder stays ready from one symbol of SR.MV to the next, so each symbol is in its table and the
magnitude in the bounds of its class. -/
theorem mvReadFollowsItsSymbols : Obligations.MvReadFollowsItsSymbols := by
  refine ⟨rfl, fun s hs => ⟨fun hv => ?_, exec_of_decoder_unset rfl⟩⟩
  intro c bit extra u mag g hp qp v
  obtain ⟨hc, hready⟩ := (hs.decoderReady hv).decodeAdaptive_keeps .mvClass
  have hc11 : c.sym ≤ 11 := Nat.le_of_lt_succ hc
  have huready : DecoderReady u := hready.mvBitsAfter_keeps (c.sym - 1)
  obtain ⟨(hg : g.sym ≤ 1), hgready⟩ := huready.readSign_keeps (id := .mvSign) rfl mag
  obtain ⟨(hhp : hp.sym ≤ 1), hhpready⟩ := hgready.decodeFixedBool_keeps
  have hqp : qp.sym ≤ 1 := hhpready.decodeFixedBool_keeps.1
  have hmag : mag ≤ 2047 := mvMagnitude_le hready hc11
  have hread : readMv s =
      ⟨sext64 (signed g.sym (mag * 4 + (hp.sym * 2 + qp.sym))), qp.state⟩ := by
    rw [readMv, readMvMagnitude_eq]
    rfl
  refine ⟨hc11, fun j _ => ?_, mvExtra_lt hready _, hg, hhp, hqp, _,
    (typedRead_of_valid hv _).trans (hs.decodeInto_eq hv _),
    (readMv_decodesTo s).afterTypedRead _, ?_⟩
  · exact Nat.le_of_lt_succ ((hready.mvBitsAfter_keeps j).decodeAdaptive_keeps .mvBits).1
  · rw [hread]
    simp only [succeedWith_res0, succeedWith_leaves, and_true]
    exact mvResult_bounds g.sym hmag hhp hqp

end Sys2Proof.Machine
end

section
/-! SUPPORT. The exceptions family (spec/60_exceptions.md): each row of the error table makes its command fail, a command
that fails is in a row, which host interactions reach STICKY, and the statements about the error table and STICKY. -/

namespace Sys2Proof.Machine

/-! ### A row makes its command fail -/

/-- Every command that asks for bits makes the read check of its own count and limit, BC.SKIP with a limit that no
64-bit count passes. -/
theorem exec_failsReadCheck {i : Instr} {s : State} {n limit : Nat}
    (hask : i.bitsAsked s = some (n, limit)) : FailsReadCheck n limit s (exec i s) := by
  cases i with
  | bcRdbit | bcRdbits | bcRdbits64 | bcRdbyte | bcPeek =>
    cases hask
    exact bcRead_failsReadCheck _ _ _ _ s
  | bcSkip =>
    cases hask
    exact ⟨exec_of_cursor_unset rfl, fun _ hlimit => absurd s.arg0.isLt (by omega),
      fun hv _ hend => exec_bcSkip_of_past_end hv hend⟩
  | bcInit | bcAlign | bcPos | bcRem | viDec | adInit | adPos | srCtxrst | srPart | srSkip | srIntra
  | srInter | srMv | srDq => cases hask

/-- The offset of a failing WindowCheck (spec/20_memory.md R53). -/
theorem windowEnd_toNat (base len : Word) :
    (windowEnd base len).toNat = min (base.toNat + len.toNat) (2 ^ 64 - 1) :=
  toNat_zext64 (by omega)

/-- SR.PART with a block size it does not allow, past its AD_VALID check (spec/43_symbol_router.md R209). -/
theorem exec_srPart_of_bsl_lt {s : State} (hv : s.status.adValid = true) {bsl : Nat} (hbsl : bsl < 3)
    (hr hc : Bool) :
    exec (.srPart bsl hr hc) s = .next (raise .parse (zext64 s.ad.bitpos) .bit s) := by
  simp only [exec, execSrPart]
  rw [if_neg (by simp [hv]), if_pos hbsl]

/-- Where a row of the error table applies, the command ends with that row's `raise`. -/
theorem ErrorRow.exec_eq {i : Instr} {s : State} (hs : s.Inv) {off : Word} {u : OffUnit} {e : Err}
    (h : ErrorRow i s off u e) : exec i s = .next (raise e off u s) := by
  cases e with
  | ok | invalidData | illegalCommand => exact h.elim
  | notInitialised =>
    obtain ⟨rfl, rfl, ⟨hi, hv⟩ | ⟨hi, hv⟩⟩ := h
    · exact exec_of_cursor_unset hi hv
    · exact exec_of_decoder_unset hi hv
  | parse =>
    rcases h with ⟨rfl, rfl, hv, n, limit, hask, hlimit⟩ | ⟨rfl, rfl, hv, bsl, hr, hc, rfl, hbsl⟩
    · exact (exec_failsReadCheck hask).2.1 hv hlimit
    · exact exec_srPart_of_bsl_lt hv hbsl hr hc
  | unexpectedEof =>
    rcases h with ⟨rfl, rfl, hv, n, limit, hask, hn, hend⟩ |
      ⟨rfl, rfl, hv, k, hk, hoff, hfit, hend, hcont⟩ | ⟨rfl, hi, hpast, hoff⟩
    · exact (exec_failsReadCheck hask).2.2 hv hn hend
    · have hpos : zext64 (s.bc.pos.toNat + 8 * k) = off :=
        BitVec.eq_of_toNat_eq ((toNat_zext64 (hoff ▸ off.isLt)).trans hoff.symm)
      rw [exec_viDec_of_valid hs hv, lebDecode_of_past_end hk (by omega) (by omega) hcont,
        endViDec, hpos]
    · obtain rfl : windowEnd s.arg0 s.arg1 = off :=
        BitVec.eq_of_toNat_eq ((windowEnd_toNat _ _).trans hoff.symm)
      rcases hi with rfl | ⟨k, rfl⟩
      · exact exec_bcInit_of_past_bufLen hpast
      · exact exec_adInit_of_past_bufLen k hpast
  | decode =>
    obtain ⟨rfl, rfl, rfl, hv, hfit, hcont⟩ := h
    rw [exec_viDec_of_valid hs hv, lebDecode_of_all_continue hfit hcont, endViDec]

/-! ### A command that fails is in a row -/

/-- An outcome of command `i` from `s` that records an error records it by a row of the error table. -/
def FailsByRow (i : Instr) (s : State) (out : Host.Outcome State Fault Refusal) : Prop :=
  ∀ t, out = .next t → t.status.err ≠ .ok →
    ErrorRow i s t.erroff t.status.errUnit t.status.err

theorem FailsByRow.raised {i : Instr} {s : State} {e : Err} {off : Word} {u : OffUnit}
    (hrow : ErrorRow i s off u e) : FailsByRow i s (.next (raise e off u s)) := by
  rintro t ⟨⟩ -
  exact hrow

theorem FailsByRow.succeeded {i : Instr} {s r : State} (hok : r.status.err = .ok) :
    FailsByRow i s (.next r) := by
  rintro t ⟨⟩ hne
  exact absurd hok hne

theorem FailsByRow.faulted (i : Instr) (s : State) (f : Fault) : FailsByRow i s (.fault f) := by
  rintro t ⟨⟩

/-- A check whose error has a row, and what follows it when it passes. -/
theorem FailsByRow.checked {i : Instr} {s : State} {c : Prop} [Decidable c] {e : Err} {off : Word}
    {u : OffUnit} {out : Host.Outcome State Fault Refusal} (hrow : c → ErrorRow i s off u e)
    (hrest : ¬c → FailsByRow i s out) :
    FailsByRow i s (if c then .next (raise e off u s) else out) := by
  split
  · next hc => exact .raised (hrow hc)
  · next hc => exact hrest hc

/-- The BC_VALID check of a command of the cursor, and what follows it when it passes. -/
theorem FailsByRow.cursor_checked {i : Instr} {s : State} {out : Host.Outcome State Fault Refusal}
    (hi : i.needsCursor = true) (hrest : s.status.bcValid = true → FailsByRow i s out) :
    FailsByRow i s
      (if s.status.bcValid = false then .next (raise .notInitialised 0#64 .bit s) else out) :=
  .checked (fun hv => ⟨rfl, rfl, .inl ⟨hi, hv⟩⟩) fun hv => hrest (Bool.eq_true_of_not_eq_false hv)

/-- The AD_VALID check of a command of the decoder, and what follows it when it passes. -/
theorem FailsByRow.decoder_checked {i : Instr} {s : State} {out : Host.Outcome State Fault Refusal}
    (hi : i.needsDecoder = true) (hrest : s.status.adValid = true → FailsByRow i s out) :
    FailsByRow i s
      (if s.status.adValid = false then .next (raise .notInitialised 0#64 .bit s) else out) :=
  .checked (fun hv => ⟨rfl, rfl, .inr ⟨hi, hv⟩⟩) fun hv => hrest (Bool.eq_true_of_not_eq_false hv)

theorem bcRead_failsByRow {i : Instr} {s : State} {n limit : Nat} (hi : i.needsCursor = true)
    (hask : i.bitsAsked s = some (n, limit)) (o : Order) (consumed : Nat) :
    FailsByRow i s (bcRead o n limit consumed s) := by
  rcases bcRead_cases o n limit consumed s with ⟨hv, h⟩ | ⟨hv, hlimit, h⟩ | ⟨hv, hn, hend, h⟩ |
    ⟨-, -, -, ⟨-, h⟩ | ⟨-, h⟩⟩ <;> rw [h]
  · exact .raised ⟨rfl, rfl, .inl ⟨hi, hv⟩⟩
  · exact .raised (.inl ⟨rfl, rfl, hv, n, limit, hask, hlimit⟩)
  · exact .raised (.inl ⟨rfl, rfl, hv, n, limit, hask, hn, hend⟩)
  · exact .succeeded rfl
  · exact .faulted _ _ _

/-- Each end of VI.DEC's loop that raises is a row: what the bytes before it hold is the row's condition. -/
theorem endViDec_failsByRow {s : State} (hs : s.Inv) (hv : s.status.bcValid = true) :
    FailsByRow .viDec s (.next (endViDec s (lebDecode s))) := by
  have hlt := hs.bcBits_lt hv
  have hpos := hs.bc_pos hv
  unfold lebDecode
  rcases lebLoop_cases s Config.leb128MaxBytes 0 s.bc.pos.toNat 0 with
    ⟨k, -, -, -, -, -, hdone⟩ | ⟨k, hk, hcont, hfit, hend, heof⟩ | ⟨hcont, hfit, htooLong⟩
  · rw [hdone]
    exact .succeeded rfl
  · have hle : s.bc.pos.toNat + 8 * k ≤ bcBits s := by
      cases k with
      | zero => exact hpos
      | succ j => exact hfit j (Nat.lt_succ_self j)
    have hoff : (zext64 (s.bc.pos.toNat + 8 * k)).toNat = s.bc.pos.toNat + 8 * k :=
      toNat_zext64 (hle.trans_lt hlt)
    rw [heof]
    exact .raised (.inr (.inl
      ⟨rfl, rfl, hv, k, hk, hoff, hoff.trans_le hle, hoff.symm ▸ hend, hcont⟩))
  · rw [htooLong]
    exact .raised ⟨rfl, rfl, rfl, hv, hfit 7 (by decide), hcont⟩

/-- The window check of BC.INIT and AD.INIT. -/
theorem windowCheck_failsByRow {i : Instr} {s r : State} (hi : i = .bcInit ∨ ∃ k, i = .adInit k)
    (hok : r.status.err = .ok) :
    FailsByRow i s (if windowFits s s.arg0 s.arg1 then .next r
      else .next (raise .unexpectedEof (windowEnd s.arg0 s.arg1) .byte s)) := by
  split
  · exact .succeeded hok
  · next hfit =>
    have hpast : s.bufLen < s.arg0.toNat + s.arg1.toNat := by simpa [windowFits] using hfit
    exact .raised (.inr (.inr ⟨rfl, hi, hpast, windowEnd_toNat _ _⟩))

/-- The decoding part of a typed read raises nothing (R258). -/
theorem decodeInto_failsByRow (i : Instr) (f : State → Reading) (s : State) :
    FailsByRow i s (decodeInto f s) := by
  rcases decodeInto_cases f s with ⟨-, h⟩ | ⟨-, h⟩ <;> rw [h]
  · exact .succeeded rfl
  · exact .faulted _ _ _

theorem typedRead_failsByRow {i : Instr} (hi : i.needsDecoder = true) (f : State → Reading)
    (s : State) : FailsByRow i s (typedRead f s) :=
  .decoder_checked hi fun _ => decodeInto_failsByRow i f s

theorem execSrPart_failsByRow (bsl : Nat) (hr hc : Bool) (s : State) :
    FailsByRow (.srPart bsl hr hc) s (execSrPart bsl hr hc s) := by
  refine .decoder_checked rfl fun hv =>
    .checked (fun hbsl => .inr ⟨rfl, rfl, hv, bsl, hr, hc, rfl, hbsl⟩) fun _ => ?_
  match hr, hc with
  | true, true | false, true | true, false => exact decodeInto_failsByRow _ _ s
  | false, false => exact .succeeded rfl

/-- Every check of a command raises the error of its row, and past its checks the command raises none. -/
theorem exec_failsByRow (i : Instr) {s : State} (hs : s.Inv) : FailsByRow i s (exec i s) := by
  cases i with
  | bcInit => exact windowCheck_failsByRow (.inl rfl) rfl
  | adInit k => exact windowCheck_failsByRow (.inr ⟨k, rfl⟩) rfl
  | bcRdbit | bcRdbits | bcRdbits64 | bcRdbyte | bcPeek => exact bcRead_failsByRow rfl rfl _ _
  | bcSkip =>
    exact .cursor_checked rfl fun hv =>
      .checked (fun hend => .inl ⟨rfl, rfl, hv, _, _, rfl, s.arg0.isLt.le, hend⟩)
        fun _ => .succeeded rfl
  | bcAlign | bcPos | bcRem => exact .cursor_checked rfl fun _ => .succeeded rfl
  | viDec =>
    by_cases hv : s.status.bcValid = true
    · rw [exec_viDec_of_valid hs hv]
      exact endViDec_failsByRow hs hv
    · have hunset := Bool.eq_false_of_not_eq_true hv
      rw [exec_of_cursor_unset rfl hunset]
      exact .raised ⟨rfl, rfl, .inl ⟨rfl, hunset⟩⟩
  | adPos => exact .decoder_checked rfl fun _ => .succeeded rfl
  | srCtxrst => exact .succeeded rfl
  | srPart bsl hr hc => exact execSrPart_failsByRow bsl hr hc s
  | srSkip | srIntra | srInter | srMv | srDq => exact typedRead_failsByRow rfl _ s

/-! ### What reaches STICKY -/

/-- A CMD write that completes fails by one `raise`, or is a command's success. -/
theorem writeCmd_ends {w : Word} {s t : State} (h : writeCmd w s = .next t) :
    (∃ e off u, e ≠ .ok ∧ t = raise e off u s) ∨ ∃ i, Succeeds s i t := by
  unfold writeCmd at h
  split at h
  · next i _ => exact (exec_ends h).imp_right fun hi => ⟨i, hi⟩
  · cases h
    exact .inl ⟨_, _, _, by decide, rfl⟩

/-- STICKY after a CMD write: set by a failure, kept by a success. -/
theorem writeCmd_sticky {w : Word} {s t : State} (h : writeCmd w s = .next t) :
    (t.status.err ≠ .ok → t.status.sticky = true) ∧
    (t.status.err = .ok → t.status.sticky = s.status.sticky) := by
  rcases writeCmd_ends h with ⟨e, off, u, he, rfl⟩ | ⟨i, hi⟩
  · exact ⟨fun _ => rfl, fun hok => absurd hok he⟩
  · obtain ⟨hok, hsticky, -⟩ := hi.errorRecord
    exact ⟨fun hne => absurd hok hne, fun _ => hsticky⟩

theorem writeReg_keeps_sticky {r : Reg} {v : Word} {s t : State} (h : writeReg r v s = .next t)
    (hset : s.status.sticky = true) : t.status.sticky = true := by
  cases r with
  | cmd =>
    obtain ⟨hfail, hok⟩ := writeCmd_sticky h
    by_cases he : t.status.err = .ok
    · exact (hok he).trans hset
    · exact hfail he
  | arg0 | arg1 | res0 | res1 | status | erroff =>
    cases h
    exact hset

/-- A register access that is not refused is the access to one register, by the host that now drives the block. -/
theorem regAccess_next {h bytes off : Nat} {act : Reg → State → Host.Outcome State Fault Refusal}
    {s t : State} (hnext : regAccess h bytes off act s = .next t) :
    ∃ r, act r { s with driver := some h } = .next t := by
  unfold regAccess at hnext
  split at hnext
  · cases hnext
  · split at hnext
    · cases hnext
    · next r _ =>
      split at hnext
      · exact ⟨r, hnext⟩
      · cases hnext

/-- Loading BUF leaves STATUS. -/
theorem loadBuf_status {content : List Byte} {s t : State} (h : loadBuf content s = .next t) :
    t.status = s.status := by
  unfold loadBuf at h
  split_ifs at h
  cases h
  rfl

/-- A write of BUF leaves STATUS. -/
theorem writeBuf_status {a : Nat} {x : Byte} {s t : State} (h : writeBuf a x s = .next t) :
    t.status = s.status := by
  unfold writeBuf at h
  split_ifs at h
  cases h
  rfl

/-- No interaction but reset clears STICKY. -/
theorem perform_keeps_sticky {e : HostEvent} {s t : State} (he : e ≠ .reset)
    (h : perform e s = .next t) (hset : s.status.sticky = true) : t.status.sticky = true := by
  cases e with
  | writeReg =>
    obtain ⟨r, hr⟩ := regAccess_next h
    exact writeReg_keeps_sticky hr hset
  | readReg =>
    simp only [perform] at h
    obtain ⟨r, hr⟩ := regAccess_next h
    cases hr
    exact hset
  | loadBuf => rw [loadBuf_status h, hset]
  | writeBuf => rw [writeBuf_status h, hset]
  | reset => exact absurd rfl he
  | bufReadFails => cases h

/-! ### The two statements -/

/-- Settles O19: a row that applies makes its command end with the row's `raise`, a failing command is in a row, and a
successful one leaves the error record. -/
theorem errorsFollowTheErrorTable : Obligations.ErrorsFollowTheErrorTable := by
  refine ⟨fun i s t hs h => ⟨exec_failsByRow i hs t h, fun e off u hrow => ?_, fun hok => ?_⟩,
    fun w s hw => ⟨_, writeCmd_of_decode_ne hw.decode_ne_instr s, rfl, rfl, rfl⟩,
    Status.word_mod_16⟩
  · cases h.symm.trans (hrow.exec_eq hs)
    exact ⟨rfl, rfl, rfl⟩
  · obtain ⟨-, -, hunit, hoff⟩ := (exec_succeeds h hok).errorRecord
    exact ⟨hoff, hunit⟩

/-- Settles O20: CMD writes end by a `raise` or a success, and no other interaction but reset writes STICKY. -/
theorem stickyIsClearedOnlyByReset : Obligations.StickyIsClearedOnlyByReset := by
  refine ⟨fun w s t => writeCmd_sticky, fun s t e rest hhost he h hset => ?_,
    fun s rest => ⟨_, rfl, rfl⟩⟩
  unfold step at h
  rw [hhost] at h
  exact perform_keeps_sticky he h hset

end Sys2Proof.Machine
end

section
/-! SUPPORT. The platform's reset (spec/70_reset_and_hazards.md R280), line by line of its table. -/

namespace Sys2Proof.Machine

/-- A reset leaves the instance in the reset state over its own ROM and BUF, with the later interactions to come. -/
theorem step_reset (s : State) (rest : List HostEvent) :
    step { s with host := .reset :: rest } =
      .next { State.resetOf s.rom s.buf s.bufLen with host := rest } := rfl

/-- After reset each table of the CDF RAM is the ROM's with its counter 0, as after CdfReload
(spec/43_symbol_router.md R203). -/
@[simp] theorem State.resetOf_ram_get (rom : CdfRam) (buf : Memory) (bufLen : Nat) (t : TableId) :
    (State.resetOf rom buf bufLen).ram.get t = { cdf := (rom.get t).cdf, cnt := 0#6 } :=
  rom.get_reload t

/-- Settles O15: the reset state holds the zeros of R280, its STATUS word is 0 by its fields, its tables are the ROM's,
and ROM and BUF are handed over as they were. -/
theorem resetLeavesTheResetState : Obligations.ResetLeavesTheResetState := by
  intro s rest
  exact ⟨_, step_reset s rest,
    /- registers -/ rfl, rfl, rfl, rfl, rfl,
    /- STATUS -/ rfl, rfl, rfl, rfl, rfl, Status.word_reset,
    /- ERROFF -/ rfl,
    /- CDF RAM -/ fun t => by simp,
    /- ROM, BUF and the interactions to come -/ rfl, rfl, fun _ => rfl, rfl⟩

end Sys2Proof.Machine
end

section
/-! SUPPORT. Encoder and decoder against each other (spec/30_encoding.md R71 to R80): the fields of a command's
word, and the bits of a word that spells a row. -/

namespace Sys2Proof

/-! ### Decoding a command's word -/

/-- A command whose word spells a row that builds the command back is what its word decodes to. -/
theorem decode_encodeCmd_of_row {i : Instr} {r : OpcodeRow} (hr : r ∈ opcodeRows)
    (hspells : encode i &&& r.mask = r.pattern) (hbuild : r.build (encode i) = i) :
    decode (encodeCmd i) = .instr i := by
  rw [decode_encodeCmd_eq, decodeWord_eq_instr_iff]
  exact ⟨r, hr, OpcodeRow.spells_iff.mpr hspells, hbuild⟩

/-- The commands of format ON: fields O and N come back from the word by their places. -/
theorem decode_encodeCmd_formatON {p : CmdWord} {f : Order → Nat → Instr}
    (hrow : ⟨p, maskON, fun c => f (fieldO c) (fieldN c)⟩ ∈ opcodeRows)
    (hp : p ∈ [0x12000000#32, 0x13000000#32, 0x17000000#32])
    (henc : ∀ o n, encode (f o n) = encodeON p o n) (h16 : p[16] = false)
    (hlow : p.extractLsb' 0 7 = 0#7) (o : Order) {n : Nat} (hn : n < 128) :
    decode (encodeCmd (f o n)) = .instr (f o n) := by
  refine decode_encodeCmd_of_row hrow ?_ ?_ <;> rw [henc]
  · exact Laws.Encoding.spells_encodeON p hp o n
  · exact congrArg₂ f (fieldO_encodeON h16 o n) (fieldN_encodeON hlow o hn)

/-- The word of SR.PART for each of the 32 settings of its fields. -/
theorem decode_encodeCmd_srPart {bsl : Nat} (hbsl : bsl < 8) (hr hc : Bool) :
    decode (encodeCmd (.srPart bsl hr hc)) = .instr (.srPart bsl hr hc) := by
  revert bsl hr hc
  decide

/-- Settles O1, format by format: the words of formats Z, O and K are finitely many, and fields N and BSL come back
by their widths. -/
theorem decodeOfEncodeIsTheInstruction : Obligations.DecodeOfEncodeIsTheInstruction := by
  intro i hi
  cases i with
  | bcInit | bcSkip | bcAlign | bcPos | bcRem | viDec | adPos | srCtxrst | srSkip | srIntra | srInter
  | srMv | srDq => rfl
  | bcRdbit o | bcRdbyte o => cases o <;> rfl
  | adInit k => cases k <;> rfl
  | bcRdbits o n => exact decode_encodeCmd_bcRdbits o (of_decide_eq_true hi)
  | bcRdbits64 o n =>
    exact decode_encodeCmd_formatON (f := .bcRdbits64) (by simp [opcodeRows, opcodeRowsCursor])
      (by simp) (fun _ _ => rfl) rfl rfl o (of_decide_eq_true hi)
  | bcPeek o n =>
    exact decode_encodeCmd_formatON (f := .bcPeek) (by simp [opcodeRows, opcodeRowsCursor])
      (by simp) (fun _ _ => rfl) rfl rfl o (of_decide_eq_true hi)
  | srPart bsl hr hc => exact decode_encodeCmd_srPart (of_decide_eq_true hi) hr hc

/-! ### Encoding what a word decodes to -/

/-- Below the fixed bits of format O or K a word holds bit 16 alone. -/
theorem and_not_maskO (x : CmdWord) :
    x &&& ~~~maskO = if fieldBit16 x then 0x00010000#32 else 0#32 := by
  apply BitVec.eq_of_getLsbD_eq
  intro j hj
  unfold fieldBit16 maskO
  interval_cases j <;> cases h : x[16] <;> simp [h]

theorem fieldO_bits (x : CmdWord) : (fieldO x).bits = x &&& ~~~maskO := by
  rw [and_not_maskO]
  unfold fieldO
  split <;> rfl

theorem fieldK_bits (x : CmdWord) : (fieldK x).bits = x &&& ~~~maskO := by
  rw [and_not_maskO]
  unfold fieldK
  split <;> rfl

/-- Below the fixed bits of format ON a word holds fields O and N. -/
theorem encodeON_fields (p x : CmdWord) :
    encodeON p (fieldO x) (fieldN x) = p ||| (x &&& ~~~maskON) := by
  have hbits : (x &&& ~~~maskO) ||| (x.extractLsb' 0 7).zeroExtend 32 = x &&& ~~~maskON := by
    apply BitVec.eq_of_getLsbD_eq
    intro j hj
    unfold maskO maskON
    interval_cases j <;> simp
  rw [encodeON, fieldO_bits, fieldN, BitVec.ofNat_toNat, BitVec.setWidth_eq, BitVec.or_assoc, hbits]

/-- Below the fixed bits of format P a word holds fields HC, HR and BSL. -/
theorem encodeP_fields (p x : CmdWord) :
    encodeP p (fieldBsl x) (fieldHr x) (fieldHc x) = p ||| (x &&& ~~~maskP) := by
  have hbits : (if fieldHc x then 0x200#32 else 0#32) ||| ((if fieldHr x then 0x100#32 else 0#32) |||
      (x.extractLsb' 0 3).zeroExtend 32) = x &&& ~~~maskP := by
    apply BitVec.eq_of_getLsbD_eq
    intro j hj
    unfold fieldHc fieldHr maskP
    interval_cases j <;> cases h8 : x[8] <;> cases h9 : x[9] <;> simp [h8, h9]
  rw [encodeP, fieldBsl, BitVec.ofNat_toNat, BitVec.setWidth_eq, BitVec.or_assoc, BitVec.or_assoc, hbits]

/-- What a row builds from a word that spells it is well-formed and has that word. -/
def OpcodeRow.Reencodes (r : OpcodeRow) : Prop :=
  ∀ c, r.spells c = true → (r.build c).wf = true ∧ encode (r.build c) = c

/-- A word is its row's pattern and what it holds below the row's fixed bits, so the encoder has to put back these.
-/
theorem OpcodeRow.reencodes {r : OpcodeRow} (hwf : ∀ c, (r.build c).wf = true)
    (hfields : ∀ c, encode (r.build c) = r.pattern ||| (c &&& ~~~r.mask)) : r.Reencodes := by
  intro c hs
  refine ⟨hwf c, ?_⟩
  rw [hfields, ← OpcodeRow.spells_iff.mp hs, ← BitVec.and_or_distrib_left, BitVec.or_not_self,
    BitVec.and_allOnes]

/-- Format Z fixes every bit. -/
theorem or_and_not_maskZ (p c : CmdWord) : p = p ||| (c &&& ~~~maskZ) := by
  rw [show ~~~maskZ = 0#32 from rfl, BitVec.and_zero, BitVec.or_zero]

theorem fieldN_lt (c : CmdWord) : fieldN c < 128 := (c.extractLsb' 0 7).isLt

theorem fieldBsl_lt (c : CmdWord) : fieldBsl c < 8 := (c.extractLsb' 0 3).isLt

/-- Every row of the opcode table, by its format. -/
theorem opcodeRows_reencode : ∀ r ∈ opcodeRows, r.Reencodes := by
  have rowZ {p : CmdWord} {i : Instr} (hwf : i.wf = true) (hp : encode i = p) :
      (⟨p, maskZ, fun _ => i⟩ : OpcodeRow).Reencodes :=
    OpcodeRow.reencodes (fun _ => hwf) fun c => hp.trans (or_and_not_maskZ p c)
  have rowOK {p : CmdWord} {f : CmdWord → Instr} (hwf : ∀ c, (f c).wf = true)
      (hf : ∀ c, encode (f c) = p ||| (c &&& ~~~maskO)) :
      (⟨p, maskO, f⟩ : OpcodeRow).Reencodes := OpcodeRow.reencodes hwf hf
  have rowON {p : CmdWord} {f : Order → Nat → Instr} (hwf : ∀ o n, n < 128 → (f o n).wf = true)
      (hf : ∀ o n, encode (f o n) = encodeON p o n) :
      (⟨p, maskON, fun c => f (fieldO c) (fieldN c)⟩ : OpcodeRow).Reencodes :=
    OpcodeRow.reencodes (fun c => hwf _ _ (fieldN_lt c)) fun c => (hf _ _).trans (encodeON_fields p c)
  have hO (p c : CmdWord) := congrArg (p ||| ·) (fieldO_bits c)
  have hK (p c : CmdWord) := congrArg (p ||| ·) (fieldK_bits c)
  simp only [opcodeRows, opcodeRowsCursor, opcodeRowsDecoder, List.forall_mem_append,
    List.forall_mem_cons]
  refine ⟨⟨rowZ rfl rfl, rowOK (fun _ => rfl) (hO _), rowON ?_ (fun _ _ => rfl),
      rowON ?_ (fun _ _ => rfl), rowOK (fun _ => rfl) (hO _), rowZ rfl rfl, rowZ rfl rfl,
      rowON ?_ (fun _ _ => rfl), rowZ rfl rfl, rowZ rfl rfl, rowZ rfl rfl, List.forall_mem_nil _⟩,
    rowOK (fun _ => rfl) (hK _), rowZ rfl rfl, rowZ rfl rfl,
    OpcodeRow.reencodes (fun c => decide_eq_true (fieldBsl_lt c)) (encodeP_fields _),
    rowZ rfl rfl, rowZ rfl rfl, rowZ rfl rfl, rowZ rfl rfl, rowZ rfl rfl, List.forall_mem_nil _⟩
  all_goals exact fun o n hn => decide_eq_true hn

/-- Settles O2: a word that decodes spells a row, and what the row builds from it has the word's bits. -/
theorem decodedCommandReencodesToItsWord : Obligations.DecodedCommandReencodesToItsWord := by
  intro w i h
  obtain ⟨hupper, r, hr, hs, rfl⟩ := decode_eq_instr_iff.mp h
  obtain ⟨hwf, henc⟩ := opcodeRows_reencode r hr _ hs
  refine ⟨hwf, ?_⟩
  rw [encodeCmd, henc]
  apply BitVec.eq_of_toNat_eq
  have hzero := congrArg BitVec.toNat hupper
  simp only [BitVec.extractLsb'_toNat, Nat.shiftRight_eq_div_pow, BitVec.toNat_ofNat] at hzero
  simp only [BitVec.truncate_eq_setWidth, BitVec.toNat_setWidth, BitVec.extractLsb'_toNat]
  have := w.isLt
  omega

/-- Settles O3: the nine words are within reach of evaluation. -/
theorem sampleWordsDecode : Obligations.SampleWordsDecode := by
  unfold Obligations.SampleWordsDecode
  decide

end Sys2Proof
end

section
/-! SUPPORT. Commands as effects: what a command does, as data, is fixed by the part of the state it looks at, and
reaches only the part it writes. The statements about the error record, the two units, unset fields and BUF all read
off one effect that is applied to two states. -/

namespace Sys2Proof.Machine

/-! ### One effect on two states -/

/-- Two outcomes, from `s` and from `t`, are one effect of the kind that `apply` applies. -/
def SameEffect {E : Type} (apply : State → E → Host.Outcome State Fault Refusal) (s t : State)
    (x y : Host.Outcome State Fault Refusal) : Prop :=
  ∃ e, x = apply s e ∧ y = apply t e

/-- Equal conditions lead both outcomes into the same branch. -/
theorem SameEffect.ite {E : Type} {apply : State → E → Host.Outcome State Fault Refusal} {s t : State}
    {c d : Prop} [Decidable c] [Decidable d] {x x' y y' : Host.Outcome State Fault Refusal}
    (hcd : d ↔ c) (hpos : c → SameEffect apply s t x y) (hneg : ¬c → SameEffect apply s t x' y') :
    SameEffect apply s t (if c then x else x') (if d then y else y') := by
  by_cases hc : c
  · rw [if_pos hc, if_pos (hcd.mpr hc)]
    exact hpos hc
  · rw [if_neg hc, if_neg (mt hcd.mp hc)]
    exact hneg hc

/-! ### Effects of the Bit Cursor and of VI.DEC -/

/-- What a command of the Bit Cursor or VI.DEC does, with every value it writes. -/
inductive CursorEffect where
  | fails (e : Err) (off : Word) (u : OffUnit)
  | opens (window : BitCursor)
  | moves (pos : Word)
  | reads (v pos : Word)
  | readsVarint (v count pos : Word)
  | faults

/-- The outcome of an effect on a state. -/
def CursorEffect.apply (s : State) : CursorEffect → Host.Outcome State Fault Refusal
  | .fails e off u => .next (raise e off u s)
  | .opens window =>
    .next (succeed { s with bc := window, status := { s.status with bcValid := true } })
  | .moves pos => .next (succeed { s with bc := { s.bc with pos := pos } })
  | .reads v pos => .next (succeedWith v { s with bc := { s.bc with pos := pos } })
  | .readsVarint v count pos =>
    .next (succeedWith v { s with bc := { s.bc with pos := pos }, res1 := count })
  | .faults => .fault .bcWindowOutsideBuf

/-- `t` agrees with `s` in all that a command of the Bit Cursor or VI.DEC looks at. -/
structure SameCursor (s t : State) : Prop where
  arg0   : t.arg0 = s.arg0
  arg1   : t.arg1 = s.arg1
  valid  : t.status.bcValid = s.status.bcValid
  bc     : t.bc = s.bc
  bufLen : t.bufLen = s.bufLen
  window : ∀ a, s.bc.base.toNat ≤ a → a < s.bc.base.toNat + s.bc.len.toNat → memRead t a = memRead s a

/-- A Bit Cursor read past its read check (R104): the value, or the guard of log 10. -/
theorem bcRead_of_fits {s : State} (hv : s.status.bcValid = true) {n limit : Nat} (hn : n ≤ limit)
    (hfit : s.bc.pos.toNat + n ≤ bcBits s) (o : Order) (consumed : Nat) :
    bcRead o n limit consumed s =
      if bcWindowInBuf s then
        .next (succeedWith (zext64 (gather s s.bc.pos.toNat n o)) (advanceCursor consumed s))
      else .fault .bcWindowOutsideBuf := by
  rw [bcRead, bcReadCheck, if_neg (by simp [hv]), if_neg (by omega), if_neg (by omega)]

theorem SameCursor.refl (s : State) : SameCursor s s :=
  ⟨rfl, rfl, rfl, rfl, rfl, fun _ _ _ => rfl⟩

section

variable {s t : State} (h : SameCursor s t)
include h

theorem SameCursor.bcBits_eq : bcBits t = bcBits s := by rw [bcBits, bcBits, h.bc]

theorem SameCursor.bcWindowInBuf_eq : bcWindowInBuf t = bcWindowInBuf s := by
  rw [bcWindowInBuf, bcWindowInBuf, h.bc, h.bufLen]

/-- The BC_VALID check, and what follows it when it passes. -/
theorem SameCursor.checked_sameEffect {x y : Host.Outcome State Fault Refusal}
    (hrest : SameEffect CursorEffect.apply s t x y) :
    SameEffect CursorEffect.apply s t
      (if s.status.bcValid = false then .next (raise .notInitialised 0#64 .bit s) else x)
      (if t.status.bcValid = false then .next (raise .notInitialised 0#64 .bit t) else y) :=
  .ite (by rw [h.valid]) (fun _ => ⟨.fails .notInitialised 0#64 .bit, rfl, rfl⟩) fun _ => hrest

/-- Bits inside the window are the same. -/
theorem SameCursor.gather_eq {p n : Nat} (hfit : p + n ≤ bcBits s) (o : Order) :
    gather t p n o = gather s p n o :=
  gather_congr o (by rw [h.bc]) h.window hfit

theorem bcRead_sameEffect (o : Order) (n limit consumed : Nat) :
    SameEffect CursorEffect.apply s t (bcRead o n limit consumed s) (bcRead o n limit consumed t) := by
  rcases bcRead_cases o n limit consumed s with ⟨hv, hs⟩ | ⟨hv, hn, hs⟩ | ⟨hv, hn, hend, hs⟩ |
    ⟨hv, hn, hfit, -⟩
  · exact ⟨.fails _ _ _, hs, bcRead_of_unset (h.valid.trans hv) ..⟩
  · refine ⟨.fails .parse s.bc.pos .bit, hs, ?_⟩
    rw [bcRead_of_limit_lt (h.valid.trans hv) hn, h.bc]
    rfl
  · refine ⟨.fails .unexpectedEof s.bc.pos .bit, hs, ?_⟩
    rw [bcRead_of_past_end (h.valid.trans hv) hn (by rwa [h.bcBits_eq, h.bc]), h.bc]
    rfl
  · have hfit' : t.bc.pos.toNat + n ≤ bcBits t := by rwa [h.bcBits_eq, h.bc]
    rw [bcRead_of_fits hv hn hfit, bcRead_of_fits (h.valid.trans hv) hn hfit']
    refine .ite (by rw [h.bcWindowInBuf_eq]) (fun _ => ?_) fun _ => ⟨.faults, rfl, rfl⟩
    refine ⟨.reads (zext64 (gather s s.bc.pos.toNat n o)) (advanceCursor consumed s).bc.pos, rfl, ?_⟩
    rw [h.bc, h.gather_eq hfit]
    simp only [CursorEffect.apply, advanceCursor, h.bc]

theorem lebLoop_eq (fuel i p v : Nat) : lebLoop t fuel i p v = lebLoop s fuel i p v := by
  induction fuel generalizing i p v with
  | zero => rfl
  | succ fuel ih =>
    rw [lebLoop, lebLoop, h.bcBits_eq]
    split
    · rfl
    · next hfit => rw [h.gather_eq (by omega), ih]

theorem execViDec_sameEffect : SameEffect CursorEffect.apply s t (execViDec s) (execViDec t) := by
  refine h.checked_sameEffect
    (.ite (by rw [h.bcWindowInBuf_eq]) (fun _ => ?_) fun _ => ⟨.faults, rfl, rfl⟩)
  rw [lebLoop_eq h, h.bc]
  cases lebLoop s Config.leb128MaxBytes 0 s.bc.pos.toNat 0 with
  | done value count pos =>
    refine ⟨.readsVarint (zext64 value) (zext64 count) (BitVec.ofNat 64 pos), rfl, ?_⟩
    simp only [CursorEffect.apply, h.bc]
  | eof pos => exact ⟨.fails .unexpectedEof (zext64 pos) .bit, rfl, rfl⟩
  | tooLong => exact ⟨.fails .decode s.bc.pos .bit, rfl, rfl⟩

/-- A command of the Bit Cursor or VI.DEC has one effect on states that agree in what it looks at. -/
theorem exec_sameCursorEffect {i : Instr} (hi : i.ofCursor = true) :
    SameEffect CursorEffect.apply s t (exec i s) (exec i t) := by
  have hpos : t.bc.pos = s.bc.pos := by rw [h.bc]
  cases i with
  | bcInit =>
    refine .ite (by rw [windowFits, windowFits, h.arg0, h.arg1, h.bufLen]) (fun _ => ?_) fun _ => ?_
    · exact ⟨.opens ⟨s.arg0, s.arg1, 0#64⟩, rfl, by rw [CursorEffect.apply, ← h.arg0, ← h.arg1]⟩
    · exact ⟨.fails .unexpectedEof (windowEnd s.arg0 s.arg1) .byte, rfl, by rw [h.arg0, h.arg1]; rfl⟩
  | bcRdbit | bcRdbits | bcRdbits64 | bcRdbyte | bcPeek => exact bcRead_sameEffect h ..
  | bcSkip =>
    refine h.checked_sameEffect (.ite (by rw [h.arg0, h.bcBits_eq, h.bc]) (fun _ => ?_) fun _ => ?_)
    · exact ⟨.fails .unexpectedEof s.bc.pos .bit, rfl, by rw [hpos]; rfl⟩
    · refine ⟨.moves (advanceCursor s.arg0.toNat s).bc.pos, rfl, ?_⟩
      simp only [CursorEffect.apply, advanceCursor, h.bc, h.arg0]
  | bcAlign => exact h.checked_sameEffect ⟨.moves ((s.bc.pos + 7#64) &&& ~~~7#64), rfl, by rw [hpos]; rfl⟩
  | bcPos => exact h.checked_sameEffect ⟨.reads s.bc.pos s.bc.pos, rfl, by rw [← hpos]; rfl⟩
  | bcRem =>
    refine h.checked_sameEffect ⟨.reads (sext64 ((bcBits s : Int) - s.bc.pos.toNat)) s.bc.pos, rfl, ?_⟩
    rw [← hpos, h.bcBits_eq]
    rfl
  | viDec => exact execViDec_sameEffect h
  | adInit | adPos | srCtxrst | srPart | srSkip | srIntra | srInter | srMv | srDq => cases hi

end

/-! ### Effects of the decoder and the Symbol Router -/

/-- What a command of the Arithmetic Decoder or the Symbol Router does, with every value it writes. -/
inductive DecoderEffect where
  | fails (e : Err) (off : Word) (u : OffUnit)
  | starts (ad : ArithDecoder) (ram : CdfRam)
  | reloads (ram : CdfRam)
  | decodes (v : Word) (ad : ArithDecoder) (ram : CdfRam)
  | faults

/-- The outcome of an effect on a state. -/
def DecoderEffect.apply (s : State) : DecoderEffect → Host.Outcome State Fault Refusal
  | .fails e off u => .next (raise e off u s)
  | .starts ad ram =>
    .next (succeed { s with ad := ad, ram := ram, status := { s.status with adValid := true } })
  | .reloads ram => .next (succeed { s with ram := ram })
  | .decodes v ad ram => .next (succeedWith v { s with ad := ad, ram := ram })
  | .faults => .fault .tileWindowOutsideBuf

/-- The AD_VALID check, and what follows it when it passes. -/
theorem checked_sameEffect {s t : State} (hvalid : t.status.adValid = s.status.adValid)
    {x y : Host.Outcome State Fault Refusal} (hrest : SameEffect DecoderEffect.apply s t x y) :
    SameEffect DecoderEffect.apply s t
      (if s.status.adValid = false then .next (raise .notInitialised 0#64 .bit s) else x)
      (if t.status.adValid = false then .next (raise .notInitialised 0#64 .bit t) else y) :=
  .ite (by rw [hvalid]) (fun _ => ⟨.fails .notInitialised 0#64 .bit, rfl, rfl⟩) fun _ => hrest

/-- `t` agrees with `s` in all that a typed read looks at. -/
structure SameTypedRead (s t : State) : Prop extends SameDecoder s t where
  valid  : t.status.adValid = s.status.adValid
  bufLen : t.bufLen = s.bufLen

/-- A state that decoding steps lead to has its decoder and its CDF RAM from them and the rest from where they
began. -/
theorem DecodesTo.eq_withDecoder {s u : State} (h : DecodesTo s u) : u = withDecoder u s := by
  rw [h]
  rfl

section

variable {s t : State} (h : SameTypedRead s t)
include h

theorem decodeInto_sameEffect {f : State → Reading} (hf : ReadsAlike f)
    (hd : DecodesTo s (f s).state) :
    SameEffect DecoderEffect.apply s t (decodeInto f s) (decodeInto f t) := by
  refine .ite (by rw [tileInBuf, tileInBuf, h.ad, h.bufLen]) (fun _ => ?_)
    fun _ => ⟨.faults, rfl, rfl⟩
  refine ⟨.decodes (f s).value (f s).state.ad (f s).state.ram, ?_, ?_⟩
  · exact congrArg (fun u => Host.Outcome.next (succeedWith (f s).value u)) hd.eq_withDecoder
  · rw [hf s t h.toSameDecoder]
    rfl

theorem typedRead_sameEffect {f : State → Reading} (hf : ReadsAlike f)
    (hd : DecodesTo s (f s).state) :
    SameEffect DecoderEffect.apply s t (typedRead f s) (typedRead f t) :=
  checked_sameEffect h.valid (decodeInto_sameEffect h hf hd)

theorem execSrPart_sameEffect (bsl : Nat) (hr hc : Bool) :
    SameEffect DecoderEffect.apply s t (execSrPart bsl hr hc s) (execSrPart bsl hr hc t) := by
  refine checked_sameEffect h.valid (.ite Iff.rfl (fun _ => ?_) fun _ => ?_)
  · exact ⟨.fails .parse (zext64 s.ad.bitpos) .bit, rfl, by rw [h.ad]; rfl⟩
  · match hr, hc with
    | true, true => exact decodeInto_sameEffect h (readSymbol_alike _) (readSymbol_decodesTo _ s)
    | false, true => exact decodeInto_sameEffect h (readEdge_alike _ _) (readEdge_decodesTo _ _ s)
    | true, false => exact decodeInto_sameEffect h (readEdge_alike _ _) (readEdge_decodesTo _ _ s)
    | false, false => exact ⟨.decodes (zext64 3) s.ad s.ram, rfl, by rw [← h.ad, ← h.ram]; rfl⟩

/-- A typed read has one effect on states that agree in what it looks at. -/
theorem exec_typedRead_sameEffect {i : Instr} (hi : i.typedRead = true) :
    SameEffect DecoderEffect.apply s t (exec i s) (exec i t) := by
  cases i with
  | srPart bsl hr hc => exact execSrPart_sameEffect h bsl hr hc
  | srSkip | srIntra | srInter =>
    exact typedRead_sameEffect h (readSymbol_alike _) (readSymbol_decodesTo _ s)
  | srMv => exact typedRead_sameEffect h readMv_alike (readMv_decodesTo s)
  | srDq => exact typedRead_sameEffect h readDq_alike (readDq_decodesTo s)
  | bcInit | bcRdbit | bcRdbits | bcRdbits64 | bcRdbyte | bcSkip | bcAlign | bcPeek | bcPos | bcRem
  | viDec | adInit | adPos | srCtxrst => cases hi

end

/-- `t` agrees with `s` in all that AD.INIT looks at: the new tile's bytes among it, the old tile not. -/
structure SameStart (s t : State) : Prop where
  arg0   : t.arg0 = s.arg0
  arg1   : t.arg1 = s.arg1
  bufLen : t.bufLen = s.bufLen
  ram    : t.ram = s.ram
  rom    : t.rom = s.rom
  tile   : ∀ a, s.arg0.toNat ≤ a → a < s.arg0.toNat + s.arg1.toNat → memRead t a = memRead s a

/-- The decoder that AD.INIT starts depends on the new tile alone. -/
theorem startDecoder_ad_eq {s t : State} {base size : Word}
    (htile : ∀ a, base.toNat ≤ a → a < base.toNat + size.toNat → memRead t a = memRead s a) :
    (startDecoder (placeTile base size t)).ad = (startDecoder (placeTile base size s)).ad := by
  have hfetch : fetchValue (placeTile base size t) 15 = fetchValue (placeTile base size s) 15 :=
    fetchValue_congr 15 rfl rfl rfl htile
  simp only [startDecoder, advanceTile, hfetch]
  rfl

/-- What AD.INIT writes on a tile inside BUF. -/
theorem adInit_steps_effect (k : CarryOver) (s : State) :
    .next (succeed (carryOver k (startDecoder (placeTile s.arg0 s.arg1 s)))) =
      (DecoderEffect.starts (startDecoder (placeTile s.arg0 s.arg1 s)).ad (carryOver k s).ram).apply s := by
  cases k <;> rfl

/-- AD.INIT has one effect on states that agree in what it looks at. -/
theorem exec_adInit_sameEffect {s t : State} (h : SameStart s t) (k : CarryOver) :
    SameEffect DecoderEffect.apply s t (exec (.adInit k) s) (exec (.adInit k) t) := by
  refine .ite (by rw [windowFits, windowFits, h.arg0, h.arg1, h.bufLen]) (fun _ => ?_) fun _ => ?_
  · refine ⟨_, adInit_steps_effect k s, (adInit_steps_effect k t).trans ?_⟩
    have hram : (carryOver k t).ram = (carryOver k s).ram := by
      cases k with
      | reload => exact congrArg CdfRam.reload h.rom
      | keep => exact h.ram
    rw [h.arg0, h.arg1, startDecoder_ad_eq h.tile, hram]
  · exact ⟨.fails .unexpectedEof (windowEnd s.arg0 s.arg1) .byte, rfl, by rw [h.arg0, h.arg1]; rfl⟩

/-- `t` agrees with `s` in all that a command of the decoder or the router looks at, whatever its kind. -/
structure SameDecoderUnit (s t : State) : Prop where
  arg0   : t.arg0 = s.arg0
  arg1   : t.arg1 = s.arg1
  valid  : t.status.adValid = s.status.adValid
  ad     : t.ad = s.ad
  ram    : t.ram = s.ram
  rom    : t.rom = s.rom
  buf    : t.buf = s.buf
  bufLen : t.bufLen = s.bufLen

theorem SameDecoderUnit.refl (s : State) : SameDecoderUnit s s :=
  ⟨rfl, rfl, rfl, rfl, rfl, rfl, rfl, rfl⟩

/-- A command of the decoder or the router has one effect on states that agree in what it looks at. -/
theorem exec_sameDecoderEffect {i : Instr} (hi : i.ofCursor = false) {s t : State}
    (h : SameDecoderUnit s t) : SameEffect DecoderEffect.apply s t (exec i s) (exec i t) := by
  have hmem : ∀ a, memRead t a = memRead s a := fun a => congrArg (Memory.read · a) h.buf
  have htyped : SameTypedRead s t := ⟨⟨h.ad, h.ram, fun a _ _ => hmem a⟩, h.valid, h.bufLen⟩
  cases i with
  | adInit k =>
    exact exec_adInit_sameEffect ⟨h.arg0, h.arg1, h.bufLen, h.ram, h.rom, fun a _ _ => hmem a⟩ k
  | adPos =>
    refine checked_sameEffect h.valid ⟨.decodes (zext64 s.ad.bitpos) s.ad s.ram, rfl, ?_⟩
    rw [← h.ad, ← h.ram]
    rfl
  | srCtxrst => exact ⟨.reloads s.rom.reload, rfl, by rw [← h.rom]; rfl⟩
  | srPart | srSkip | srIntra | srInter | srMv | srDq => exact exec_typedRead_sameEffect htyped rfl
  | bcInit | bcRdbit | bcRdbits | bcRdbits64 | bcRdbyte | bcSkip | bcAlign | bcPeek | bcPos | bcRem
  | viDec => cases hi

/-! ### Six statements about what commands read and write -/

/-- Settles O18: a command that does not fail by one `raise` records no error. -/
theorem failureChangesOnlyStatusAndErroff : Obligations.FailureChangesOnlyStatusAndErroff := by
  intro i s t h hne
  rcases exec_cases h with ⟨e, off, u, -, rfl⟩ | hs
  · rfl
  · exact absurd (congrArg (·.status.err) hs) hne

/-- Settles O52: neither the `raise` of a failure nor the frame of a success reaches these fields. -/
theorem noCommandWritesBufOrRom : Obligations.NoCommandWritesBufOrRom := by
  intro i s t h
  rcases exec_cases h with ⟨e, off, u, -, rfl⟩ | hs
  · exact ⟨fun _ => rfl, rfl, rfl, rfl, rfl, rfl, rfl, rfl⟩
  · rw [hs]
    exact ⟨fun _ => rfl, rfl, rfl, rfl, rfl, rfl, rfl, rfl⟩

/-- Settles O21: states that differ in the error record alone agree in all that any command looks at, and an effect
writes the same ERR on both. -/
theorem errorRecordIsNeverRead : Obligations.ErrorRecordIsNeverRead := by
  intro i s t e st u off h
  cases hi : i.ofCursor with
  | true =>
    obtain ⟨eff, hs, hs'⟩ := exec_sameCursorEffect (s := s)
      (t := { s with
        status := { s.status with err := e, sticky := st, errUnit := u }, erroff := off })
      ⟨rfl, rfl, rfl, rfl, rfl, fun _ _ _ => rfl⟩ hi
    cases eff <;> cases hs.symm.trans h <;> exact ⟨_, hs', rfl, rfl⟩
  | false =>
    obtain ⟨eff, hs, hs'⟩ := exec_sameDecoderEffect hi (s := s)
      (t := { s with
        status := { s.status with err := e, sticky := st, errUnit := u }, erroff := off })
      ⟨rfl, rfl, rfl, rfl, rfl, rfl, rfl, rfl⟩
    cases eff <;> cases hs.symm.trans h <;> exact ⟨_, hs', rfl, rfl⟩

/-- What the commands of the cursor leave: the decoder, its tables and its VALID bit. -/
theorem CursorEffect.leaves_decoder {e : CursorEffect} {s t : State} (h : e.apply s = .next t) :
    t.ad = s.ad ∧ t.ram = s.ram ∧ t.status.adValid = s.status.adValid := by
  cases e <;> cases h <;> exact ⟨rfl, rfl, rfl⟩

/-- What the commands of the decoder and the router leave: the cursor and its VALID bit. -/
theorem DecoderEffect.leaves_cursor {e : DecoderEffect} {s t : State} (h : e.apply s = .next t) :
    t.bc = s.bc ∧ t.status.bcValid = s.status.bcValid := by
  cases e <;> cases h <;> exact ⟨rfl, rfl⟩

theorem exec_leaves_decoder {i : Instr} (hi : i.ofCursor = true) {s t : State}
    (h : exec i s = .next t) :
    t.ad = s.ad ∧ t.ram = s.ram ∧ t.status.adValid = s.status.adValid := by
  obtain ⟨e, hs, -⟩ := exec_sameCursorEffect (.refl s) hi
  exact CursorEffect.leaves_decoder (hs.symm.trans h)

theorem exec_leaves_cursor {i : Instr} (hi : i.ofCursor = false) {s t : State}
    (h : exec i s = .next t) : t.bc = s.bc ∧ t.status.bcValid = s.status.bcValid := by
  obtain ⟨e, hs, -⟩ := exec_sameDecoderEffect hi (.refl s)
  exact DecoderEffect.leaves_cursor (hs.symm.trans h)

/-- Settles O53: a command of one unit has the same effect whatever the other unit holds, and no effect of one unit
writes the other's fields. -/
theorem cursorAndDecoderShareNoState : Obligations.CursorAndDecoderShareNoState := by
  intro i s a m b v
  refine ⟨fun hi => ⟨?_, fun t => exec_leaves_decoder hi⟩,
    fun hi => ⟨?_, fun t => exec_leaves_cursor hi⟩⟩
  · obtain ⟨e, hs, hs'⟩ := exec_sameCursorEffect (s := s)
      (t := { s with ad := a, ram := m, status := { s.status with adValid := v } })
      ⟨rfl, rfl, rfl, rfl, rfl, fun _ _ _ => rfl⟩ hi
    rw [hs, hs']
    cases e <;> rfl
  · obtain ⟨e, hs, hs'⟩ := exec_sameDecoderEffect hi (s := s)
      (t := { s with bc := b, status := { s.status with bcValid := v } })
      ⟨rfl, rfl, rfl, rfl, rfl, rfl, rfl, rfl⟩
    rw [hs, hs']
    cases e <;> rfl

/-- Every command needs the cursor, sets it up, or is none of its unit. -/
theorem cursor_cases (i : Instr) :
    i.needsCursor = true ∨ i = .bcInit ∨ i.ofCursor = false := by
  cases i <;> simp [Instr.needsCursor, Instr.ofCursor]

/-- Every command needs the decoder, sets it up, reloads its tables, or is none of its unit. -/
theorem decoder_cases (i : Instr) :
    i.needsDecoder = true ∨ (∃ k, i = .adInit k) ∨ i = .srCtxrst ∨ i.ofCursor = true := by
  cases i <;> simp [Instr.needsDecoder, Instr.typedRead, Instr.ofCursor]

/-- A change of the next state that is made only while a VALID bit of it is not set. -/
theorem mapNext_of_unset {valid : State → Bool} {f : State → State} {t u : State}
    (hv : valid t = false) (hu : u = f t) :
    .next u = mapNext (fun t => if valid t then t else f t) (.next t) := by
  simp [mapNext, hv, hu]

/-- Whatever an unset cursor holds, every command does the same. -/
theorem exec_unset_cursor (i : Instr) {s : State} (hv : s.status.bcValid = false) (b : BitCursor) :
    exec i { s with bc := b } =
      mapNext (fun t => if t.status.bcValid then t else { t with bc := b }) (exec i s) := by
  rcases cursor_cases i with hi | rfl | hi
  · rw [exec_of_cursor_unset hi hv]
    refine (exec_of_cursor_unset hi ?_).trans (mapNext_of_unset ?_ rfl) <;> exact hv
  · refine ite_eq_apply_ite _ rfl (mapNext_of_unset ?_ rfl)
    exact hv
  · obtain ⟨e, hs, hs'⟩ := exec_sameDecoderEffect hi (s := s) (t := { s with bc := b })
      ⟨rfl, rfl, rfl, rfl, rfl, rfl, rfl, rfl⟩
    rw [hs, hs']
    cases e with
    | faults => rfl
    | fails | starts | reloads | decodes =>
      refine mapNext_of_unset ?_ rfl
      exact hv

/-- Whatever an unset decoder holds, every command does the same. -/
theorem exec_unset_decoder (i : Instr) {s : State} (hv : s.status.adValid = false)
    (a : ArithDecoder) :
    exec i { s with ad := a } =
      mapNext (fun t => if t.status.adValid then t else { t with ad := a }) (exec i s) := by
  rcases decoder_cases i with hi | ⟨k, rfl⟩ | rfl | hi
  · rw [exec_of_decoder_unset hi hv]
    refine (exec_of_decoder_unset hi ?_).trans (mapNext_of_unset ?_ rfl) <;> exact hv
  · refine ite_eq_apply_ite _ ?_ (mapNext_of_unset ?_ rfl)
    · cases k <;> rfl
    · exact hv
  · refine mapNext_of_unset ?_ rfl
    exact hv
  · obtain ⟨e, hs, hs'⟩ := exec_sameCursorEffect (s := s) (t := { s with ad := a })
      ⟨rfl, rfl, rfl, rfl, rfl, fun _ _ _ => rfl⟩ hi
    rw [hs, hs']
    cases e with
    | faults => rfl
    | fails | opens | moves | reads | readsVarint =>
      refine mapNext_of_unset ?_ rfl
      exact hv

/-- Settles O54: a command that needs the unset unit fails by its check, the one that sets it up overwrites the
fields, and every other command has an effect that looks at none of them. -/
theorem unspecifiedFieldsAreNeverObserved : Obligations.UnspecifiedFieldsAreNeverObserved :=
  fun i _ b a => ⟨fun hv => exec_unset_cursor i hv b, fun hv => exec_unset_decoder i hv a⟩

/-- Settles O55: other bytes outside the window leave a command's effect as it is, and no effect writes BUF. -/
theorem commandsReadOnlyTheirWindows : Obligations.CommandsReadOnlyTheirWindows := by
  intro i s m same
  have carried {eff : DecoderEffect} : eff.apply { s with buf := m } =
      mapNext (fun t => { t with buf := m }) (eff.apply s) := by cases eff <;> rfl
  refine ⟨fun hi hbytes => ?_, fun hi hbytes => ?_, ?_, ?_⟩
  · obtain ⟨e, hs, hs'⟩ := exec_sameCursorEffect (s := s) (t := { s with buf := m })
      ⟨rfl, rfl, rfl, rfl, rfl, hbytes⟩ hi
    simp only [same, hs, hs']
    cases e <;> rfl
  · obtain ⟨e, hs, hs'⟩ := exec_typedRead_sameEffect (s := s) (t := { s with buf := m })
      ⟨⟨rfl, rfl, hbytes⟩, rfl, rfl⟩ hi
    simp only [same, hs, hs', carried]
  · rintro ⟨k, rfl⟩ hbytes
    obtain ⟨e, hs, hs'⟩ := exec_adInit_sameEffect (s := s) (t := { s with buf := m })
      ⟨rfl, rfl, rfl, rfl, rfl, hbytes⟩ k
    simp only [same, hs, hs', carried]
  · rintro (rfl | rfl | rfl | rfl | rfl | rfl | rfl | ⟨bsl, rfl⟩)
    · exact ite_eq_apply_ite _ rfl rfl
    · exact ite_eq_apply_ite _ rfl (ite_eq_apply_ite _ rfl rfl)
    · exact ite_eq_apply_ite _ rfl rfl
    · exact ite_eq_apply_ite _ rfl rfl
    · exact ite_eq_apply_ite _ rfl rfl
    · exact ite_eq_apply_ite _ rfl rfl
    · rfl
    · exact ite_eq_apply_ite _ rfl (ite_eq_apply_ite _ rfl rfl)

end Sys2Proof.Machine
end

section
/-! SUPPORT. Host interactions (spec/10_state.md, spec/20_memory.md, spec/60_exceptions.md R269): which register
accesses are refused, who drives the block, and how BUF is written and loaded. -/

namespace Sys2Proof.Machine

/-! ### Register accesses -/

/-- Settles O5: the CMD write is the access of the host that drives the block, and its value decodes. -/
theorem stepRunsTheDecodedCommand : Obligations.StepRunsTheDecodedCommand := by
  intro s h rest w i hhost hd hw
  have hsame : { s with host := .writeReg h 8 Reg.cmd.offset w :: rest } = s := hhost ▸ rfl
  have hstep := step_writeReg_of_driver hd .cmd w rest
  rw [hsame] at hstep
  rw [hstep, writeReg, writeCmd, hw]

/-- Settles O6: withFetchWord places the write of the command's CMD value, which decodes to the command. -/
theorem placedCommandRunsNext : Obligations.PlacedCommandRunsNext := by
  intro s i hi
  have hword : BitVec.ofNat 64 ((encode i).toNat % 2 ^ 32) = encodeCmd i := by
    rw [Nat.mod_eq_of_lt (encode i).isLt, BitVec.ofNat_toNat]
    rfl
  refine stepRunsTheDecodedCommand (s.withFetchWord 32 (encode i).toNat) _ s.host (encodeCmd i) i
    ?_ ?_ (decodeOfEncodeIsTheInstruction i hi)
  · rw [State.withFetchWord, hword]
  · show s.driver = none ∨ s.driver = some (s.driver.getD 0)
    cases s.driver with
    | none => exact .inl rfl
    | some h => exact .inr rfl

/-- Settles O10: a read by the driving host answers the register and writes readData alone. -/
theorem registerReadsHaveNoSideEffect : Obligations.RegisterReadsHaveNoSideEffect := by
  intro s h rest hd
  refine ⟨fun r => ?_, fun v => step_writeReg_of_driver hd .erroff v rest⟩
  rw [step_readReg_of_driver hd]
  cases r <;> rfl

/-- An access of another width or at a bad alignment is refused for its form. -/
theorem regAccess_of_bad_form {bytes off : Nat} (hform : bytes ≠ 8 ∨ off % 8 ≠ 0) (h : Nat)
    (act : Reg → State → Host.Outcome State Fault Refusal) (s : State) :
    regAccess h bytes off act s = .refused (.badAccessForm bytes off) :=
  if_pos hform

/-- An access in a permitted form above the registers is refused for its offset. -/
theorem regAccess_of_unmapped {off : Nat} (halign : off % 8 = 0) (hoff : 0x38 ≤ off) (h : Nat)
    (act : Reg → State → Host.Outcome State Fault Refusal) (s : State) :
    regAccess h 8 off act s = .refused (.unmappedOffset off) := by
  rw [regAccess, if_neg (by simp [halign]), Reg.at?_eq_none hoff]

/-- Settles O11: writes and reads are refused alike, for their form and then for their offset. -/
theorem accessFormsOutsideTheSpecAreRefused : Obligations.AccessFormsOutsideTheSpecAreRefused := by
  intro s h bytes off v rest
  simp only [step, perform]
  constructor
  · intro hform
    simp only [regAccess_of_bad_form hform, and_self]
  · rintro rfl halign hoff
    simp only [regAccess_of_unmapped halign hoff, and_self]

/-! ### The driving host -/

/-- No command changes the driving host. -/
theorem exec_driver {i : Instr} {s t : State} (h : exec i s = .next t) : t.driver = s.driver := by
  obtain ⟨-, -, -, -, -, -, hdriver, -⟩ := noCommandWritesBufOrRom i s t h
  exact hdriver

theorem writeReg_driver {r : Reg} {v : Word} {s t : State} (h : writeReg r v s = .next t) :
    t.driver = s.driver := by
  cases r with
  | cmd =>
    simp only [writeReg, writeCmd] at h
    split at h
    · exact exec_driver h
    · cases h
      rfl
  | arg0 | arg1 | res0 | res1 | status | erroff =>
    cases h
    rfl

/-- A register write that is not refused makes its host the driving one. -/
theorem perform_writeReg_driver {g bytes off : Nat} {v : Word} {s t : State}
    (h : perform (.writeReg g bytes off v) s = .next t) : t.driver = some g := by
  obtain ⟨r, hr⟩ := regAccess_next h
  exact writeReg_driver hr

/-- A register read that is not refused makes its host the driving one. -/
theorem perform_readReg_driver {g bytes off : Nat} {s t : State}
    (h : perform (.readReg g bytes off) s = .next t) : t.driver = some g := by
  simp only [perform] at h
  obtain ⟨r, hr⟩ := regAccess_next h
  cases hr
  rfl

/-- An access that is not refused is the driving host's, where there is one. -/
theorem regAccess_host_eq {h g bytes off : Nat}
    {act : Reg → State → Host.Outcome State Fault Refusal} {s t : State} (hd : s.driver = some g)
    (hnext : regAccess h bytes off act s = .next t) : h = g := by
  unfold regAccess at hnext
  split at hnext
  · cases hnext
  · split at hnext
    · cases hnext
    · split at hnext
      · next hh => simpa [hd, eq_comm] using hh
      · cases hnext

/-- Every interaction but reset keeps the driving host. -/
theorem perform_keeps_driver {e : HostEvent} (he : e ≠ .reset) {s t : State} {g : Nat}
    (hd : s.driver = some g) (h : perform e s = .next t) : t.driver = some g := by
  cases e with
  | writeReg =>
    rw [perform_writeReg_driver h, regAccess_host_eq hd h]
  | readReg =>
    have haccess := h
    simp only [perform] at haccess
    rw [perform_readReg_driver h, regAccess_host_eq hd haccess]
  | loadBuf =>
    simp only [perform, loadBuf] at h
    split_ifs at h
    cases h
    exact hd
  | writeBuf =>
    simp only [perform, writeBuf] at h
    split_ifs at h
    cases h
    exact hd
  | reset => exact absurd rfl he
  | bufReadFails => cases h

/-- Settles O12: an access that goes on is made by the driving host, and no command writes that field. -/
theorem secondHostIsRefused : Obligations.SecondHostIsRefused := by
  refine ⟨fun s t g r v rest h => ?_, fun s t g e rest hd hhost he h => ?_,
    fun s h g r v rest hd hne => ?_⟩
  · exact h.elim perform_writeReg_driver perform_readReg_driver
  · rw [step, hhost] at h
    exact perform_keeps_driver he (by exact hd) h
  · have hother : ¬(s.driver = none ∨ s.driver = some h) := by simp [hd, Ne.symm hne]
    rw [step_writeReg, step_readReg, if_neg hother, if_neg hother]
    exact ⟨rfl, rfl⟩

/-! ### BUF -/

theorem inValidBcWindow_iff {s : State} {a : Nat} :
    inValidBcWindow s a = true ↔
      s.status.bcValid = true ∧ s.bc.base.toNat ≤ a ∧ a < s.bc.base.toNat + s.bc.len.toNat := by
  simp [inValidBcWindow, and_assoc]

theorem inValidTile_iff {s : State} {a : Nat} :
    inValidTile s a = true ↔
      s.status.adValid = true ∧ s.ad.base.toNat ≤ a ∧ a < s.ad.base.toNat + s.ad.size.toNat := by
  simp [inValidTile, and_assoc]

/-- Settles O13: the guard of a BUF write is R63's, and a write that passes it changes the one byte it names. -/
theorem bufWritesStayOutsideValidWindows : Obligations.BufWritesStayOutsideValidWindows := by
  intro s a x rest hs ha
  rw [step_writeBuf, if_neg (by omega), ← inValidBcWindow_iff, ← inValidTile_iff]
  refine ⟨fun hin => if_pos hin, fun hout => ⟨_, if_neg hout, rfl, ?_, fun b hb => ?_⟩⟩
  · exact (Memory.read_write hs.buf_wf a a x).trans (if_pos rfl)
  · exact (Memory.read_write hs.buf_wf a b x).trans (if_neg hb)

/-- A step at a load of BUF. -/
theorem step_loadBuf (s : State) (content : List Byte) (rest : List HostEvent) :
    step { s with host := .loadBuf content :: rest } =
      if s.status.bcValid ∨ s.status.adValid then .refused .bufLoadedUnderWindow
      else if content.length < 2 ^ 61 then
        .next { s with host := rest, buf := Memory.ofBytesFrom 0 content, bufLen := content.length }
      else .refused .bufTooLong := rfl

/-- Loading gives BUF its canonical form. -/
theorem loaded_buf_wf (content : List Byte) :
    (Memory.ofBytesFrom 0 content).wf content.length = true := by
  have h := Memory.ofBytesFrom_wfFrom content 0 0 (Nat.le_refl 0)
  rwa [Nat.zero_add] at h

/-- Settles O14: the loaded memory is in canonical form and reads back byte by byte; the two refusals are the
guards. -/
theorem loadedBufReadsBack : Obligations.LoadedBufReadsBack := by
  intro s content rest
  rw [step_loadBuf]
  refine ⟨fun hb ha hlen => ?_, fun hvalid => if_pos hvalid, fun hb ha hlen => ?_⟩
  · refine ⟨_, (if_neg (by simp [hb, ha])).trans (if_pos hlen), rfl, loaded_buf_wf content,
      fun a hlt => ?_⟩
    rw [memRead, Memory.read_ofBytesFrom, if_pos (Nat.zero_le a), Nat.sub_zero,
      List.getD_eq_getElem _ _ hlt, List.getElem?_eq_getElem hlt]
  · rw [if_neg (by simp [hb, ha]), if_neg (by omega)]

end Sys2Proof.Machine
end

section
/-! SUPPORT. The Bit Cursor past its checks (spec/40_bit_cursor.md §3 to §5): which bits a read takes, how far each
command moves, and the statements about the reads, BC.ALIGN and the position law. -/

namespace Sys2Proof.Machine

/-! ### The bits of a read -/

/-- A Bit Cursor read of at most 64 bits that end inside the window, at a state that meets the invariants. -/
theorem bcRead_readsBits {s : State} (hs : s.Inv) (hv : s.status.bcValid = true) {n limit consumed : Nat}
    (hn : n ≤ limit) (h64 : n ≤ 64) (hfit : s.bc.pos.toNat + n ≤ bcBits s) (hc : consumed ≤ n)
    (o : Order) : ReadsBits o n consumed s (bcRead o n limit consumed s) := by
  have hwindow : bcWindowInBuf s = true := decide_eq_true (hs.bc_window hv)
  have hbit (j : Nat) (hj : j < 64) : (zext64 (gather s s.bc.pos.toNat n o)).getLsbD j =
      (gather s s.bc.pos.toNat n o).testBit j := by
    rw [zext64, BitVec.getLsbD_ofNat, decide_eq_true hj, Bool.true_and]
  refine ⟨_, (bcRead_of_fits hv hn hfit o consumed).trans (if_pos hwindow), fun j hj => ?_,
    fun j hj => ?_, advanceCursor_pos_toNat hs hv (by omega), rfl⟩
  · have hland := gather_testBit s s.bc.pos.toNat o hj
    rw [succeedWith_res0]
    cases o <;> exact (hbit _ (by dsimp only; omega)).trans hland
  · have hlt : gather s s.bc.pos.toNat n o < 2 ^ j :=
      (gather_lt s _ n o).trans_le (Nat.pow_le_pow_right (by decide) hj)
    rw [succeedWith_res0, zext64, BitVec.getLsbD_ofNat, Nat.testBit_lt_two_pow hlt, Bool.and_false]

/-- Settles O25: each of the five is one Bit Cursor read with its own count, limit and bits consumed. -/
theorem bitReadsTakeTheirBitsInOrder : Obligations.BitReadsTakeTheirBitsInOrder := by
  intro s o hs hv
  exact ⟨fun hfit => bcRead_readsBits hs hv (by decide) (by decide) hfit (Nat.le_refl 1) o,
    fun n hn hfit => bcRead_readsBits hs hv hn (by omega) hfit (Nat.le_refl n) o,
    fun n hn hfit => bcRead_readsBits hs hv hn hn hfit (Nat.le_refl n) o,
    fun hfit => bcRead_readsBits hs hv (by decide) (by decide) hfit (Nat.le_refl 8) o,
    fun n hn hfit => bcRead_readsBits hs hv hn (by omega) hfit (Nat.zero_le n) o⟩

/-! ### BC.ALIGN -/

/-- The position BC.ALIGN moves to (R110). -/
def alignedPos (s : State) : Word := (s.bc.pos + 7#64) &&& ~~~7#64

theorem exec_bcAlign_of_valid {s : State} (hv : s.status.bcValid = true) :
    exec .bcAlign s = .next (succeed { s with bc := { s.bc with pos := alignedPos s } }) :=
  if_neg (by simp [hv])

/-- BC_POS rounded up to a multiple of 8: the bound on BUF_LEN keeps the sum from wrapping. -/
theorem alignedPos_toNat {s : State} (hs : s.Inv) (hv : s.status.bcValid = true) :
    (alignedPos s).toNat = (s.bc.pos.toNat + 7) / 8 * 8 := by
  have hlen : s.bufLen < 2 ^ 61 := hs.bufLen_lt
  have hwindow := hs.bc_window hv
  have hpos := hs.bc_pos hv
  unfold bcBits at hpos
  exact roundUp8_toNat _ (by omega)

/-- Settles O28: rounding up to a multiple of 8 does not leave a window that ends at one. -/
theorem alignRoundsUpToAByte : Obligations.AlignRoundsUpToAByte := by
  refine ⟨rfl, fun s hs => ⟨fun hv => ?_, exec_of_cursor_unset rfl⟩⟩
  have hpos := hs.bc_pos hv
  refine ⟨_, exec_bcAlign_of_valid hv, ?_⟩
  simp only [succeed_leaves, alignedPos_toNat hs hv]
  unfold bcBits at *
  exact ⟨by omega, by omega, by omega, by omega, rfl⟩

/-! ### How far each command moves -/

/-- From `s` to `t` BC_POS moves by `n` bits inside a valid window, which stays. -/
structure MovesBy (n : Nat) (s t : State) : Prop where
  valid : s.status.bcValid = true
  fits  : s.bc.pos.toNat + n ≤ bcBits s
  pos   : t.bc.pos.toNat = s.bc.pos.toNat + n
  base  : t.bc.base = s.bc.base
  len   : t.bc.len = s.bc.len

theorem bcRead_movesBy {s t : State} (hs : s.Inv) {o : Order} {n limit consumed : Nat}
    (hc : consumed ≤ n) (h : bcRead o n limit consumed s = .next t) (hok : t.status.err = .ok) :
    MovesBy consumed s t := by
  rcases bcRead_cases o n limit consumed s with ⟨-, g⟩ | ⟨-, -, g⟩ | ⟨-, -, -, g⟩ |
    ⟨hv, -, hfit, ⟨-, g⟩ | ⟨-, g⟩⟩ <;> rw [g] at h <;> cases h
  · cases hok
  · cases hok
  · cases hok
  · have hfit' : s.bc.pos.toNat + consumed ≤ bcBits s := by omega
    exact ⟨hv, hfit', advanceCursor_pos_toNat hs hv hfit', rfl, rfl⟩

/-- VI.DEC moves past the bytes it counts in RES1. -/
theorem exec_viDec_movesBy {s t : State} (hs : s.Inv) (hv : s.status.bcValid = true)
    (h : exec .viDec s = .next t) (hok : t.status.err = .ok) : MovesBy (8 * t.res1.toNat) s t := by
  rw [exec_viDec_of_valid hs hv, lebDecode] at h
  rcases lebLoop_cases s Config.leb128MaxBytes 0 s.bc.pos.toNat 0 with
    ⟨k, hk, -, -, hfit, -, hdone⟩ | ⟨k, -, -, -, -, heof⟩ | ⟨-, -, htooLong⟩
  · rw [hdone, Nat.zero_add] at h
    have ht := Host.Outcome.next.inj h
    have hcount : (zext64 (0 + k + 1)).toNat = k + 1 := by
      have hk8 : k < 8 := hk
      rw [Nat.zero_add, toNat_zext64 (by omega)]
    have hres1 : t.res1.toNat = k + 1 := (congrArg (·.res1.toNat) ht).symm.trans hcount
    rw [hres1, ← ht]
    exact ⟨hv, hfit, toNat_zext64 (hfit.trans_lt (hs.bcBits_lt hv)), rfl, rfl⟩
  · rw [heof] at h
    cases h
    cases hok
  · rw [htooLong] at h
    cases h
    cases hok

/-- A command that succeeds past its BC_VALID check found the window valid. -/
theorem bcValid_of_succeeds {i : Instr} {s t : State} (hi : i.needsCursor = true)
    (h : exec i s = .next t) (hok : t.status.err = .ok) : s.status.bcValid = true := by
  by_contra hv
  rw [exec_of_cursor_unset hi (Bool.eq_false_of_not_eq_true hv)] at h
  cases h
  cases hok

/-- A successful command of the cursor other than BC.INIT moves BC_POS by the bits it consumes (R116). -/
theorem exec_movesBy {i : Instr} {s t : State} (hs : s.Inv) (hi : i.needsCursor = true)
    (h : exec i s = .next t) (hok : t.status.err = .ok) : MovesBy (i.bitsConsumed s t) s t := by
  have hv := bcValid_of_succeeds hi h hok
  have hpos := hs.bc_pos hv
  cases i with
  | bcRdbit | bcRdbits | bcRdbits64 | bcRdbyte => exact bcRead_movesBy hs (Nat.le_refl _) h hok
  | bcPeek o n => exact bcRead_movesBy hs (Nat.zero_le n) h hok
  | bcSkip =>
    by_cases hfit : s.bc.pos.toNat + s.arg0.toNat ≤ bcBits s
    · cases (exec_bcSkip_of_fits hv hfit).symm.trans h
      exact ⟨hv, hfit, advanceCursor_pos_toNat hs hv hfit, rfl, rfl⟩
    · cases (exec_bcSkip_of_past_end hv (Nat.lt_of_not_le hfit)).symm.trans h
      cases hok
  | bcAlign =>
    cases (exec_bcAlign_of_valid hv).symm.trans h
    have haligned : (alignedPos s).toNat = s.bc.pos.toNat + (8 - s.bc.pos.toNat % 8) % 8 := by
      rw [alignedPos_toNat hs hv]
      omega
    refine ⟨hv, ?_, haligned, rfl, rfl⟩
    simp only [Instr.bitsConsumed]
    unfold bcBits at *
    omega
  | bcPos =>
    cases (exec_bcPos_of_valid hv).symm.trans h
    exact ⟨hv, hpos, rfl, rfl, rfl⟩
  | bcRem =>
    cases (exec_bcRem_of_valid hv).symm.trans h
    exact ⟨hv, hpos, rfl, rfl, rfl⟩
  | viDec => exact exec_viDec_movesBy hs hv h hok
  | bcInit | adInit | adPos | srCtxrst | srPart | srSkip | srIntra | srInter | srMv | srDq => cases hi

/-- A successful BC.INIT sets a window inside BUF, at its start. -/
theorem exec_bcInit_succeeds {s t : State} (h : exec .bcInit s = .next t) (hok : t.status.err = .ok) :
    s.arg0.toNat + s.arg1.toNat ≤ s.bufLen ∧ t.bc = ⟨s.arg0, s.arg1, 0#64⟩ := by
  by_cases hfit : s.arg0.toNat + s.arg1.toNat ≤ s.bufLen
  · cases (exec_bcInit_of_fits hfit).symm.trans h
    exact ⟨hfit, rfl⟩
  · cases (exec_bcInit_of_past_bufLen (Nat.lt_of_not_le hfit)).symm.trans h
    cases hok

/-- A command of another unit consumes no bits of the window. -/
theorem bitsConsumed_of_not_cursor {i : Instr} (hi : i.ofCursor = false) (s t : State) :
    i.bitsConsumed s t = 0 := by
  cases i with
  | adInit | adPos | srCtxrst | srPart | srSkip | srIntra | srInter | srMv | srDq => rfl
  | bcInit | bcRdbit | bcRdbits | bcRdbits64 | bcRdbyte | bcSkip | bcAlign | bcPeek | bcPos | bcRem
  | viDec => cases hi

/-- Settles O31: the commands of the cursor move it by what they consume, the others leave it, and a failure is one
`raise`. -/
theorem cursorMovesByTheBitsConsumed : Obligations.CursorMovesByTheBitsConsumed := by
  intro i s t hs h
  refine ⟨fun hok hne => ?_, fun hok hi => ?_, fun hfail => ?_⟩
  · rcases cursor_cases i with hi | hi | hi
    · have hmoves := exec_movesBy hs hi h hok
      exact ⟨hmoves.pos, hmoves.base, hmoves.len⟩
    · exact absurd hi hne
    · rw [(exec_leaves_cursor hi h).1, bitsConsumed_of_not_cursor hi]
      exact ⟨rfl, rfl, rfl⟩
  · subst hi
    rw [(exec_bcInit_succeeds h hok).2]
  · rw [failureChangesOnlyStatusAndErroff i s t h hfail]

end Sys2Proof.Machine
end

section
/-! SUPPORT. The round trip of VI.DEC (spec/41_varint.md): the bytes of the reference encoding, and the statement
about them. -/

namespace Sys2Proof.Machine

/-! ### The reference encoding -/

theorem encodeUleb128_length (fuel v : Nat) : (encodeUleb128 fuel v).length = leb128Size fuel v := by
  induction fuel generalizing v with
  | zero => rfl
  | succ fuel ih =>
    rw [encodeUleb128, leb128Size]
    split
    · rfl
    · rw [List.length_cons, ih, Nat.add_comm]

theorem leb128Size_le (fuel v : Nat) : leb128Size fuel v ≤ fuel := by
  induction fuel generalizing v with
  | zero => exact Nat.le_refl 0
  | succ fuel ih =>
    have hrest := ih (v >>> 7)
    rw [leb128Size]
    split <;> omega

theorem leb128Size_pos {fuel : Nat} (h : 0 < fuel) (v : Nat) : 0 < leb128Size fuel v := by
  cases fuel with
  | zero => cases h
  | succ fuel =>
    rw [leb128Size]
    split <;> omega

/-- Byte `j` of the reference encoding, as a number. -/
def ulebByte (fuel v j : Nat) : Nat := ((encodeUleb128 fuel v).getD j 0#8).toNat

/-- A value below 2^7 is one byte. -/
theorem ulebByte_of_lt (fuel : Nat) {v : Nat} (h : v < 2 ^ 7) : ulebByte (fuel + 1) v 0 = v := by
  rw [ulebByte, encodeUleb128, if_pos h, List.getD_cons_zero, BitVec.toNat_ofNat]
  omega

/-- The first byte of a longer value is its lowest group with the continuation bit. -/
theorem ulebByte_zero (fuel : Nat) {v : Nat} (h : 2 ^ 7 ≤ v) :
    ulebByte (fuel + 1) v 0 = v % 2 ^ 7 + 0x80 := by
  rw [ulebByte, encodeUleb128, if_neg (by omega), List.getD_cons_zero, BitVec.toNat_ofNat]
  omega

/-- The later bytes of a longer value encode its higher groups. -/
theorem ulebByte_succ (fuel j : Nat) {v : Nat} (h : 2 ^ 7 ≤ v) :
    ulebByte (fuel + 1) v (j + 1) = ulebByte fuel (v >>> 7) j := by
  rw [ulebByte, encodeUleb128, if_neg (by omega), List.getD_cons_succ, ulebByte]

theorem leb128Size_of_lt (fuel : Nat) {v : Nat} (h : v < 2 ^ 7) : leb128Size (fuel + 1) v = 1 := by
  rw [leb128Size, if_pos h]

theorem leb128Size_of_le (fuel : Nat) {v : Nat} (h : 2 ^ 7 ≤ v) :
    leb128Size (fuel + 1) v = leb128Size fuel (v >>> 7) + 1 := by
  rw [leb128Size, if_neg (by omega), Nat.add_comm]

/-- A value of `fuel + 1` groups without its lowest has `fuel`. -/
theorem shiftRight_lt_of_lt {fuel v : Nat} (hv : v < 2 ^ (7 * (fuel + 1))) : v >>> 7 < 2 ^ (7 * fuel) := by
  rw [Nat.shiftRight_eq_div_pow]
  exact Nat.div_lt_of_lt_mul (by rwa [← Nat.pow_add, Nat.add_comm])

/-- Every byte but the last continues. -/
theorem ulebByte_continues (fuel v : Nat) {j : Nat} (hj : j + 1 < leb128Size fuel v) :
    0x80 ≤ ulebByte fuel v j := by
  induction fuel generalizing v j with
  | zero => cases hj
  | succ fuel ih =>
    by_cases h : v < 2 ^ 7
    · rw [leb128Size_of_lt fuel h] at hj
      omega
    · rw [leb128Size_of_le fuel (Nat.le_of_not_lt h)] at hj
      cases j with
      | zero =>
        rw [ulebByte_zero fuel (Nat.le_of_not_lt h)]
        omega
      | succ j =>
        rw [ulebByte_succ fuel j (Nat.le_of_not_lt h)]
        exact ih _ (by omega)

/-- The last byte terminates, when there are bytes enough for the value. -/
theorem ulebByte_terminates {fuel v : Nat} (hf : 0 < fuel) (hv : v < 2 ^ (7 * fuel)) :
    ulebByte fuel v (leb128Size fuel v - 1) < 0x80 := by
  induction fuel generalizing v with
  | zero => cases hf
  | succ fuel ih =>
    by_cases h : v < 2 ^ 7
    · rw [leb128Size_of_lt fuel h, ulebByte_of_lt fuel h]
      exact h
    · have h7 := Nat.le_of_not_lt h
      have hfuel : 0 < fuel := by
        by_contra h0
        obtain rfl : fuel = 0 := by omega
        exact h hv
      have hpos := leb128Size_pos hfuel (v >>> 7)
      rw [leb128Size_of_le fuel h7, Nat.add_sub_cancel,
        show leb128Size fuel (v >>> 7) = leb128Size fuel (v >>> 7) - 1 + 1 by omega,
        ulebByte_succ fuel _ h7]
      exact ih hfuel (shiftRight_lt_of_lt hv)

/-- The groups of the bytes add up to the value. -/
theorem ulebByte_sum {fuel v : Nat} (hv : v < 2 ^ (7 * fuel)) :
    ((List.range (leb128Size fuel v)).map fun j =>
      (ulebByte fuel v j % 0x80) <<< (7 * j)).sum = v := by
  induction fuel generalizing v with
  | zero =>
    have h0 : v = 0 := by omega
    simp [leb128Size, h0]
  | succ fuel ih =>
    by_cases h : v < 2 ^ 7
    · rw [leb128Size_of_lt fuel h]
      simp [ulebByte_of_lt fuel h]
      omega
    · have h7 := Nat.le_of_not_lt h
      have hshift (j : Nat) : (ulebByte fuel (v >>> 7) j % 0x80) <<< (7 * (j + 1)) =
          2 ^ 7 * ((ulebByte fuel (v >>> 7) j % 0x80) <<< (7 * j)) := by
        rw [Nat.shiftLeft_eq, Nat.shiftLeft_eq, Nat.mul_succ, Nat.pow_add]
        ring
      rw [leb128Size_of_le fuel h7, List.range_succ_eq_map, List.map_cons, List.map_map, List.sum_cons]
      simp only [Function.comp_def, Nat.succ_eq_add_one, ulebByte_succ fuel _ h7,
        ulebByte_zero fuel h7, hshift]
      rw [List.sum_map_mul_left, ih (shiftRight_lt_of_lt hv)]
      simp only [Nat.shiftRight_eq_div_pow, Nat.mul_zero, Nat.shiftLeft_zero]
      omega

/-! ### The statement -/

/-- Settles O33: the bytes of the reference encoding continue up to the last one, which terminates, and their groups
are the value's. -/
theorem varintRoundTrip : Obligations.VarintRoundTrip := by
  intro s v hs hv hlt hfit hbytes
  have hpos := leb128Size_pos (by decide : 0 < 8) v
  have hle := leb128Size_le 8 v
  have hbyte (j : Nat) (hj : j < leb128Size 8 v) : lebByte s j = ulebByte 8 v j := hbytes j hj
  obtain ⟨k, hk⟩ : ∃ k, leb128Size 8 v = k + 1 := ⟨leb128Size 8 v - 1, by omega⟩
  have hsum := ulebByte_sum (fuel := 8) hlt
  have hterm := ulebByte_terminates (by decide : 0 < 8) hlt
  have hlen := encodeUleb128_length 8 v
  rw [hk] at hle hfit hbyte hsum hterm hlen ⊢
  obtain ⟨t, hexec, hres0, hres1, hpos', hframe⟩ := (varintFollowsItsBytes.2 s hs).1 hv k (by omega) hfit
    (fun j hj => by
      rw [hbyte j (by omega)]
      exact ulebByte_continues 8 v (by omega))
    (by rwa [hbyte k (by omega)])
  refine ⟨t, hexec, by rw [hframe], ?_, hres1, hlen, hpos'⟩
  rw [hres0, ← hsum]
  refine congrArg List.sum (List.map_congr_left fun j hj => ?_)
  rw [hbyte j (List.mem_range.mp hj)]

end Sys2Proof.Machine
end

section
/-! SUPPORT. The procedures of the Arithmetic Decoder against the spec's formulas (spec/42_arith_decoder.md §2 to
§5): the tile's bits, AD.INIT, one DecodeSymbol, Renormalise and Adapt. -/

namespace Sys2Proof.Machine

/-! ### Tile bits -/

/-- TileBit (R166): the bit of its byte inside the tile, 0 at and past the end. -/
theorem tileBit_eq (s : State) (q : Nat) :
    tileBit s q = (decide (q < 8 * s.ad.size.toNat) &&
      (memRead s (s.ad.base.toNat + q / 8)).getLsbD (7 - q % 8)) := by
  unfold tileBit
  split
  · next h => rw [decide_eq_true h, Bool.true_and, bitOfByte]
  · next h => rw [decide_eq_false h, Bool.false_and]

/-- Bit `j` of a fetch, in reading order. -/
theorem fetchValue_testBit (s : State) {n j : Nat} (hj : j < n) :
    (fetchValue s n).testBit (n - 1 - j) = tileBit s (s.ad.bitpos + j) :=
  assembleMsb_testBit _ _ hj

/-- Settles O36: a fetch is put together from tile bits, the first the most significant. -/
theorem fetchTakesTheNextTileBits : Obligations.FetchTakesTheNextTileBits := fun s n =>
  ⟨fetchValue_lt s n, fun _ hj => (fetchValue_testBit s hj).trans (tileBit_eq s _), rfl⟩

/-! ### AD.INIT -/

/-- An exclusive-or with ones is the complement, bit by bit, and holds nothing above them. -/
theorem ones_xor_testBit {n f : Nat} (hf : f < 2 ^ n) (i : Nat) :
    ((2 ^ n - 1) ^^^ f).testBit i = (decide (i < n) && !f.testBit i) := by
  rw [Nat.testBit_xor, Nat.testBit_two_pow_sub_one]
  by_cases hi : i < n
  · simp [hi]
  · have hhigh : f.testBit i = false :=
      Nat.testBit_lt_two_pow (hf.trans_le (Nat.pow_le_pow_right (by decide) (Nat.le_of_not_lt hi)))
    simp [hi, hhigh]

/-- V after AD.INIT: the complement of the first 15 bits of the tile. -/
theorem startDecoder_value_getLsbD (s : State) (base size : Word) {i : Nat} (hi : i < 16) :
    (startDecoder (placeTile base size s)).ad.value.getLsbD i =
      (decide (i < 15) && !(fetchValue (placeTile base size s) 15).testBit i) := by
  have hvalue : (startDecoder (placeTile base size s)).ad.value =
      BitVec.ofNat 16 ((2 ^ 15 - 1) ^^^ fetchValue (placeTile base size s) 15) := rfl
  rw [hvalue, BitVec.getLsbD_ofNat, decide_eq_true hi, Bool.true_and, ones_xor_testBit (fetchValue_lt _ _)]

/-- Settles O34, on the two sides of WindowCheck: the new decoder's V is the complement of the first fetch, and the
CDF RAM is what K says. -/
theorem adInitStartsTheDecoder : Obligations.AdInitStartsTheDecoder := by
  refine ⟨rfl, rfl, fun s k => ⟨fun hfit => ?_, exec_adInit_of_past_bufLen k⟩⟩
  refine ⟨_, exec_adInit_of_fits k hfit, ?_⟩
  rw [adInit_steps_leave]
  refine ⟨rfl, rfl, rfl, rfl, fun j hj => ?_, ?_, ?_, ?_, rfl⟩
  · refine (startDecoder_value_getLsbD s _ _ (by omega)).trans ?_
    rw [decide_eq_true (by omega), Bool.true_and, fetchValue_testBit _ hj, tileBit_eq]
    show (!(decide (0 + j < _) && BitVec.getLsbD (memRead s (_ + (0 + j) / 8)) (7 - (0 + j) % 8))) = _
    rw [Nat.zero_add]
    rfl
  · exact startDecoder_value_getLsbD s _ _ (by decide)
  · rintro rfl id
    simp
  · rintro rfl
    rfl

/-! ### One DecodeSymbol -/

/-- The bucket that V selects from a legal table: the first bound that V reaches, and the bound before it (R167). -/
theorem selectBucket_spec {s : State} {t : Table} {n : Nat} (hw : t.wf n = true) (h2 : 2 ≤ n)
    (h16 : n ≤ 16) (hr : 2 ^ 15 ≤ s.ad.range.toNat) :
    let bound := fun k => bucketBound s.ad.range.toNat n k (t.cdf.getD k 0#16)
    let b := selectBucket s t.cdf
    b.sym < n ∧ b.cur = bound b.sym ∧ b.cur ≤ s.ad.value.toNat ∧
    (∀ k, k < b.sym → s.ad.value.toNat < bound k) ∧
    b.prev = if b.sym = 0 then s.ad.range.toNat else bound (b.sym - 1) := by
  intro bound b
  obtain ⟨hlen, hn, -⟩ := Table.wf_iff.mp hw
  have hlast := (bucketBound_narrows hw h2 h16 hr).2
  have hreached : ∃ k, k < t.cdf.length ∧
      bucketBound s.ad.range.toNat n (0 + k) (t.cdf.getD k 0#16) ≤ s.ad.value.toNat :=
    ⟨n - 1, by omega, by rw [Nat.zero_add, hlast]; exact Nat.zero_le _⟩
  obtain ⟨k, hk, hsym, hcur, hle, habove, hprev⟩ :=
    findBucket_spec _ _ _ _ _ s.ad.range.toNat hreached
  simp only [Nat.zero_add] at hsym hcur habove hprev
  have hb : b = findBucket s.ad.range.toNat s.ad.value.toNat n 0 s.ad.range.toNat t.cdf := by
    rw [← hlen]
    rfl
  rw [hb, hsym]
  exact ⟨hlen ▸ hk, hcur, hle, habove, hprev⟩

/-- Settles O37: the search's bounds are R167's formula, and Renormalise starts from the bucket's width and V's
offset. -/
theorem symbolOwnsTheBucketOfV : Obligations.SymbolOwnsTheBucketOfV := by
  intro s t n hw h2 h16 hr hv r v cur d
  have hbound (k : Nat) : bucketBound s.ad.range.toNat n k (t.cdf.getD k 0#16) = cur k :=
    bucketBound_eq _ _ _ _
  have hspec := selectBucket_spec hw h2 h16 hr
  simp only [hbound] at hspec
  obtain ⟨hsym, hcur, hle, habove, hprev⟩ := hspec
  refine ⟨hsym, hcur.symm.trans_le hle, habove, ?_⟩
  show renormalise ((selectBucket s t.cdf).prev - (selectBucket s t.cdf).cur)
    (v - (selectBucket s t.cdf).cur) s = _
  rw [hprev, hcur]
  rfl

/-- Settles O38: the shift count is Renormalise's own, and V takes the fetched bits by subtraction. -/
theorem renormaliseRestoresTheRange : Obligations.RenormaliseRestoresTheRange := by
  intro s r v h0 h hv
  obtain ⟨hd, hlow, hhigh⟩ := renormShift_spec h0 h
  exact ⟨renormShift r, hd, hlow, hhigh, renormalise_range_toNat h0 h v s,
    renormalise_value_toNat h hv s, rfl, rfl⟩

/-- A bucket is at least 4 wide, so Renormalise fetches at most 13 bits (R171). -/
theorem decodeSymbol_bitpos {s : State} {t : Table} {n : Nat} (hw : t.wf n = true) (h2 : 2 ≤ n)
    (h16 : n ≤ 16) (hr : 2 ^ 15 ≤ s.ad.range.toNat) (hv : s.ad.value.toNat < s.ad.range.toNat) :
    s.ad.bitpos ≤ (decodeSymbol t.cdf s).state.ad.bitpos ∧
    (decodeSymbol t.cdf s).state.ad.bitpos ≤ s.ad.bitpos + 13 := by
  obtain ⟨-, -, -, hwide, -⟩ := selectBucket_bounds hw h2 h16 hr hv
  have hlog : 2 ≤ Nat.log2 ((selectBucket s t.cdf).prev - (selectBucket s t.cdf).cur) :=
    (Nat.le_log2 (by omega)).mpr (by omega)
  have hpos : (decodeSymbol t.cdf s).state.ad.bitpos = s.ad.bitpos +
      (15 - Nat.log2 ((selectBucket s t.cdf).prev - (selectBucket s t.cdf).cur)) := rfl
  omega

/-- Settles O39, by the width of V's bucket and the bounds that Renormalise restores. -/
theorem symbolStepKeepsTheDecoderBounds : Obligations.SymbolStepKeepsTheDecoderBounds := by
  intro s t n hw h2 h16 hr hv d
  obtain ⟨hsym, hrange, hvalue⟩ := decodeSymbol_bounds hw h2 h16 hr hv
  exact ⟨hsym, hrange, hvalue, decodeSymbol_bitpos hw h2 h16 hr hv⟩

/-! ### Adapt -/

/-- An entry of an adapted table. -/
theorem Table.adapt_getD {t : Table} {n : Nat} (hlen : t.cdf.length = n) (sym : Nat) {k : Nat}
    (hk : k < n) :
    (t.adapt sym).cdf.getD k 0#16 =
      if k + 1 < n then adaptEntry (adaptRate n t.cnt.toNat) sym k (t.cdf.getD k 0#16)
      else t.cdf.getD k 0#16 := by
  subst hlen
  rw [Table.adapt, adaptEntries_getD _ _ _ _ _ hk, Nat.zero_add]

/-- Settles O40: each entry below the last moves by its rate without wrapping, and the last one stays 32768. -/
theorem adaptMovesEveryEntry : Obligations.AdaptMovesEveryEntry := by
  intro t n sym hw h2 h16 hsym rate u
  obtain ⟨hlen, -, hcnt, hlast, hrise⟩ := Table.wf_iff.mp hw
  have hrate : adaptRate n t.cnt.toNat = rate := adaptRate_eq h2
  refine ⟨by rw [← hlen]; exact adaptEntries_length _ _ _ _, fun i hi => ?_, ?_, t.adapt_cnt sym hcnt⟩
  · rw [Table.adapt_getD hlen sym (by omega), if_pos hi, hrate]
    exact adaptEntry_toNat _ _ _ _ (hrise i hi).2.1
  · rw [Table.adapt_getD hlen sym (by omega), if_neg (by omega), hlast]

/-- Settles O41: no entry reaches 0 or 32768, and two neighbours keep their order on either side of the symbol. -/
theorem adaptKeepsTheTableInvariant : Obligations.AdaptKeepsTheTableInvariant :=
  fun _ _ sym hw _ _ => Table.adapt_wf hw sym

end Sys2Proof.Machine
end

section
/-! SUPPORT. The Symbol Router (spec/43_symbol_router.md): the decoding part of every typed read under one name,
what it keeps, how far it moves and which tables it changes, and the statements about SR.PART, SR.DQ and all typed
reads. -/

namespace Sys2Proof.Machine

/-! ### The decoding part of a typed read -/

/-- The decoding part of a typed read from `s` (R205), past its checks; any other command reads nothing. -/
def reading (s : State) : Instr → Reading
  | .srPart bsl true true => readSymbol (partTable bsl) s
  | .srPart bsl false true => readEdge (partTable bsl) .horz s
  | .srPart bsl true false => readEdge (partTable bsl) .vert s
  | .srPart _ false false => ⟨zext64 3, s⟩
  | .srSkip => readSymbol .skip s
  | .srIntra => readSymbol .intra s
  | .srInter => readSymbol .inter s
  | .srMv => readMv s
  | .srDq => readDq s
  | _ => ⟨0#64, s⟩

/-- The state after a typed read that passed its checks. -/
def afterReading (s : State) (i : Instr) : State :=
  succeedWith (reading s i).value (reading s i).state

theorem reading_decodesTo (s : State) (i : Instr) : DecodesTo s (reading s i).state := by
  cases i with
  | srPart bsl hr hc =>
    match hr, hc with
    | true, true => exact readSymbol_decodesTo _ s
    | false, true => exact readEdge_decodesTo _ _ s
    | true, false => exact readEdge_decodesTo _ _ s
    | false, false => exact .refl s
  | srSkip => exact readSymbol_decodesTo .skip s
  | srIntra => exact readSymbol_decodesTo .intra s
  | srInter => exact readSymbol_decodesTo .inter s
  | srMv => exact readMv_decodesTo s
  | srDq => exact readDq_decodesTo s
  | bcInit | bcRdbit | bcRdbits | bcRdbits64 | bcRdbyte | bcSkip | bcAlign | bcPeek | bcPos | bcRem
  | viDec | adInit | adPos | srCtxrst => exact .refl s

/-- A typed read leaves the tile where it is. -/
theorem afterReading_tile (s : State) (i : Instr) :
    (afterReading s i).ad.base = s.ad.base ∧ (afterReading s i).ad.size = s.ad.size := by
  unfold afterReading
  rw [reading_decodesTo s i]
  exact ⟨rfl, rfl⟩

/-- SR.PART past its two checks is one of its four decoding parts. -/
theorem exec_srPart_past_checks {s : State} (hv : s.status.adValid = true)
    (htile : s.ad.base.toNat + s.ad.size.toNat ≤ s.bufLen) {bsl : Nat} (hbsl : 3 ≤ bsl) (hr hc : Bool) :
    exec (.srPart bsl hr hc) s = .next (afterReading s (.srPart bsl hr hc)) := by
  have hin : tileInBuf s = true := decide_eq_true htile
  simp only [exec, execSrPart]
  rw [if_neg (by simp [hv]), if_neg (by omega)]
  match hr, hc with
  | true, true | false, true | true, false => exact if_pos hin
  | false, false => rfl

/-- A typed read whose checks pass, on a tile inside BUF. -/
theorem exec_typedRead_past_checks {i : Instr} (hi : i.typedRead = true) {s : State}
    (hv : s.status.adValid = true) (htile : s.ad.base.toNat + s.ad.size.toNat ≤ s.bufLen)
    (hbsl : ∀ bsl hr hc, i = .srPart bsl hr hc → 3 ≤ bsl) :
    exec i s = .next (afterReading s i) := by
  have hin : tileInBuf s = true := decide_eq_true htile
  cases i with
  | srPart bsl hr hc => exact exec_srPart_past_checks hv htile (hbsl bsl hr hc rfl) hr hc
  | srSkip | srIntra | srInter | srMv | srDq => exact (typedRead_of_valid hv _).trans (if_pos hin)
  | bcInit | bcRdbit | bcRdbits | bcRdbits64 | bcRdbyte | bcSkip | bcAlign | bcPeek | bcPos | bcRem
  | viDec | adInit | adPos | srCtxrst => cases hi

/-- A typed read that succeeds has passed its checks. -/
theorem exec_typedRead_succeeds {i : Instr} (hi : i.typedRead = true) {s t : State}
    (h : exec i s = .next t) (hok : t.status.err = .ok) :
    s.status.adValid = true ∧ t = afterReading s i := by
  have into {f : State → Reading} (h : decodeInto f s = .next t) :
      t = succeedWith (f s).value (f s).state := by
    rcases decodeInto_cases f s with ⟨-, g⟩ | ⟨-, g⟩ <;> rw [g] at h <;> cases h
    rfl
  have hv : s.status.adValid = true := by
    by_contra hv
    have hneeds : i.needsDecoder = true := by rw [Instr.needsDecoder, hi, Bool.or_true]
    cases (exec_of_decoder_unset hneeds (Bool.eq_false_of_not_eq_true hv)).symm.trans h
    cases hok
  refine ⟨hv, ?_⟩
  cases i with
  | srPart bsl hr hc =>
    have hread := next_past_check (by decide) (next_past_check (by decide) h hok) hok
    match hr, hc with
    | true, true | false, true | true, false => exact into hread
    | false, false =>
      cases hread
      rfl
  | srSkip | srIntra | srInter | srMv | srDq => exact into (next_past_check (by decide) h hok)
  | bcInit | bcRdbit | bcRdbits | bcRdbits64 | bcRdbyte | bcSkip | bcAlign | bcPeek | bcPos | bcRem
  | viDec | adInit | adPos | srCtxrst => cases hi

/-! ### What the decoding keeps and how far it moves -/

/-- From a ready decoder `s`, at most `n` symbols lead to the ready decoder `t`, each over at most 13 tile bits
(spec/42_arith_decoder.md R171). -/
structure DecodesWithin (n : Nat) (s t : State) : Prop where
  ready : DecoderReady t
  ge    : s.ad.bitpos ≤ t.ad.bitpos
  le    : t.ad.bitpos ≤ s.ad.bitpos + 13 * n

theorem DecodesWithin.refl {s : State} (hs : DecoderReady s) : DecodesWithin 0 s s :=
  ⟨hs, Nat.le_refl _, Nat.le_refl _⟩

theorem DecodesWithin.trans {m n : Nat} {s t u : State} (h : DecodesWithin m s t)
    (g : DecodesWithin n t u) : DecodesWithin (m + n) s u := by
  have hge := h.ge
  have hle := h.le
  exact ⟨g.ready, hge.trans g.ge, by have := g.le; omega⟩

theorem DecodesWithin.mono {m n : Nat} {s t : State} (h : DecodesWithin m s t) (hmn : m ≤ n) :
    DecodesWithin n s t :=
  ⟨h.ready, h.ge, h.le.trans (by omega)⟩

theorem DecoderReady.decodeAdaptive_within {s : State} (hs : DecoderReady s) (id : TableId) :
    DecodesWithin 1 s (decodeAdaptive id s).state := by
  obtain ⟨h2, h16⟩ := id.symbols_range
  obtain ⟨hge, hle⟩ := decodeSymbol_bitpos (hs.table_wf id) h2 h16 hs.range_ge hs.value_lt
  exact ⟨(hs.decodeAdaptive_keeps id).2, hge, hle⟩

theorem DecoderReady.decodeFixedBool_within {s : State} (hs : DecoderReady s) :
    DecodesWithin 1 s (decodeFixedBool s).state := by
  have hw : (⟨Config.fixedBool, 0#6⟩ : Table).wf 2 = true := by decide
  obtain ⟨hge, hle⟩ := decodeSymbol_bitpos hw (by decide) (by decide) hs.range_ge hs.value_lt
  exact ⟨hs.decodeFixedBool_keeps.2, hge, hle⟩

theorem DecoderReady.mvBitsAfter_within {s : State} (hs : DecoderReady s) (k : Nat) :
    DecodesWithin k s (mvBitsAfter k s) := by
  induction k with
  | zero => exact .refl hs
  | succ k ih => exact ih.trans (ih.ready.decodeAdaptive_within .mvBits)

theorem DecoderReady.readSign_within {s : State} (hs : DecoderReady s) (id : TableId) (mag : Nat) :
    DecodesWithin 1 s (readSign id mag s).state := by
  unfold readSign
  split
  · exact (DecodesWithin.refl hs).mono (by decide)
  · exact hs.decodeAdaptive_within id

/-- The class and its magnitude bits: a class is at most 11, so these are at most 11 symbols. -/
theorem DecoderReady.readMvMagnitude_within {s : State} (hs : DecoderReady s) :
    DecodesWithin 11 s (readMvMagnitude s).state := by
  have hclass := hs.decodeAdaptive_within .mvClass
  have hc : (decodeAdaptive .mvClass s).sym < 12 := (hs.decodeAdaptive_keeps .mvClass).1
  rw [readMvMagnitude_eq]
  exact (hclass.trans (hclass.ready.mvBitsAfter_within _)).mono (by omega)

theorem DecoderReady.readMv_within {s : State} (hs : DecoderReady s) :
    DecodesWithin 14 s (readMv s).state := by
  have hmag := hs.readMvMagnitude_within
  have hsign := hmag.trans (hmag.ready.readSign_within .mvSign (readMvMagnitude s).sym)
  have hhp := hsign.trans hsign.ready.decodeFixedBool_within
  exact hhp.trans hhp.ready.decodeFixedBool_within

theorem DecoderReady.readDqAbs_within {s : State} (hs : DecoderReady s) :
    DecodesWithin 2 s (readDqAbs s).state := by
  have hbase := hs.decodeAdaptive_within .dqBase
  unfold readDqAbs
  dsimp only
  split
  · exact hbase.trans (hbase.ready.decodeAdaptive_within .dqDiff)
  · exact hbase.mono (by decide)

theorem DecoderReady.readDq_within {s : State} (hs : DecoderReady s) :
    DecodesWithin 3 s (readDq s).state := by
  have habs := hs.readDqAbs_within
  exact habs.trans (habs.ready.readSign_within .dqSign (readDqAbs s).sym)

/-- A typed read takes at most the symbols that R292 allows its command. -/
theorem DecoderReady.reading_within {s : State} (hs : DecoderReady s) (i : Instr) :
    DecodesWithin i.maxSymbols s (reading s i).state := by
  cases i with
  | srPart bsl hr hc =>
    match hr, hc with
    | true, true => exact hs.decodeAdaptive_within _
    | false, true | true, false => exact hs.decodeFixedBool_within
    | false, false => exact (DecodesWithin.refl hs).mono (Nat.zero_le _)
  | srSkip => exact hs.decodeAdaptive_within .skip
  | srIntra => exact hs.decodeAdaptive_within .intra
  | srInter => exact hs.decodeAdaptive_within .inter
  | srMv => exact hs.readMv_within
  | srDq => exact hs.readDq_within
  | bcInit | bcRdbit | bcRdbits | bcRdbits64 | bcRdbyte | bcSkip | bcAlign | bcPeek | bcPos | bcRem
  | viDec | adInit | adPos | srCtxrst => exact .refl hs

/-! ### Which tables the decoding changes -/

/-- No table but those listed differs between `s` and `t`. -/
def ChangesOnly (ids : List TableId) (s t : State) : Prop :=
  ∀ id, id ∉ ids → t.ram.get id = s.ram.get id

theorem ChangesOnly.of_ram_eq {s t : State} (h : t.ram = s.ram) (ids : List TableId) :
    ChangesOnly ids s t := fun _ _ => by rw [h]

theorem ChangesOnly.trans {ids : List TableId} {s t u : State} (h : ChangesOnly ids s t)
    (g : ChangesOnly ids t u) : ChangesOnly ids s u := fun id hid => (g id hid).trans (h id hid)

theorem decodeAdaptive_changesOnly {id : TableId} {ids : List TableId} (hid : id ∈ ids) (s : State) :
    ChangesOnly ids s (decodeAdaptive id s).state := by
  intro u hu
  rw [decodeAdaptive_ram, CdfRam.get_set_of_ne]
  exact ne_of_mem_of_not_mem hid hu |>.symm

theorem mvBitsAfter_changesOnly (k : Nat) (s : State) :
    ChangesOnly [.mvClass, .mvBits, .mvSign] s (mvBitsAfter k s) := by
  induction k with
  | zero => exact .of_ram_eq rfl _
  | succ k ih => exact ih.trans (decodeAdaptive_changesOnly (by decide) _)

theorem readSign_changesOnly {id : TableId} {ids : List TableId} (hid : id ∈ ids) (mag : Nat) (s : State) :
    ChangesOnly ids s (readSign id mag s).state := by
  unfold readSign
  split
  · exact .of_ram_eq rfl _
  · exact decodeAdaptive_changesOnly hid s

/-- A fixed bool adapts no table (R170). -/
theorem decodeFixedBool_ram (s : State) : (decodeFixedBool s).state.ram = s.ram :=
  decodeSymbol_ram _ s

/-- The two fractional bits of SR.MV are fixed bools. -/
theorem readMv_ram (s : State) : (readMv s).state.ram =
    (readSign .mvSign (readMvMagnitude s).sym (readMvMagnitude s).state).state.ram := by
  simp only [readMv, decodeFixedBool_ram]

theorem readMv_changesOnly (s : State) : ChangesOnly [.mvClass, .mvBits, .mvSign] s (readMv s).state := by
  have hmag : ChangesOnly [.mvClass, .mvBits, .mvSign] s (readMvMagnitude s).state := by
    rw [readMvMagnitude_eq]
    exact (decodeAdaptive_changesOnly (by decide) s).trans (mvBitsAfter_changesOnly _ _)
  exact (hmag.trans (readSign_changesOnly (by decide) _ _)).trans (.of_ram_eq (readMv_ram s) _)

theorem readDq_changesOnly (s : State) : ChangesOnly [.dqBase, .dqDiff, .dqSign] s (readDq s).state := by
  have habs : ChangesOnly [.dqBase, .dqDiff, .dqSign] s (readDqAbs s).state := by
    unfold readDqAbs
    dsimp only
    split
    · exact (decodeAdaptive_changesOnly (by decide) s).trans (decodeAdaptive_changesOnly (by decide) _)
    · exact decodeAdaptive_changesOnly (by decide) s
  exact habs.trans (readSign_changesOnly (by decide) _ _)

theorem reading_changesOnly (s : State) (i : Instr) : ChangesOnly i.tables s (reading s i).state := by
  cases i with
  | srPart bsl hr hc =>
    match hr, hc with
    | true, true => exact decodeAdaptive_changesOnly (List.mem_singleton_self _) s
    | false, true | true, false | false, false => exact .of_ram_eq rfl _
  | srSkip | srIntra | srInter => exact decodeAdaptive_changesOnly (List.mem_singleton_self _) s
  | srMv => exact readMv_changesOnly s
  | srDq => exact readDq_changesOnly s
  | bcInit | bcRdbit | bcRdbits | bcRdbits64 | bcRdbyte | bcSkip | bcAlign | bcPeek | bcPos | bcRem
  | viDec | adInit | adPos | srCtxrst => exact .of_ram_eq rfl _

/-! ### All typed reads -/

/-- Every command is a typed read, one of the three others of the decoder and the router, or one of the cursor's. -/
theorem unit_cases (i : Instr) :
    i.typedRead = true ∨ (∃ k, i = .adInit k) ∨ i = .adPos ∨ i = .srCtxrst ∨ i.ofCursor = true := by
  cases i <;> simp [Instr.typedRead, Instr.ofCursor]

/-- AD.POS changes neither the decoder nor its tables. -/
theorem exec_adPos_leaves {s t : State} (h : exec .adPos s = .next t) : t.ad = s.ad ∧ t.ram = s.ram := by
  simp only [exec, execAdPos] at h
  split at h <;> cases h <;> exact ⟨rfl, rfl⟩

/-- A successful AD.INIT has started the decoder on a tile inside BUF. -/
theorem exec_adInit_succeeds {k : CarryOver} {s t : State} (h : exec (.adInit k) s = .next t)
    (hok : t.status.err = .ok) :
    s.arg0.toNat + s.arg1.toNat ≤ s.bufLen ∧ t.ad = (startDecoder (placeTile s.arg0 s.arg1 s)).ad ∧
    t.ram = (carryOver k s).ram := by
  by_cases hfit : s.arg0.toNat + s.arg1.toNat ≤ s.bufLen
  · rw [exec_adInit_of_fits k hfit] at h
    cases h
    cases k <;> exact ⟨hfit, rfl, rfl⟩
  · cases (exec_adInit_of_past_bufLen k (Nat.lt_of_not_le hfit)).symm.trans h
    cases hok

/-- Settles O48: the checks come first, and past them the decoding stays within its frame. -/
theorem typedReadsSucceedOnceChecked : Obligations.TypedReadsSucceedOnceChecked := by
  intro s i hs hi
  refine ⟨exec_of_decoder_unset (by rw [Instr.needsDecoder, hi, Bool.or_true]), fun hv hbsl => ?_, ?_⟩
  · have hafter := (reading_decodesTo s i).afterTypedRead (reading s i).value
    exact ⟨_, exec_typedRead_past_checks hi hv (hs.tile_window hv) hbsl, hafter, congrArg (·.bc) hafter.2⟩
  · rintro hv bsl hr hc rfl hbsl
    exact exec_srPart_of_bsl_lt hv hbsl hr hc

/-- Settles O56: a typed read moves by its symbols, AD.INIT by its first fetch, and every other command leaves the
decoder. -/
theorem tilePositionGrowsBySymbols : Obligations.TilePositionGrowsBySymbols := by
  intro i s t hs h
  constructor
  · rintro ⟨k, rfl⟩ hok
    rw [(exec_adInit_succeeds h hok).2.1]
    rfl
  · intro hne
    have unmoved (had : t.ad = s.ad) :
        s.ad.bitpos ≤ t.ad.bitpos ∧ t.ad.bitpos ≤ s.ad.bitpos + 13 * i.maxSymbols := by
      rw [had]
      exact ⟨Nat.le_refl _, Nat.le_add_right _ _⟩
    by_cases hok : t.status.err = .ok
    · rcases unit_cases i with hi | ⟨k, rfl⟩ | rfl | rfl | hi
      · obtain ⟨hv, rfl⟩ := exec_typedRead_succeeds hi h hok
        have hwithin := (hs.decoderReady hv).reading_within i
        exact ⟨hwithin.ge, hwithin.le⟩
      · exact absurd rfl (hne k)
      · exact unmoved (exec_adPos_leaves h).1
      · cases h
        exact unmoved rfl
      · exact unmoved (exec_leaves_decoder hi h).1
    · exact unmoved (congrArg (·.ad) (failureChangesOnlyStatusAndErroff i s t h hok))

/-- Settles O57: a typed read adapts its own tables, the two reloads name every table, and every other command
leaves the CDF RAM. -/
theorem tablesChangeOnlyByTheirReads : Obligations.TablesChangeOnlyByTheirReads := by
  intro i s t id h hid
  by_cases hok : t.status.err = .ok
  · rcases unit_cases i with hi | ⟨k, rfl⟩ | rfl | rfl | hi
    · obtain ⟨-, rfl⟩ := exec_typedRead_succeeds hi h hok
      exact reading_changesOnly s i id hid
    · rw [(exec_adInit_succeeds h hok).2.2]
      cases k with
      | reload => exact absurd id.mem_all hid
      | keep => rfl
    · rw [(exec_adPos_leaves h).2]
    · exact absurd id.mem_all hid
    · rw [(exec_leaves_decoder hi h).2.1]
  · rw [failureChangesOnlyStatusAndErroff i s t h hok]

/-- Settles O58: DecodeAdaptive is DecodeSymbol on the table's entries, then that table's Adapt. -/
theorem decodeAdaptiveDecodesThenAdapts : Obligations.DecodeAdaptiveDecodesThenAdapts := fun _ _ =>
  ⟨rfl, rfl, CdfRam.get_set_same _ _ _, fun _ hu => CdfRam.get_set_of_ne _ _ hu, rfl⟩

/-! ### SR.PART -/

/-- The word of SR.PART (R210). -/
theorem encodeCmd_srPart {bsl : Nat} (hbsl : bsl < 8) (hr hc : Bool) :
    BitVec.ofNat 64 (0x41000000 + hc.toNat * 2 ^ 9 + hr.toNat * 2 ^ 8 + bsl) =
      encodeCmd (.srPart bsl hr hc) := by
  revert bsl hr hc
  decide

/-- Settles O44: each legal block size reads one adaptive symbol of its own table. -/
theorem partitionReads : Obligations.PartitionReads := by
  refine ⟨fun bsl hbsl hr hc => ?_, fun s bsl hr hc hs =>
    ⟨fun hv hbsl => exec_srPart_of_bsl_lt hv hbsl hr hc, fun hv => ?_, exec_of_decoder_unset rfl⟩⟩
  · rw [encodeCmd_srPart hbsl, decode_encodeCmd_srPart hbsl]
  · have hread (bsl : Nat) (hbsl : 3 ≤ bsl) :
        ReadsOneSymbol (partTable bsl) s (exec (.srPart bsl true true) s) := by
      rw [exec_srPart_past_checks hv (hs.tile_window hv) hbsl]
      exact hs.decodeInto_eq hv (readSymbol (partTable bsl)) ▸ decodeInto_readsOneSymbol hs hv _
    exact ⟨hread 3 (by decide), hread 4 (by decide), hread 5 (by decide), hread 6 (by decide),
      hread 7 (by decide)⟩

/-- One fixed bool at an edge whose own partition is number `other` (R211). -/
theorem readsEdge_of_reading {s : State} (hs : DecoderReady s) {i : Instr} {other : Nat}
    (hstate : (reading s i).state = (decodeFixedBool s).state)
    (hvalue : (reading s i).value = zext64 (if (decodeFixedBool s).sym = 1 then 3 else other)) :
    ReadsEdge other s (.next (afterReading s i)) := by
  refine ⟨_, rfl, (reading_decodesTo s i).afterTypedRead _, ?_, ?_, hs.decodeFixedBool_keeps.1,
    fun h1 => ?_, fun h0 => ?_⟩
  · exact congrArg (·.ram) hstate
  · exact congrArg (·.ad) hstate
  · exact hvalue.trans (congrArg zext64 (if_pos h1))
  · exact hvalue.trans (congrArg zext64 (if_neg (by rw [decodeFixedBool, Config.fixedBool, h0]; decide)))

/-- Settles O45: EDGE_CDF is the fixed bool's table at both edges, and with neither flag nothing is decoded. -/
theorem edgePartitionReads : Obligations.EdgePartitionReads := by
  intro s bsl hs hv h3 _
  have hready := hs.decoderReady hv
  have hexec := exec_srPart_past_checks hv (hs.tile_window hv) h3
  rw [hexec, hexec, hexec]
  exact ⟨readsEdge_of_reading hready rfl rfl, readsEdge_of_reading hready rfl rfl, rfl⟩

/-! ### SR.DQ -/

/-- The absolute value of SR.DQ and the state after it, one beside the other. -/
theorem readDqAbs_eq (s : State) :
    let b := decodeAdaptive .dqBase s
    let d := decodeAdaptive .dqDiff b.state
    readDqAbs s = ⟨if 4 ≤ b.sym then min (4 + d.sym) 63 else b.sym,
      if 4 ≤ b.sym then d.state else b.state⟩ := by
  dsimp only
  unfold readDqAbs
  dsimp only
  split <;> rfl

/-- The signed result of a magnitude that fits: between its two signs, and read back from RES0. -/
theorem toInt_signed (neg : Nat) {m : Nat} (hm : m ≤ 63) :
    (sext64 (signed neg m)).toInt = (if neg = 1 then -(m : Int) else m) ∧
    -(m : Int) ≤ (sext64 (signed neg m)).toInt ∧ (sext64 (signed neg m)).toInt ≤ m := by
  obtain ⟨hlo, hhi⟩ := signed_bounds neg m
  rw [toInt_sext64 (by omega) (by omega)]
  exact ⟨rfl, hlo, hhi⟩

/-- Settles O47: the clamp holds whatever the tables give, and a legal base of four symbols never escapes. -/
theorem dqReadFollowsItsSymbols : Obligations.DqReadFollowsItsSymbols := by
  refine ⟨rfl, fun s hv htile => ?_, fun s hv => exec_of_decoder_unset rfl hv⟩
  intro b d a u g
  have habs : readDqAbs s = ⟨a, u⟩ := readDqAbs_eq s
  have hread : reading s .srDq = ⟨sext64 (signed g.sym a), g.state⟩ := by
    show readDq s = _
    rw [readDq, habs]
    rfl
  have ha : a ≤ 63 := by
    show (if 4 ≤ b.sym then min (4 + d.sym) 63 else b.sym) ≤ 63
    split <;> omega
  obtain ⟨hres, hlo, hhi⟩ := toInt_signed g.sym ha
  have hexec := exec_typedRead_past_checks (i := .srDq) rfl hv htile (by simp)
  have hafter := (reading_decodesTo s .srDq).afterTypedRead (reading s .srDq).value
  rw [afterReading, hread] at hexec
  rw [hread] at hafter
  refine ⟨_, hexec, hafter, hres, ?_, ?_, rfl, rfl, fun hs => ?_⟩
  · exact le_trans (by omega) hlo
  · exact hhi.trans (by omega)
  · obtain ⟨hb, hbready⟩ := (hs.decoderReady hv).decodeAdaptive_keeps .dqBase
    have hb3 : b.sym ≤ 3 := Nat.le_of_lt_succ hb
    have ha3 : a ≤ 3 := (if_neg (by omega) : a = b.sym).trans_le hb3
    have hu : u = b.state := if_neg (by omega)
    have hg : g.sym ≤ 1 := by
      have hready : DecoderReady u := hu ▸ hbready
      exact (hready.readSign_keeps (id := .dqSign) rfl a).1
    exact ⟨hb3, hg, le_trans (by omega) hlo, hhi.trans (by omega)⟩

end Sys2Proof.Machine
end

section
/-! SUPPORT. The whole machine: every command completes and every step keeps the invariants (spec/10_state.md §3 to
§5, spec/60_exceptions.md §1), part by part of State.Inv. -/

namespace Sys2Proof.Machine

/-! ### The parts of the invariants -/

/-- The window of a valid Bit Cursor and its position (spec/10_state.md R29). -/
def CursorInv (s : State) : Prop :=
  s.status.bcValid = true →
    s.bc.base.toNat + s.bc.len.toNat ≤ s.bufLen ∧ s.bc.pos.toNat ≤ bcBits s

/-- The tile of a valid decoder and its V and R (spec/20_memory.md R53, spec/10_state.md R32). -/
def DecoderInv (s : State) : Prop :=
  s.status.adValid = true →
    s.ad.base.toNat + s.ad.size.toNat ≤ s.bufLen ∧ 2 ^ 15 ≤ s.ad.range.toNat ∧
    s.ad.value.toNat < s.ad.range.toNat

theorem State.Inv.cursorInv {s : State} (hs : s.Inv) : CursorInv s :=
  fun hv => ⟨hs.bc_window hv, hs.bc_pos hv⟩

theorem State.Inv.decoderInv {s : State} (hs : s.Inv) : DecoderInv s :=
  fun hv => ⟨hs.tile_window hv, hs.range_ge hv, hs.value_lt hv⟩

theorem State.Inv.of_parts {s : State} (hlen : s.bufLen < Config.bufLenLimit)
    (hbuf : s.buf.wf s.bufLen = true) (hcursor : CursorInv s) (hdecoder : DecoderInv s)
    (hram : s.ram.wf = true) (hrom : s.rom.wfDefault = true) : s.Inv :=
  ⟨hlen, hbuf, fun hv => (hcursor hv).1, fun hv => (hcursor hv).2, fun hv => (hdecoder hv).1,
    fun hv => (hdecoder hv).2.1, fun hv => (hdecoder hv).2.2, hram, hrom⟩

/-- The registers, the error record and the host side are in no invariant. -/
theorem State.Inv.of_other_fields {s : State} (hs : s.Inv) (arg0 arg1 res0 res1 erroff readData : Word)
    (err : Err) (sticky : Bool) (errUnit : OffUnit) (host : List HostEvent) (driver : Option Nat) :
    State.Inv { s with
      arg0 := arg0
      arg1 := arg1
      res0 := res0
      res1 := res1
      status := { s.status with err := err, sticky := sticky, errUnit := errUnit }
      erroff := erroff
      host := host
      driver := driver
      readData := readData } :=
  ⟨hs.bufLen_lt, hs.buf_wf, hs.bc_window, hs.bc_pos, hs.tile_window, hs.range_ge, hs.value_lt,
    hs.ram_wf, hs.rom_wf⟩

/-- A failing command keeps the invariants. -/
theorem State.Inv.raise {s : State} (hs : s.Inv) (e : Err) (off : Word) (u : OffUnit) :
    (raise e off u s).Inv := by
  unfold Machine.raise
  exact hs.of_other_fields ..

/-! ### Commands -/

/-- A successful command keeps the cursor's part: one of its own moves inside the window or sets one inside BUF, any
other leaves it. -/
theorem exec_keeps_cursorInv {i : Instr} {s t : State} (hs : s.Inv) (h : exec i s = .next t)
    (hok : t.status.err = .ok) : CursorInv t := by
  obtain ⟨-, hlen, -⟩ := noCommandWritesBufOrRom i s t h
  rcases cursor_cases i with hi | rfl | hi
  · have hmoves := exec_movesBy hs hi h hok
    intro _
    rw [bcBits, hmoves.base, hmoves.len, hmoves.pos, hlen]
    exact ⟨hs.bc_window hmoves.valid, hmoves.fits⟩
  · obtain ⟨hfit, hbc⟩ := exec_bcInit_succeeds h hok
    intro _
    rw [bcBits, hbc, hlen]
    exact ⟨hfit, Nat.zero_le _⟩
  · obtain ⟨hbc, hvalid⟩ := exec_leaves_cursor hi h
    unfold CursorInv bcBits
    rw [hbc, hvalid, hlen]
    exact hs.cursorInv

/-- The decoder that AD.INIT starts is in its bounds (spec/42_arith_decoder.md R162). -/
theorem startDecoder_bounds (base size : Word) (s : State) :
    let ad := (startDecoder (placeTile base size s)).ad
    2 ^ 15 ≤ ad.range.toNat ∧ ad.value.toNat < ad.range.toNat := by
  intro ad
  have hrange : ad.range.toNat = 2 ^ 15 := rfl
  have hxor : (2 ^ 15 - 1) ^^^ fetchValue (placeTile base size s) 15 < 2 ^ 15 :=
    Nat.xor_lt_two_pow (by decide) (fetchValue_lt _ _)
  have hvalue : ad.value.toNat = (2 ^ 15 - 1) ^^^ fetchValue (placeTile base size s) 15 :=
    (BitVec.toNat_ofNat _ _).trans (Nat.mod_eq_of_lt (hxor.trans (by decide)))
  rw [hrange, hvalue]
  exact ⟨Nat.le_refl _, hxor⟩

/-- A successful command keeps the decoder's part and the tables: a typed read stays ready from symbol to symbol,
AD.INIT starts ready, a reload takes the ROM's tables, and any other command leaves all of it. -/
theorem exec_keeps_decoderInv {i : Instr} {s t : State} (hs : s.Inv) (h : exec i s = .next t)
    (hok : t.status.err = .ok) : DecoderInv t ∧ t.ram.wf = true := by
  obtain ⟨-, hlen, -⟩ := noCommandWritesBufOrRom i s t h
  have unchanged (had : t.ad = s.ad) (hram : t.ram = s.ram)
      (hvalid : t.status.adValid = s.status.adValid) : DecoderInv t ∧ t.ram.wf = true := by
    unfold DecoderInv
    rw [had, hram, hvalid, hlen]
    exact ⟨hs.decoderInv, hs.ram_wf⟩
  rcases unit_cases i with hi | ⟨k, rfl⟩ | rfl | rfl | hi
  · obtain ⟨hv, rfl⟩ := exec_typedRead_succeeds hi h hok
    obtain ⟨hrange, hvalue, hram⟩ := ((hs.decoderReady hv).reading_within i).ready
    obtain ⟨hbase, hsize⟩ := afterReading_tile s i
    refine ⟨fun _ => ⟨?_, hrange, hvalue⟩, hram⟩
    rw [hlen, hbase, hsize]
    exact hs.tile_window hv
  · obtain ⟨hfit, had, hram⟩ := exec_adInit_succeeds h hok
    obtain ⟨hrange, hvalue⟩ := startDecoder_bounds s.arg0 s.arg1 s
    rw [DecoderInv, had, hram, hlen]
    refine ⟨fun _ => ⟨hfit, hrange, hvalue⟩, ?_⟩
    cases k with
    | reload => exact CdfRam.wf_reload hs.rom_wf
    | keep => exact hs.ram_wf
  · obtain ⟨had, hram⟩ := exec_adPos_leaves h
    refine unchanged had hram ((exec_succeeds h hok).adValid.elim id ?_)
    rintro ⟨⟨k, hk⟩, -⟩
    cases hk
  · cases h
    exact ⟨hs.decoderInv, CdfRam.wf_reload hs.rom_wf⟩
  · obtain ⟨had, hram, hvalid⟩ := exec_leaves_decoder hi h
    exact unchanged had hram hvalid

/-- Every command keeps the invariants. -/
theorem exec_keeps_inv {i : Instr} {s t : State} (hs : s.Inv) (h : exec i s = .next t) : t.Inv := by
  rcases exec_cases h with ⟨e, off, u, -, rfl⟩ | hsucc
  · exact hs.raise e off u
  · have hok : t.status.err = .ok := congrArg (·.status.err) hsucc
    obtain ⟨hdecoder, hram⟩ := exec_keeps_decoderInv hs h hok
    have hcursor := exec_keeps_cursorInv hs h hok
    refine .of_parts ?_ ?_ hcursor hdecoder hram ?_ <;> rw [hsucc]
    · exact hs.bufLen_lt
    · exact hs.buf_wf
    · exact hs.rom_wf

/-! ### Host interactions -/

/-- The reset state over a ROM that passes its check and a BUF in canonical form meets the invariants. -/
theorem State.resetOf_inv {rom : CdfRam} {buf : Memory} {bufLen : Nat} (hlen : bufLen < Config.bufLenLimit)
    (hbuf : buf.wf bufLen = true) (hrom : rom.wfDefault = true) : (State.resetOf rom buf bufLen).Inv :=
  .of_parts hlen hbuf nofun nofun (CdfRam.wf_reload hrom) hrom

theorem writeCmd_keeps_inv {w : Word} {s t : State} (hs : s.Inv) (h : writeCmd w s = .next t) : t.Inv := by
  unfold writeCmd at h
  split at h
  · exact exec_keeps_inv hs h
  · cases h
    exact hs.raise _ _ _

theorem writeReg_keeps_inv {r : Reg} {v : Word} {s t : State} (hs : s.Inv)
    (h : writeReg r v s = .next t) : t.Inv := by
  cases r with
  | cmd => exact writeCmd_keeps_inv hs h
  | arg0 | arg1 | res0 | res1 | status | erroff =>
    cases h
    exact hs.of_other_fields ..

/-- Loading BUF keeps the invariants: no window is valid, and the loaded memory is in canonical form. -/
theorem loadBuf_keeps_inv {content : List Byte} {s t : State} (hs : s.Inv)
    (h : loadBuf content s = .next t) : t.Inv := by
  unfold loadBuf at h
  split_ifs at h with hvalid hlen
  cases h
  exact .of_parts hlen (loaded_buf_wf content) (fun hv => absurd (.inl hv) hvalid)
    (fun hv => absurd (.inr hv) hvalid) hs.ram_wf hs.rom_wf

/-- Writing a byte of BUF keeps its canonical form and moves no window. -/
theorem writeBuf_keeps_inv {a : Nat} {x : Byte} {s t : State} (hs : s.Inv)
    (h : writeBuf a x s = .next t) : t.Inv := by
  unfold writeBuf at h
  split_ifs at h with ha _
  cases h
  exact .of_parts hs.bufLen_lt
    (Memory.write_wfFrom x hs.buf_wf (Nat.zero_le a) (Nat.lt_of_not_le ha))
    hs.cursorInv hs.decoderInv hs.ram_wf hs.rom_wf

/-- Every interaction keeps the invariants. -/
theorem perform_keeps_inv {e : HostEvent} {s t : State} (hs : s.Inv) (h : perform e s = .next t) :
    t.Inv := by
  cases e with
  | writeReg =>
    obtain ⟨r, hr⟩ := regAccess_next h
    exact writeReg_keeps_inv (hs.of_other_fields ..) hr
  | readReg =>
    simp only [perform] at h
    obtain ⟨r, hr⟩ := regAccess_next h
    cases hr
    exact hs.of_other_fields ..
  | loadBuf => exact loadBuf_keeps_inv hs h
  | writeBuf => exact writeBuf_keeps_inv hs h
  | reset =>
    cases h
    exact (State.resetOf_inv hs.bufLen_lt hs.buf_wf hs.rom_wf).of_other_fields ..
  | bufReadFails => cases h

/-- Settles O50: each part of the invariants is kept by every command and by every other interaction. -/
theorem stepKeepsTheInvariants : Obligations.StepKeepsTheInvariants := by
  intro s t hs h
  unfold step at h
  split at h
  · cases h
    exact hs
  · exact perform_keeps_inv (hs.of_other_fields ..) h

/-- Settles O51: the free DEFAULT_CDF passes its check, and the empty BUF is in canonical form. -/
theorem resetMeetsTheInvariants : Obligations.ResetMeetsTheInvariants :=
  State.resetOf_inv (by decide) rfl defaultCdf_wfDefault

/-! ### Completion -/

/-- The guard of log 10 does not stop a Bit Cursor read of a state that meets the invariants. -/
theorem bcRead_completes {s : State} (hs : s.Inv) (o : Order) (n limit consumed : Nat) :
    ∃ t, bcRead o n limit consumed s = .next t := by
  rcases bcRead_cases o n limit consumed s with ⟨-, g⟩ | ⟨-, -, g⟩ | ⟨-, -, -, g⟩ |
    ⟨hv, -, -, ⟨-, g⟩ | ⟨hw, -⟩⟩
  · exact ⟨_, g⟩
  · exact ⟨_, g⟩
  · exact ⟨_, g⟩
  · exact ⟨_, g⟩
  · exact absurd (hs.bc_window hv) (of_decide_eq_false hw)

/-- Nor does it stop a typed read. -/
theorem exec_typedRead_completes {i : Instr} (hi : i.typedRead = true) {s : State} (hs : s.Inv) :
    ∃ t, exec i s = .next t := by
  obtain ⟨hunset, hread, hparse⟩ := typedReadsSucceedOnceChecked s i hs hi
  cases hv : s.status.adValid with
  | false => exact ⟨_, hunset hv⟩
  | true =>
    by_cases hbsl : ∀ bsl hr hc, i = .srPart bsl hr hc → 3 ≤ bsl
    · obtain ⟨t, ht, -⟩ := hread hv hbsl
      exact ⟨t, ht⟩
    · push Not at hbsl
      obtain ⟨bsl, hr, hc, rfl, hlt⟩ := hbsl
      exact ⟨_, hparse hv bsl hr hc rfl hlt⟩

/-- A choice between two next states is a next state. -/
theorem exists_next_of_ite {c : Prop} [Decidable c] {x y : Host.Outcome State Fault Refusal}
    (hx : ∃ t, x = .next t) (hy : ∃ t, y = .next t) : ∃ t, (if c then x else y) = .next t := by
  split
  · exact hx
  · exact hy

/-- Settles O49: every path of a command but the two guards of log 10 answers a next state, and the invariants pass
those. -/
theorem everyCommandCompletes : Obligations.EveryCommandCompletes := by
  intro i s hs
  cases i with
  | bcInit | bcAlign | bcPos | bcRem | adInit | adPos => exact exists_next_of_ite ⟨_, rfl⟩ ⟨_, rfl⟩
  | bcSkip => exact exists_next_of_ite ⟨_, rfl⟩ (exists_next_of_ite ⟨_, rfl⟩ ⟨_, rfl⟩)
  | bcRdbit | bcRdbits | bcRdbits64 | bcRdbyte | bcPeek => exact bcRead_completes hs _ _ _ _
  | viDec =>
    cases hv : s.status.bcValid with
    | false => exact ⟨_, exec_of_cursor_unset rfl hv⟩
    | true => exact ⟨_, exec_viDec_of_valid hs hv⟩
  | srCtxrst => exact ⟨_, rfl⟩
  | srPart | srSkip | srIntra | srInter | srMv | srDq => exact exec_typedRead_completes rfl hs

/-- Every command needs a unit that is set up, or is one of the three that do not. -/
theorem needs_or_sets_up (i : Instr) :
    i = .bcInit ∨ (∃ k, i = .adInit k) ∨ i = .srCtxrst ∨ i.needsCursor = true ∨ i.needsDecoder = true := by
  cases i <;> simp [Instr.needsCursor, Instr.needsDecoder, Instr.ofCursor, Instr.typedRead]

/-- Settles O23: after reset no unit is set up, and the zero ARGs name the empty window at 0. -/
theorem commandsRightAfterReset : Obligations.CommandsRightAfterReset := by
  intro rom buf len i
  have hfit : (State.resetOf rom buf len).arg0.toNat + (State.resetOf rom buf len).arg1.toNat ≤
      (State.resetOf rom buf len).bufLen := Nat.zero_le len
  by_cases hset : i = .bcInit ∨ (∃ k, i = .adInit k) ∨ i = .srCtxrst
  · have succeeded {r : State} (h : exec i (State.resetOf rom buf len) = .next (succeed r)) :
        ∃ t, exec i (State.resetOf rom buf len) = .next t ∧
          (t.status.err = .ok ↔ i = .bcInit ∨ (∃ k, i = .adInit k) ∨ i = .srCtxrst) ∧
          (t.status.err ≠ .ok → t.status.err = .notInitialised) :=
      ⟨_, h, iff_of_true rfl hset, fun hne => absurd rfl hne⟩
    rcases hset with rfl | ⟨k, rfl⟩ | rfl
    · exact succeeded (exec_bcInit_of_fits hfit)
    · exact succeeded (exec_adInit_of_fits k hfit)
    · exact succeeded (exec_srCtxrst _)
  · have hneeds : i.needsCursor = true ∨ i.needsDecoder = true := by
      rcases needs_or_sets_up i with h | h | h | h
      · exact absurd (.inl h) hset
      · exact absurd (.inr (.inl h)) hset
      · exact absurd (.inr (.inr h)) hset
      · exact h
    exact ⟨_, unsetUnitsFail i _ (hneeds.imp (⟨·, rfl⟩) (⟨·, rfl⟩)), iff_of_false nofun hset,
      fun _ => rfl⟩

end Sys2Proof.Machine
end

section
/-! SUPPORT. The composition law of the Bit Cursor (spec/40_bit_cursor.md §5): one-bit reads in a row, and the
statement about them. -/

namespace Sys2Proof.Machine

/-! ### A field as the sum of its bits -/

theorem assembleMsb_eq_sum (bit : Nat → Bool) (p n : Nat) :
    assembleMsb bit p n = ((List.range n).map fun j => (bit (p + j)).toNat <<< (n - 1 - j)).sum := by
  induction n with
  | zero => rfl
  | succ n ih =>
    have hdouble : ((List.range n).map fun j => (bit (p + j)).toNat <<< (n + 1 - 1 - j)).sum =
        2 * ((List.range n).map fun j => (bit (p + j)).toNat <<< (n - 1 - j)).sum := by
      rw [← List.sum_map_mul_left]
      refine congrArg List.sum (List.map_congr_left fun j hj => ?_)
      have hlt := List.mem_range.mp hj
      rw [show n + 1 - 1 - j = n - 1 - j + 1 by omega, Nat.shiftLeft_succ]
    rw [assembleMsb, ih, List.range_succ, List.map_append, List.sum_append, hdouble]
    simp

theorem assembleLsb_eq_sum (bit : Nat → Bool) (p n : Nat) :
    assembleLsb bit p n = ((List.range n).map fun j => (bit (p + j)).toNat <<< j).sum := by
  induction n with
  | zero => rfl
  | succ n ih =>
    rw [assembleLsb, ih, List.range_succ, List.map_append, List.sum_append]
    simp [Nat.shiftLeft_eq]

/-- Gather (R102, R103) as the sum of its shifted bits. -/
theorem gather_eq_sum (s : State) (p n : Nat) (o : Order) :
    gather s p n o = ((List.range n).map fun j =>
      (bitAt s o (p + j)).toNat <<< (match o with | .msb => n - 1 - j | .lsb => j)).sum := by
  cases o with
  | msb => exact assembleMsb_eq_sum _ _ _
  | lsb => exact assembleLsb_eq_sum _ _ _

/-! ### One bit after another -/

/-- One one-bit read inside the window: the bit at BC_POS, and BC_POS moves by 1. -/
theorem exec_bcRdbit_of_fits {s : State} (hs : s.Inv) (hv : s.status.bcValid = true) (o : Order)
    (hfit : s.bc.pos.toNat + 1 ≤ bcBits s) :
    ∃ t, exec (.bcRdbit o) s = .next t ∧ t.Inv ∧ t.status.bcValid = true ∧ t.status.err = .ok ∧
      t.res0.getLsbD 0 = bitAt s o s.bc.pos.toNat ∧ t.bc.base = s.bc.base ∧ t.bc.len = s.bc.len ∧
      t.bc.pos.toNat = s.bc.pos.toNat + 1 ∧ t.buf = s.buf := by
  have hexec : exec (.bcRdbit o) s = .next
      (succeedWith (zext64 (gather s s.bc.pos.toNat 1 o)) (advanceCursor 1 s)) :=
    (bcRead_of_fits hv (Nat.le_refl 1) hfit o 1).trans (if_pos (decide_eq_true (hs.bc_window hv)))
  refine ⟨_, hexec, exec_keeps_inv hs hexec, hv, rfl, ?_, rfl, rfl,
    advanceCursor_pos_toNat hs hv hfit, rfl⟩
  have hland := gather_testBit s s.bc.pos.toNat o Nat.zero_lt_one
  rw [succeedWith_res0, zext64, BitVec.getLsbD_ofNat, ← Nat.add_zero s.bc.pos.toNat, ← hland]
  cases o <;> rfl

/-- `n` one-bit reads inside the window: the `n` bits from BC_POS on, and BC_POS moves by `n`. -/
theorem bitByBit_of_fits {s : State} (hs : s.Inv) (hv : s.status.bcValid = true) (o : Order) {n : Nat}
    (hfit : s.bc.pos.toNat + n ≤ bcBits s) :
    ∃ t, bitByBit o n s = some ((List.range n).map fun j => bitAt s o (s.bc.pos.toNat + j), t) ∧
      t.bc.base = s.bc.base ∧ t.bc.len = s.bc.len ∧ t.bc.pos.toNat = s.bc.pos.toNat + n := by
  induction n generalizing s with
  | zero => exact ⟨s, rfl, rfl, rfl, rfl⟩
  | succ n ih =>
    obtain ⟨t, hexec, ht, htv, hok, hbit, hbase, hlen, hpos, hbuf⟩ :=
      exec_bcRdbit_of_fits hs hv o (by omega)
    have hbits : bcBits t = bcBits s := by rw [bcBits, bcBits, hlen]
    obtain ⟨u, hu, hubase, hulen, hupos⟩ := ih ht htv (by omega)
    have hsame (p : Nat) : bitAt t o p = bitAt s o p := by
      rw [bitAt, bitAt, memRead, memRead, hbase, hbuf]
    refine ⟨u, ?_, hubase.trans hbase, hulen.trans hlen, by omega⟩
    rw [bitByBit, hexec]
    simp only [hok, if_true, hu, Option.map_some, hbit, hsame, hpos, List.range_succ_eq_map,
      List.map_cons, List.map_map, Function.comp_def, Nat.add_zero, Nat.succ_eq_add_one,
      Nat.add_assoc, Nat.add_comm 1]

/-- Settles O30: both take the bits from BC_POS on, one by one or as the sum of their places. -/
theorem bitByBitEqualsOneRead : Obligations.BitByBitEqualsOneRead := by
  intro s o n hs hv hn hfit
  obtain ⟨t, hbits, hbase, hlen, hpos⟩ := bitByBit_of_fits hs hv o hfit
  have hexec : exec (.bcRdbits o n) s = .next
      (succeedWith (zext64 (gather s s.bc.pos.toNat n o)) (advanceCursor n s)) :=
    (bcRead_of_fits hv hn hfit o n).trans (if_pos (decide_eq_true (hs.bc_window hv)))
  have hbc : (advanceCursor n s).bc = t.bc := by
    have hsame : (advanceCursor n s).bc.pos = t.bc.pos :=
      BitVec.eq_of_toNat_eq ((advanceCursor_pos_toNat hs hv hfit).trans hpos.symm)
    show BitCursor.mk s.bc.base s.bc.len (advanceCursor n s).bc.pos = t.bc
    rw [hsame, ← hbase, ← hlen]
  have h64 : gather s s.bc.pos.toNat n o < 2 ^ 64 :=
    (gather_lt _ _ _ _).trans_le (Nat.pow_le_pow_right (by decide) (by omega))
  refine ⟨_, t, _, hbits, hexec, by simp, hbc, ?_⟩
  rw [succeedWith_res0, toNat_zext64 h64, gather_eq_sum]
  refine congrArg List.sum (List.map_congr_left fun j hj => ?_)
  have hget : ((List.range n).map fun j => bitAt s o (s.bc.pos.toNat + j)).getD j false =
      bitAt s o (s.bc.pos.toNat + j) := by
    rw [List.getD_eq_getElem _ _ (by simpa using hj), List.getElem_map, List.getElem_range]
  cases o <;> exact congrArg (Bool.toNat · <<< _) hget.symm

end Sys2Proof.Machine
end
